-- ==== Sys2Proof/Word.lean ====
section
/-!
DEFINITION. The word types of TSRLE: the 64-bit command word the host issues (spec/30_encoding.md R70) and the
64-bit values of the registers, the output words and the responses (spec/10_state.md R25, R43).
-/

namespace Sys2Proof

/-- A command word: 64 bits, bit 0 the least significant (spec/30_encoding.md R70). -/
abbrev Cmd := BitVec 64

/-- A 64-bit value: a register read, a response, a fault record entry, an output word zero-extended from `W` bits. -/
abbrev Word := BitVec 64

/-- A slot number as a command word carries it (fields `C0` and `C1`, spec/30_encoding.md R70). -/
abbrev SlotNo := BitVec 8

end Sys2Proof
end

