-- ==== Sys2Proof/Syntax.lean ====
section
/-!
DEFINITION. The commands of TSRLE, one constructor per row of spec/opcode_table.json (spec/30_encoding.md R74), with
their operands in the order of that table's "operands" column, and the names of the 19 control and status registers
(spec/10_state.md R25).
-/

namespace Sys2Proof

/-- The traversal orders of spec/43_frame_pipeline.md R164. -/
inductive Traversal where
  | rowMajor
  | colMajor
deriving DecidableEq, Repr, Inhabited

/-- The control and status registers of spec/10_state.md R25, in the order of its table. -/
inductive Csr where
  | sinksel
  | rlecfg
  | width
  | height
  | status
  | cause
  | fcmd
  | fval
  | cntBits
  | emitBits
  | emitWords
  | pos
  | cur
  | runcnt
  | buflen
  | paramW
  | paramNslot
  | paramMaxpix
  | paramBufcap
deriving DecidableEq, Repr, Inhabited

/-- The fifteen commands (spec/30_encoding.md R74). An operand has the width of its field in the command word
(spec/30_encoding.md R72); whether it is in range is `Instr.wellFormed`'s question. -/
inductive Instr where
  | nop
  | wbit (bit : Bool)
  | wuint (value : BitVec 32) (n : BitVec 8)
  | wrice (value : BitVec 32) (k : BitVec 8)
  | flush
  | rpush (bit : Bool)
  | rflush
  | fbegin (slot : SlotNo)
  | fpix (bit : Bool)
  | fend
  | scanraw (cur : SlotNo) (trav : Traversal)
  | scanxor (cur : SlotNo) (ref : SlotNo) (trav : Traversal)
  | wcsr (addr : BitVec 8) (value : BitVec 32)
  | rcsr (addr : BitVec 8)
  | reset
deriving DecidableEq, Repr, Inhabited

end Sys2Proof
end

