-- ==== Sys2Proof/Decode.lean ====
section
/-!
DEFINITION. The decoder, from the mask-and-match table of spec/30_encoding.md R71 and R74, total on all 2^64 words
(R73) and rejecting by name (R75); then the encoder, from the fields of R70 and R72.
-/

namespace Sys2Proof

/-! ## The fields of a command word (spec/30_encoding.md R70, R72) -/

/-- `OP`, bits 7 to 0. -/
def Cmd.op (w : Cmd) : BitVec 8 := w.extractLsb' 0 8
/-- `B`, bits 15 to 8: a bit count, an exponent, a register address. -/
def Cmd.b (w : Cmd) : BitVec 8 := w.extractLsb' 8 8
/-- `C0`, bits 23 to 16: the (current) slot number. -/
def Cmd.c0 (w : Cmd) : BitVec 8 := w.extractLsb' 16 8
/-- `C1`, bits 31 to 24: the reference slot number. -/
def Cmd.c1 (w : Cmd) : BitVec 8 := w.extractLsb' 24 8
/-- `A`, bits 63 to 32: the value operand. -/
def Cmd.a (w : Cmd) : BitVec 32 := w.extractLsb' 32 32
/-- `bit = cmd[32]`. -/
def Cmd.bit (w : Cmd) : Bool := w.getLsbD 32
/-- `trav = cmd[8]`: 0 is row-major, 1 column-major (spec/43_frame_pipeline.md R164). -/
def Cmd.trav (w : Cmd) : Traversal := if w.getLsbD 8 then .colMajor else .rowMajor

/-! ## The formats and the opcode map -/

/-- The eight formats of spec/30_encoding.md R71. -/
inductive Format where
  | z
  | bit
  | vn
  | s
  | sr
  | sx
  | cw
  | cr
deriving DecidableEq, Repr

/-- The mask of a format: the bits that are fixed (spec/30_encoding.md R71). -/
def Format.mask : Format → Cmd
  | .z => 0xFFFFFFFFFFFFFFFF#64
  | .bit => 0xFFFFFFFEFFFFFFFF#64
  | .vn => 0x00000000FFFF00FF#64
  | .s => 0xFFFFFFFFFF00FFFF#64
  | .sr => 0xFFFFFFFFFF00FEFF#64
  | .sx => 0xFFFFFFFF0000FEFF#64
  | .cw => 0x00000000FFFF00FF#64
  | .cr => 0xFFFFFFFFFFFF00FF#64

/-- One row of the opcode map (spec/30_encoding.md R74): a word has the row when `cmd & mask = match`; `build` reads
the operands from the word. -/
structure OpRow where
  pattern : Cmd
  format : Format
  build : Cmd → Instr

/-- The opcode map of spec/30_encoding.md R74. -/
def opcodeMap : List OpRow :=
  [ ⟨0x00#64, .z, fun _ => .nop⟩,
    ⟨0x01#64, .bit, fun w => .wbit w.bit⟩,
    ⟨0x02#64, .vn, fun w => .wuint w.a w.b⟩,
    ⟨0x03#64, .vn, fun w => .wrice w.a w.b⟩,
    ⟨0x04#64, .z, fun _ => .flush⟩,
    ⟨0x08#64, .bit, fun w => .rpush w.bit⟩,
    ⟨0x09#64, .z, fun _ => .rflush⟩,
    ⟨0x10#64, .s, fun w => .fbegin w.c0⟩,
    ⟨0x11#64, .bit, fun w => .fpix w.bit⟩,
    ⟨0x12#64, .z, fun _ => .fend⟩,
    ⟨0x13#64, .sr, fun w => .scanraw w.c0 w.trav⟩,
    ⟨0x14#64, .sx, fun w => .scanxor w.c0 w.c1 w.trav⟩,
    ⟨0x18#64, .cw, fun w => .wcsr w.b w.a⟩,
    ⟨0x19#64, .cr, fun w => .rcsr w.b⟩,
    ⟨0x1F#64, .z, fun _ => .reset⟩ ]

/-- `cmd & mask = match` (spec/30_encoding.md R71). -/
def OpRow.matches (r : OpRow) (w : Cmd) : Bool := w &&& r.format.mask == r.pattern

/-- Why a word is no command (spec/30_encoding.md R75). Either way it raises `ILLEGAL_CMD`. -/
inductive DecodeError where
  /-- One of the 241 unused `OP` values. -/
  | undefinedOpcode (op : BitVec 8)
  /-- A defined `OP` with a nonzero must-be-zero bit. -/
  | mustBeZero (op : BitVec 8)
deriving DecidableEq, Repr

/-- Steps 1 and 2 of spec/30_encoding.md R73. Step 3, the operand-range checks of R76, needs the parameters of the
instance and is made by the meanings. -/
def decode (w : Cmd) : Except DecodeError Instr :=
  match opcodeMap.find? (fun r => r.matches w) with
  | some r => .ok (r.build w)
  | none =>
    if opcodeMap.any (fun r => r.pattern.extractLsb' 0 8 == w.op) then .error (.mustBeZero w.op)
    else .error (.undefinedOpcode w.op)

/-! ## The encoder -/

/-- The word with fields `A`, `C1`, `C0`, `B`, `OP` (spec/30_encoding.md R70). -/
def Cmd.ofFields (a : BitVec 32) (c1 c0 b op : BitVec 8) : Cmd := a ++ c1 ++ c0 ++ b ++ op

/-- `A` of format `BIT`: the bit in `A[0]`. -/
def bitField (bit : Bool) : BitVec 32 := if bit then 1#32 else 0#32

/-- `B` of formats `SR` and `SX`: the traversal in `B[0]`. -/
def travField : Traversal → BitVec 8
  | .rowMajor => 0#8
  | .colMajor => 1#8

/-- The word of a command (spec/30_encoding.md R70, R72, R74): unused fields are zero. -/
def encode : Instr → Cmd
  | .nop => Cmd.ofFields 0 0 0 0 0x00
  | .wbit bit => Cmd.ofFields (bitField bit) 0 0 0 0x01
  | .wuint value n => Cmd.ofFields value 0 0 n 0x02
  | .wrice value k => Cmd.ofFields value 0 0 k 0x03
  | .flush => Cmd.ofFields 0 0 0 0 0x04
  | .rpush bit => Cmd.ofFields (bitField bit) 0 0 0 0x08
  | .rflush => Cmd.ofFields 0 0 0 0 0x09
  | .fbegin slot => Cmd.ofFields 0 0 slot 0 0x10
  | .fpix bit => Cmd.ofFields (bitField bit) 0 0 0 0x11
  | .fend => Cmd.ofFields 0 0 0 0 0x12
  | .scanraw cur trav => Cmd.ofFields 0 0 cur (travField trav) 0x13
  | .scanxor cur ref trav => Cmd.ofFields 0 ref cur (travField trav) 0x14
  | .wcsr addr value => Cmd.ofFields value 0 0 addr 0x18
  | .rcsr addr => Cmd.ofFields 0 0 0 addr 0x19
  | .reset => Cmd.ofFields 0 0 0 0 0x1F

/-! ## The host's view of the opcode table -/

/-- The command word whose low `nbits` bits are those of `w` and whose other bits are 0; none where they do not fit 64
bits. A command word is one integer and has no byte order (spec/20_memory.md R56). -/
def tableWord (nbits w : Nat) : Option Cmd :=
  if w % 2 ^ nbits < 2 ^ 64 then some (BitVec.ofNat 64 (w % 2 ^ nbits)) else none

/-- The command this decoder reads from the bits `w` of a row of spec/opcode_table.json. -/
def decodeTableWord (nbits w : Nat) : Option Instr :=
  match tableWord nbits w with
  | some c =>
    match decode c with
    | .ok i => some i
    | .error _ => none
  | none => none

end Sys2Proof
end

