-- ==== Sys2Proof/Config.lean ====
section
/-!
DEFINITION. What is fixed for one instance of TSRLE (its build parameters, spec/00_scope.md R6) and the free values:
opaque constants with no body, one for each value the spec calls unspecified, applied to the model's counter of
draws (State.draws).  Nothing in Lean can evaluate one, so whatever is proved holds whichever value it has.
-/

namespace Sys2Proof

/-- The build-time parameters of an instance (spec/00_scope.md R6): the width of an output word, the number of frame
slots, the pixels one slot can hold, the booleans the coder's buffer can hold. `CW`, the counters' width, is fixed at
64 and is the width of their type. -/
structure Params where
  w : Nat
  nslot : Nat
  maxpix : Nat
  bufcap : Nat
deriving DecidableEq, Repr, Inhabited

/-- The legal ranges of the parameters, the table of spec/00_scope.md R6. -/
abbrev Params.Legal (p : Params) : Prop :=
  1 ≤ p.w ∧ p.w ≤ 64 ∧ 1 ≤ p.nslot ∧ p.nslot ≤ 256 ∧ 1 ≤ p.maxpix ∧ p.maxpix ≤ p.bufcap ∧ p.bufcap ≤ 2 ^ 32 - 1

/-- The default parameters of spec/00_scope.md R6: `W` = 32, `NSLOT` = 4, `MAXPIX` = `BUFCAP` = 8192. -/
def Config.defaultParams : Params := { w := 32, nslot := 4, maxpix := 8192, bufcap := 8192 }

/-! The value each element of the state takes at the `n`-th draw, where spec/60_exceptions.md R266 leaves that element
unspecified after a fault. -/

opaque Config.freeSinkSel : Nat → Bool
opaque Config.freeVpol : Nat → Bool
opaque Config.freeElide : Nat → Bool
opaque Config.freeLmode : Nat → Bool
opaque Config.freeLparam : Nat → BitVec 6
opaque Config.freeWidth : Nat → BitVec 16
opaque Config.freeHeight : Nat → BitVec 16
opaque Config.freeCntBits : Nat → BitVec 64
opaque Config.freeCur : Nat → BitVec 64
opaque Config.freePos : Nat → Nat
opaque Config.freeEmitBits : Nat → BitVec 64
opaque Config.freeEmitWords : Nat → BitVec 64
opaque Config.freeOut : Nat → List (BitVec 64)
opaque Config.freeBuf : Nat → List Bool
opaque Config.freeRuncnt : Nat → BitVec 32
opaque Config.freeLoadOpen : Nat → Bool
opaque Config.freeLoadSlot : Nat → Nat
opaque Config.freeLoadFill : Nat → BitVec 32

/-- The valid bit of the slot given second (spec/60_exceptions.md R266). -/
opaque Config.freeSlotValid : Nat → Nat → Bool

/-- The recorded width of the slot given second (spec/60_exceptions.md R266). -/
opaque Config.freeSlotW : Nat → Nat → BitVec 16

/-- The recorded height of the slot given second (spec/60_exceptions.md R266). -/
opaque Config.freeSlotH : Nat → Nat → BitVec 16

/-- The content of a pixel cell that nothing has written since the last reset or fault: "unspecified"
(spec/10_state.md R41, spec/93_implementation_defined.md U8); the cell's key is given second. -/
opaque Config.freePixel : Nat → Nat → Bool

/-- The 64-bit value an `RCSR` answers in the fault state where the table of spec/60_exceptions.md R267 says
"an unspecified 64-bit value". -/
opaque Config.freeResponse : Nat → BitVec 64

/-- Bits 3 to 1 of `STATUS` as an `RCSR` answers them in the fault state (spec/60_exceptions.md R267). -/
opaque Config.freeStatusBits : Nat → BitVec 3

end Sys2Proof
end

