-- ==== Sys2Proof/Machine/State.lean ====
section
/-!
DEFINITION. The state of one TSRLE instance: the tuple of spec/10_state.md R20, group by group, and three fields that
are the model's own (the parameters of the instance, the host's command stream, the counter of draws of free values);
the state after reset (spec/10_state.md R45); why a step stops.
-/

namespace Sys2Proof.Machine

/-- The causes of a fault (spec/60_exceptions.md R261). -/
inductive Cause where
  | uintRange
  | dimMismatch
  | illegalCmd
  | bufOverflow
  | slotInvalid
  | counterOverflow
  | protocol
  | cfgInvalid
deriving DecidableEq, Repr, Inhabited

/-- Why the model itself stops. TSRLE never stops: its own faults are the fault STATE of spec/60_exceptions.md R266,
reached by a next state. -/
inductive Fault where
  /-- `PixWrite` was asked for a cell outside the frame store (a slot at or above `NSLOT`, or an address at or above
  `MAXPIX`), which spec/20_memory.md R52 never does. Raised by `FPIX` only, in a state whose load engine points outside
  the store; no such state is reached from reset. Safe. -/
  | noSuchPixel
deriving DecidableEq, Repr

/-- Why the model gives no meaning. -/
inductive Refusal where
  /-- A command that has no meaning yet, by its mnemonic in spec/opcode_table.json. No arm answers it. Safe. -/
  | notModelled (mnemonic : String)
deriving DecidableEq, Repr

/-- The control group of spec/10_state.md R20: `SINKSEL` (false: the counting sink), the fields of `RLECFG` (R27),
`WIDTH` and `HEIGHT`. -/
structure Control where
  sinkSel : Bool
  vpol : Bool
  elide : Bool
  lmode : Bool
  lparam : BitVec 6
  width : BitVec 16
  height : BitVec 16
deriving DecidableEq, Repr, Inhabited

/-- The emitting sink (spec/10_state.md R20, R35, R36, R39): `CUR`, `POS`, `EMIT_BITS`, `EMIT_WORDS`, `OUT`. A word of
`W` bits is held in 64 bits, zero above bit `W - 1`. -/
structure Emitter where
  cur : Word
  pos : Nat
  bits : BitVec 64
  words : BitVec 64
  out : List Word
deriving DecidableEq, Repr, Inhabited

/-- The run-length coder (spec/10_state.md R20, R37, R40): `BUF` and `RUNCNT`. -/
structure Coder where
  buf : List Bool
  runcnt : BitVec 32
deriving DecidableEq, Repr, Inhabited

/-- The pixel cells of the frame store: (key, bit) pairs in rising order of key. A cell that is not listed has not been
written since the last reset or fault, and its content is unspecified (spec/10_state.md R41). -/
abbrev Memory := List (Nat × Bool)

/-- One slot's `SLOT_VALID`, `SLOT_W`, `SLOT_H` (spec/10_state.md R41). -/
structure SlotInfo where
  valid : Bool
  w : BitVec 16
  h : BitVec 16
deriving DecidableEq, Repr, Inhabited

/-- The frame store (spec/10_state.md R41). The slot table has an entry for each of the 256 slot numbers a command word
can carry; only the first `NSLOT` exist, and no command reaches the others (spec/30_encoding.md R76). -/
structure FrameStore where
  pix : Memory
  slots : Vector SlotInfo 256
deriving DecidableEq, Repr, Inhabited

/-- The load engine (spec/10_state.md R42): `LOAD_OPEN`, `LOAD_SLOT`, `LOAD_FILL`. -/
structure LoadEngine where
  isOpen : Bool
  slot : SlotNo
  fill : BitVec 32
deriving DecidableEq, Repr, Inhabited

/-- The fault registers (spec/10_state.md R20, R32, R33): `FAULT`, `CAUSE`, `FCMD`, `FVAL`. -/
structure FaultRecord where
  fault : Bool
  cause : BitVec 8
  fcmd : Word
  fval : Word
deriving DecidableEq, Repr, Inhabited

/-- The whole state. The first eight fields are the tuple of spec/10_state.md R20. The last three are the model's own:
`params`, the constants of the instance (spec/00_scope.md R6), which no step changes; `cmds`, the command words the host
is about to issue, the next first (spec/00_scope.md R8); `draws`, how many times free values have been drawn. -/
structure State where
  ctl : Control
  cntBits : BitVec 64
  emit : Emitter
  coder : Coder
  store : FrameStore
  load : LoadEngine
  flt : FaultRecord
  resp : List Word
  params : Params
  cmds : List Cmd
  draws : Nat
deriving DecidableEq, Repr, Inhabited

/-! ## Reset values (spec/10_state.md R45) -/

/-- Every control field is 0. -/
def Control.reset : Control :=
  { sinkSel := false, vpol := false, elide := false, lmode := false, lparam := 0, width := 0, height := 0 }

/-- An empty emitting sink. -/
def Emitter.reset : Emitter := { cur := 0, pos := 0, bits := 0, words := 0, out := [] }

/-- An empty buffer, no runs. -/
def Coder.reset : Coder := { buf := [], runcnt := 0 }

/-- An invalid slot of dimensions 0 × 0. -/
def SlotInfo.reset : SlotInfo := { valid := false, w := 0, h := 0 }

/-- Every slot invalid, every pixel cell unspecified. -/
def FrameStore.reset : FrameStore := { pix := [], slots := Vector.replicate 256 SlotInfo.reset }

/-- No load open. -/
def LoadEngine.reset : LoadEngine := { isOpen := false, slot := 0, fill := 0 }

/-- No fault recorded. -/
def FaultRecord.reset : FaultRecord := { fault := false, cause := 0, fcmd := 0, fval := 0 }

/-- The state after reset of an instance with parameters `p` (spec/10_state.md R45, spec/70_reset_and_hazards.md R300);
no command has been issued and no free value drawn. -/
def State.resetWith (p : Params) : State :=
  { ctl := .reset, cntBits := 0, emit := .reset, coder := .reset, store := .reset, load := .reset, flt := .reset,
    resp := [], params := p, cmds := [], draws := 0 }

/-- The state after reset of the instance with the default parameters of spec/00_scope.md R6. -/
def State.reset : State := State.resetWith Config.defaultParams

/-! ## Updates of one group -/

/-- `s` with the control group `c`. -/
def State.withCtl (c : Control) (s : State) : State := { s with ctl := c }
/-- `s` with `CNT_BITS` = `n`. -/
def State.withCnt (n : BitVec 64) (s : State) : State := { s with cntBits := n }
/-- `s` with the emitting sink `e`. -/
def State.withEmit (e : Emitter) (s : State) : State := { s with emit := e }
/-- `s` with the coder `c`. -/
def State.withCoder (c : Coder) (s : State) : State := { s with coder := c }
/-- `s` with the frame store `f`. -/
def State.withStore (f : FrameStore) (s : State) : State := { s with store := f }
/-- `s` with the load engine `l`. -/
def State.withLoad (l : LoadEngine) (s : State) : State := { s with load := l }
/-- `s` with the responses `r`. -/
def State.withResp (r : List Word) (s : State) : State := { s with resp := r }
/-- `s` with the host's command stream `q`. -/
def State.withCmds (q : List Cmd) (s : State) : State := { s with cmds := q }
/-- `s` after one more draw of free values. -/
def State.drawn (s : State) : State := { s with draws := s.draws + 1 }

end Sys2Proof.Machine
end

