-- ==== Sys2Proof/Machine/Flags.lean ====
section
/-!
DEFINITION. The four status bits (spec/10_state.md R23, R31). TSRLE has no condition codes and no arithmetic flags.
-/

namespace Sys2Proof.Machine

/-- `BUF_NE`: the buffer is not empty (spec/10_state.md R31). -/
def bufNe (s : State) : Bool := !s.coder.buf.isEmpty

/-- `PARTIAL`: a partial word is pending (spec/10_state.md R31). -/
def partialWord (s : State) : Bool := decide (0 < s.emit.pos)

/-- `STATUS`: `FAULT` in bit 0, `LOAD_OPEN` in bit 1, `BUF_NE` in bit 2, `PARTIAL` in bit 3, zero above
(spec/10_state.md R31). -/
def statusWord (s : State) : Word :=
  (BitVec.ofBool (partialWord s) ++ BitVec.ofBool (bufNe s) ++ BitVec.ofBool s.load.isOpen ++ BitVec.ofBool s.flt.fault
    : BitVec 4).setWidth 64

/-- `STATUS` as an `RCSR` answers it in the fault state: bit 0 is 1, bits 3 to 1 are the unspecified `bits`, zero above
(spec/60_exceptions.md R267). -/
def statusWordInFault (bits : BitVec 3) : Word := (bits ++ 1#1 : BitVec 4).setWidth 64

end Sys2Proof.Machine
end

