-- ==== Sys2Proof/Machine/Operands.lean ====
section
/-!
DEFINITION. The operand forms: slot numbers and the slot table, the register addresses of spec/10_state.md R25, the
fields of `RLECFG` (R27, R28), the pixel addresses of the two traversals (spec/20_memory.md R51,
spec/43_frame_pipeline.md R164).
-/

namespace Sys2Proof.Machine

/-! ## Frames and slots -/

/-- `N = WIDTH × HEIGHT`, a natural number that does not wrap (spec/10_state.md R30). -/
def frameSize (c : Control) : Nat := c.width.toNat * c.height.toNat

/-- `WIDTH` ≥ 1, `HEIGHT` ≥ 1 and `WIDTH × HEIGHT` ≤ `MAXPIX`: what `CFG_INVALID` tests (spec/43_frame_pipeline.md
R161, R165). -/
def dimsValid (p : Params) (c : Control) : Bool :=
  decide (c.width ≠ 0) && decide (c.height ≠ 0) && decide (frameSize c ≤ p.maxpix)

/-- The slot exists (spec/30_encoding.md R76). -/
def slotExists (p : Params) (n : SlotNo) : Bool := decide (n.toNat < p.nslot)

/-- `SLOT_VALID[n]`, `SLOT_W[n]`, `SLOT_H[n]`. -/
def State.slot (s : State) (n : SlotNo) : SlotInfo := s.store.slots.get n.toFin

/-- The frame store with the entry of slot `n` replaced. -/
def FrameStore.setSlot (f : FrameStore) (n : SlotNo) (i : SlotInfo) : FrameStore :=
  { f with slots := f.slots.set n.toNat i n.isLt }

/-! ## Traversals -/

/-- The pixel address of a position, `a = y × WIDTH + x` (spec/20_memory.md R51). -/
def pixelAddr (width x y : Nat) : Nat := y * width + x

/-- `pos(trav, i)`, the position `(x, y)` visited at step `i` (spec/43_frame_pipeline.md R164). -/
def traversalPos (t : Traversal) (width height i : Nat) : Nat × Nat :=
  match t with
  | .rowMajor => (i % width, i / width)
  | .colMajor => (i / height, i % height)

/-- `addr(trav, i)` (spec/43_frame_pipeline.md R164). -/
def traversalAddr (t : Traversal) (width height i : Nat) : Nat :=
  pixelAddr width (traversalPos t width height i).1 (traversalPos t width height i).2

/-! ## Registers -/

/-- The register map (spec/10_state.md R25). -/
def csrMap : List (BitVec 8 × Csr) :=
  [ (0x00#8, .sinksel), (0x01#8, .rlecfg), (0x02#8, .width), (0x03#8, .height),
    (0x10#8, .status), (0x11#8, .cause), (0x12#8, .fcmd), (0x13#8, .fval),
    (0x20#8, .cntBits), (0x21#8, .emitBits), (0x22#8, .emitWords), (0x23#8, .pos), (0x24#8, .cur),
    (0x28#8, .runcnt), (0x29#8, .buflen),
    (0x30#8, .paramW), (0x31#8, .paramNslot), (0x32#8, .paramMaxpix), (0x33#8, .paramBufcap) ]

/-- The register at an address; none where the map has none (spec/10_state.md R25). -/
def csrAt (addr : BitVec 8) : Option Csr := (csrMap.find? (fun r => r.1 == addr)).map (·.2)

/-- `RLECFG` as it reads (spec/10_state.md R27): `LPARAM` in bits 13 to 8, `LMODE`, `ELIDE`, `VPOL` in bits 2, 1, 0. -/
def rlecfgWord (c : Control) : Word :=
  (c.lparam ++ 0#5 ++ BitVec.ofBool c.lmode ++ BitVec.ofBool c.elide ++ BitVec.ofBool c.vpol : BitVec 14).setWidth 64

/-- `LMODE` of a value written to `RLECFG`. -/
def lmodeField (value : BitVec 32) : Bool := value.getLsbD 2

/-- `LPARAM` of a value written to `RLECFG`. -/
def lparamField (value : BitVec 32) : BitVec 6 := value.extractLsb' 8 6

/-- The values `RLECFG` takes (spec/10_state.md R28, spec/44_control.md R191): no reserved bit, `LPARAM` at most 32 for
a fixed width and at most 31 for a Rice exponent. -/
def rlecfgLegal (value : BitVec 32) : Bool :=
  (value &&& ~~~0x00003F07#32 == 0#32) &&
    decide ((lparamField value).toNat ≤ (if lmodeField value then 31 else 32))

/-- The control group with `RLECFG` written (spec/44_control.md R191). -/
def Control.setRlecfg (c : Control) (value : BitVec 32) : Control :=
  { c with vpol := value.getLsbD 0, elide := value.getLsbD 1, lmode := lmodeField value, lparam := lparamField value }

end Sys2Proof.Machine
end

