-- ==== Sys2Proof/Machine/OutputFormat.lean ====
section
/-!
DEFINITION. The format of the output bit stream (spec/30_encoding.md, Part B): the two scalar codes as bit strings in
write order (R81, R82), the runs of a boolean sequence (spec/42_run_length_coder.md R143) and the run stream they are
written as (R83, R84), with its length (spec/42_run_length_coder.md R152).
-/

namespace Sys2Proof.Machine

/-- The fixed-width field of `n` bits that encodes `v`, least significant bit first (spec/30_encoding.md R81). -/
def uintBits (v n : Nat) : List Bool := (List.range n).map (fun i => v.testBit i)

/-- The Rice code of `v` with exponent `k` (spec/30_encoding.md R82): `v >> k` ones, a zero, the remainder in `k` bits. -/
def riceBits (v k : Nat) : List Bool := List.replicate (v >>> k) true ++ false :: uintBits (v % 2 ^ k) k

/-- One run: its value and its length (spec/30_encoding.md R83). -/
structure Run where
  value : Bool
  len : Nat
deriving DecidableEq, Repr, Inhabited

/-- A boolean put before a sequence whose runs are given: it lengthens the first run if it has that run's value, and
is a run of its own otherwise. -/
def consRun (b : Bool) : List Run → List Run
  | [] => [⟨b, 1⟩]
  | r :: rs => if r.value = b then ⟨b, r.len + 1⟩ :: rs else ⟨b, 1⟩ :: r :: rs

/-- The maximal blocks of equal values of a sequence, in order (spec/42_run_length_coder.md R142, R143). -/
def runsOf : List Bool → List Run
  | [] => []
  | b :: bs => consRun b (runsOf bs)

/-- The coder's configuration, the fields of `RLECFG` (spec/10_state.md R27), as `RFLUSH` reads it. -/
structure RleConfig where
  vpol : Bool
  elide : Bool
  lmode : Bool
  lparam : Nat
deriving DecidableEq, Repr, Inhabited

/-- The configuration in the control registers. -/
def Control.rleConfig (c : Control) : RleConfig :=
  { vpol := c.vpol, elide := c.elide, lmode := c.lmode, lparam := c.lparam.toNat }

/-- A value bit is written for every run, or for the first only (spec/42_run_length_coder.md R144). -/
def RleConfig.writesValue (c : RleConfig) (isFirst : Bool) : Bool := !c.vpol || isFirst

/-- A length field is written unless the run reaches the end of the sequence and elision is on
(spec/42_run_length_coder.md R146). -/
def RleConfig.writesLength (c : RleConfig) (atEnd : Bool) : Bool := !(c.elide && atEnd)

/-- The length field of a run, which carries `len - 1` (spec/42_run_length_coder.md R145). -/
def RleConfig.lengthBits (c : RleConfig) (len : Nat) : List Bool :=
  if c.lmode then riceBits (len - 1) c.lparam else uintBits (len - 1) c.lparam

/-- The encoding of one run (spec/30_encoding.md R83): the value bit, then the length field. -/
def RleConfig.runBits (c : RleConfig) (isFirst atEnd : Bool) (r : Run) : List Bool :=
  (if c.writesValue isFirst then [r.value] else []) ++ (if c.writesLength atEnd then c.lengthBits r.len else [])

/-- The encodings of a list of runs, in order, the last one being the run that reaches the end (spec/30_encoding.md
R84). -/
def RleConfig.runListBits (c : RleConfig) : Bool → List Run → List Bool
  | _, [] => []
  | isFirst, r :: rest => c.runBits isFirst rest.isEmpty r ++ c.runListBits false rest

/-- The run stream of a boolean sequence (spec/30_encoding.md R84). -/
def RleConfig.runStream (c : RleConfig) (seq : List Bool) : List Bool := c.runListBits true (runsOf seq)

/-- The length of a length field (spec/42_run_length_coder.md R152). -/
def RleConfig.lengthCost (c : RleConfig) (len : Nat) : Nat :=
  if c.lmode then ((len - 1) >>> c.lparam) + 1 + c.lparam else c.lparam

/-- The length fields that are written: all but the last run's with elision (spec/42_run_length_coder.md R147). -/
def RleConfig.codedRuns (c : RleConfig) (runs : List Run) : List Run := if c.elide then runs.dropLast else runs

/-- The cost of a sequence: the number of bits one `RFLUSH` writes for it (spec/42_run_length_coder.md R152). -/
def RleConfig.cost (c : RleConfig) (seq : List Bool) : Nat :=
  (if seq.isEmpty then 0 else if c.vpol then 1 else (runsOf seq).length) +
    ((c.codedRuns (runsOf seq)).map (fun r => c.lengthCost r.len)).sum

/-- Every length field that is written fits (spec/42_run_length_coder.md R145): with a fixed width, `len - 1 < 2^L`. -/
def RleConfig.fits (c : RleConfig) (seq : List Bool) : Bool :=
  c.lmode || (c.codedRuns (runsOf seq)).all (fun r => decide (r.len - 1 < 2 ^ c.lparam))

end Sys2Proof.Machine
end

