-- ==== Sys2Proof/Machine/Ops.lean ====
section
/-!
DEFINITION. The operations every meaning is made of: how a command ends (spec/60_exceptions.md R263, R266, R267), the
pixel cells (spec/20_memory.md R52), reset, the responses, the bit sinks (spec/40_bit_sink.md R101, R102), the scalar
codecs (spec/41_scalar_codec.md R120, R121), the drain (spec/42_run_length_coder.md R142), the scan
(spec/43_frame_pipeline.md R165), and the taking of the next command word.
-/

namespace Sys2Proof.Machine

/-- The outcome of a step of this machine. -/
abbrev Outcome := Host.Outcome State Fault Refusal

/-- How a command's operation ends early: by `raise CAUSE(x)` (spec/60_exceptions.md R260), or by a stop of the model. -/
inductive Trap where
  | raise (cause : Cause) (fval : Word)
  | stop (reason : Fault)
deriving DecidableEq, Repr

/-- What a command's operation gives: the state it leaves, or how it ended early. -/
abbrev Result := Except Trap State

/-- `raise CAUSE(x)`, the auxiliary value a natural number zero-extended to 64 bits (spec/60_exceptions.md R266). -/
def raise {α : Type} (cause : Cause) (x : Nat) : Except Trap α := .error (.raise cause (BitVec.ofNat 64 x))

/-- Go on if the condition holds, else `raise CAUSE(x)`. -/
def require (cond : Bool) (cause : Cause) (x : Nat) : Except Trap Unit := if cond then .ok () else raise cause x

/-! ## The fault (spec/60_exceptions.md) -/

/-- The cause codes (spec/60_exceptions.md R261). -/
def Cause.code : Cause → BitVec 8
  | .uintRange => 1
  | .dimMismatch => 2
  | .illegalCmd => 3
  | .bufOverflow => 4
  | .slotInvalid => 5
  | .counterOverflow => 6
  | .protocol => 7
  | .cfgInvalid => 8

/-- The low `w` bits of a word: a value of the type "`W` bits". -/
def truncWord (w : Nat) (x : Word) : Word := BitVec.ofNat 64 (x.toNat % 2 ^ w)

/-- The unspecified control group after the `d`-th draw. -/
def freeControl (d : Nat) : Control :=
  { sinkSel := Config.freeSinkSel d, vpol := Config.freeVpol d, elide := Config.freeElide d,
    lmode := Config.freeLmode d, lparam := Config.freeLparam d, width := Config.freeWidth d,
    height := Config.freeHeight d }

/-- The unspecified emitting sink: any value of the types of spec/10_state.md R20. -/
def freeEmitter (p : Params) (d : Nat) : Emitter :=
  { cur := truncWord p.w (Config.freeCur d), pos := Config.freePos d % p.w, bits := Config.freeEmitBits d,
    words := Config.freeEmitWords d, out := (Config.freeOut d).map (truncWord p.w) }

/-- The unspecified coder: a buffer of at most `BUFCAP` booleans. -/
def freeCoder (p : Params) (d : Nat) : Coder :=
  { buf := (Config.freeBuf d).take p.bufcap, runcnt := Config.freeRuncnt d }

/-- The unspecified frame store: any slot table, and no cell whose content is known. -/
def freeStore (d : Nat) : FrameStore :=
  { pix := [],
    slots := Vector.ofFn (fun i : Fin 256 =>
      { valid := Config.freeSlotValid d i, w := Config.freeSlotW d i, h := Config.freeSlotH d i }) }

/-- The unspecified load engine: any slot number below `NSLOT`. -/
def freeLoad (p : Params) (d : Nat) : LoadEngine :=
  { isOpen := Config.freeLoadOpen d, slot := BitVec.ofNat 8 (Config.freeLoadSlot d % p.nslot),
    fill := Config.freeLoadFill d }

/-- Fault entry (spec/60_exceptions.md R266): the record is written, `RESP` is unchanged, and every other element of the
state is unspecified: a free value of its type. -/
def enterFault (cause : Cause) (cmd : Cmd) (fval : Word) (s : State) : State :=
  { ctl := freeControl s.draws
    cntBits := Config.freeCntBits s.draws
    emit := freeEmitter s.params s.draws
    coder := freeCoder s.params s.draws
    store := freeStore s.draws
    load := freeLoad s.params s.draws
    flt := { fault := true, cause := cause.code, fcmd := cmd, fval := fval }
    resp := s.resp
    params := s.params
    cmds := s.cmds
    draws := s.draws + 1 }

/-- Run the command `i`, whose operation is `body`: in the fault state it is discarded (spec/60_exceptions.md R267);
otherwise it completes, or enters the fault state with its own word in `FCMD` (R266). -/
def runCommand (i : Instr) (body : State → Result) (s : State) : Outcome :=
  if s.flt.fault then .next s
  else
    match body s with
    | .ok t => .next t
    | .error (.raise cause fval) => .next (enterFault cause (encode i) fval s)
    | .error (.stop reason) => .fault reason

/-- Handle a word that is no command (spec/30_encoding.md R75): `ILLEGAL_CMD`, or nothing in the fault state
(spec/60_exceptions.md R267). -/
def illegalWord (w : Cmd) (s : State) : Outcome :=
  if s.flt.fault then .next s else .next (enterFault .illegalCmd w 0 s)

/-- The way out of the fault state, and what `RESET` does in any state (spec/60_exceptions.md R270,
spec/44_control.md R193): every element takes its reset value. The parameters and the host's stream are not TSRLE's
state; the content of the pixel cells is unspecified anew (spec/70_reset_and_hazards.md R301). -/
def resetState (s : State) : State :=
  { State.resetWith s.params with cmds := s.cmds, draws := s.draws + 1 }

/-! ## The pixel cells (spec/20_memory.md R51, R52) -/

/-- The key of the cell `PIX[n][a]`. How cells are packed is not architectural (spec/20_memory.md R53); this numbering
gives every pair of a slot number and an address a key of its own. -/
def cellKey (n : SlotNo) (a : Nat) : Nat := 256 * a + n.toNat

/-- The bit at a key; none where nothing is listed. -/
def Memory.read (m : Memory) (k : Nat) : Option Bool :=
  match m with
  | [] => none
  | (k', b) :: rest => if k' = k then some b else Memory.read rest k

/-- The memory with the bit `b` at the key `k`. -/
def Memory.write (m : Memory) (k : Nat) (b : Bool) : Memory :=
  match m with
  | [] => [(k, b)]
  | (k', b') :: rest =>
    if k < k' then (k, b) :: (k', b') :: rest
    else if k = k' then (k, b) :: rest
    else (k', b') :: Memory.write rest k b

/-- The canonical form: keys strictly rising. An unlisted cell has no value, so no entry can repeat one. -/
abbrev Memory.wf (m : Memory) : Prop := (m.map Prod.fst).Pairwise (· < ·)

/-- The content of a cell that nothing has written: unspecified (spec/10_state.md R41). -/
def unwrittenPixel (s : State) (n : SlotNo) (a : Nat) : Bool := Config.freePixel s.draws (cellKey n a)

/-- `PixRead(n, a)` (spec/20_memory.md R52). -/
def pixRead (s : State) (n : SlotNo) (a : Nat) : Bool :=
  (s.store.pix.read (cellKey n a)).getD (unwrittenPixel s n a)

/-- Some `FPIX` has written the cell since the last reset or fault. -/
def pixWritten (s : State) (n : SlotNo) (a : Nat) : Bool := (s.store.pix.read (cellKey n a)).isSome

/-- `PixWrite(n, a, b)` (spec/20_memory.md R52), for a cell that exists. -/
def pixWrite (n : SlotNo) (a : Nat) (b : Bool) (s : State) : Result :=
  if n.toNat < s.params.nslot ∧ a < s.params.maxpix then
    .ok (s.withStore { s.store with pix := s.store.pix.write (cellKey n a) b })
  else .error (.stop .noSuchPixel)

/-! ## The host channel (spec/10_state.md R43) -/

/-- `respond(v)` (spec/00_scope.md R11). -/
def respond (v : Word) (s : State) : State := s.withResp (s.resp ++ [v])

/-! ## The bit sinks (spec/40_bit_sink.md) -/

/-- The partial word finalized: appended to `OUT`, counted in `EMIT_WORDS`, a new empty one begun
(spec/40_bit_sink.md R101, R102). -/
def Emitter.finalize (e : Emitter) : Emitter :=
  { e with out := e.out ++ [e.cur], words := e.words + 1, cur := 0, pos := 0 }

/-- The bit `b` placed at bit `POS` of the partial word and counted (spec/40_bit_sink.md R101). -/
def Emitter.place (e : Emitter) (b : Bool) : Emitter :=
  { e with cur := e.cur ||| ((BitVec.ofBool b).setWidth 64 <<< e.pos), pos := e.pos + 1, bits := e.bits + 1 }

/-- One bit written to the emitting sink of word width `w`, its counter not at its maximum (spec/40_bit_sink.md R101). -/
def Emitter.writeBit (w : Nat) (e : Emitter) (b : Bool) : Emitter :=
  if (e.place b).pos = w then (e.place b).finalize else e.place b

/-- `sink_write_bit(b)` (spec/40_bit_sink.md R101). -/
def sinkWriteBit (b : Bool) (s : State) : Result :=
  if s.ctl.sinkSel then
    if s.emit.bits = BitVec.allOnes 64 then raise .counterOverflow 0
    else .ok (s.withEmit (s.emit.writeBit s.params.w b))
  else if s.cntBits = BitVec.allOnes 64 then raise .counterOverflow 0
  else .ok (s.withCnt (s.cntBits + 1))

/-- `sink_write_bit` of each bit in order. -/
def writeBits (bits : List Bool) (s : State) : Result :=
  match bits with
  | [] => .ok s
  | b :: rest => sinkWriteBit b s >>= writeBits rest

/-- `sink_flush()` (spec/40_bit_sink.md R102). -/
def sinkFlush (s : State) : State :=
  if s.ctl.sinkSel then
    if 0 < s.emit.pos then s.withEmit s.emit.finalize else s
  else s

/-! ## The scalar codecs (spec/41_scalar_codec.md) -/

/-- `write_uint(v, n)` (spec/41_scalar_codec.md R120): the range test comes before the first bit. -/
def writeUint (v n : Nat) (s : State) : Result :=
  if 2 ^ n ≤ v then raise .uintRange v else writeBits (uintBits v n) s

/-- `write_rice(v, k)` (spec/41_scalar_codec.md R121). -/
def writeRice (v k : Nat) (s : State) : Result :=
  writeBits (List.replicate (v >>> k) true) s >>= fun s =>
  sinkWriteBit false s >>= fun s =>
  writeUint (v % 2 ^ k) k s

/-! ## The run-length coder (spec/42_run_length_coder.md) -/

/-- The length field of a run of length `len` (spec/42_run_length_coder.md R142, R145). -/
def writeLength (c : RleConfig) (len : Nat) (s : State) : Result :=
  if c.lmode then writeRice (len - 1) c.lparam s else writeUint (len - 1) c.lparam s

/-- The value bit of a run, if the policy writes it (spec/42_run_length_coder.md R142, R144). -/
def writeValueBit (c : RleConfig) (isFirst : Bool) (r : Run) (s : State) : Result :=
  if c.writesValue isFirst then sinkWriteBit r.value s else .ok s

/-- The length field of a run, unless it is elided (spec/42_run_length_coder.md R142, R146). -/
def writeLengthField (c : RleConfig) (atEnd : Bool) (r : Run) (s : State) : Result :=
  if c.writesLength atEnd then writeLength c r.len s else .ok s

/-- The loop of `rle_drain` over the runs (spec/42_run_length_coder.md R142); the first argument after the configuration
says that no run has been written yet. -/
def drainRuns (c : RleConfig) (isFirst : Bool) (runs : List Run) (s : State) : Result :=
  match runs with
  | [] => .ok s
  | r :: rest =>
    writeValueBit c isFirst r s >>= fun s =>
    writeLengthField c rest.isEmpty r s >>= fun s =>
    drainRuns c false rest s

/-- `rle_drain()` (spec/42_run_length_coder.md R142). -/
def rleDrain (s : State) : Result :=
  drainRuns s.ctl.rleConfig true (runsOf s.coder.buf) s >>= fun t =>
  .ok (t.withCoder { buf := [], runcnt := BitVec.ofNat 32 (runsOf s.coder.buf).length })

/-! ## The scan (spec/43_frame_pipeline.md) -/

/-- The pixel of slot `cur` at address `a`, XORed with the one of the reference slot at the same address, if there is
one (spec/43_frame_pipeline.md R165). -/
def scanPixel (s : State) (cur : SlotNo) (ref : Option SlotNo) (a : Nat) : Bool :=
  match ref with
  | none => pixRead s cur a
  | some r => xor (pixRead s cur a) (pixRead s r a)

/-- The booleans a scan appends, in traversal order (spec/43_frame_pipeline.md R164, R165). -/
def scanSeq (s : State) (cur : SlotNo) (ref : Option SlotNo) (t : Traversal) : List Bool :=
  (List.range (frameSize s.ctl)).map
    (fun i => scanPixel s cur ref (traversalAddr t s.ctl.width.toNat s.ctl.height.toNat i))

/-- The tests a scan makes of one slot: it is valid, and was loaded under the current dimensions
(spec/43_frame_pipeline.md R165). -/
def checkSlot (s : State) (n : SlotNo) : Except Trap Unit :=
  require (s.slot n).valid .slotInvalid n.toNat >>= fun _ =>
  require (decide ((s.slot n).w = s.ctl.width ∧ (s.slot n).h = s.ctl.height)) .dimMismatch n.toNat

/-- `scan(cur, ref, trav, useref)` (spec/43_frame_pipeline.md R165), with `ref` absent for `useref` = 0. -/
def scan (cur : SlotNo) (ref : Option SlotNo) (t : Traversal) (s : State) : Result :=
  require (dimsValid s.params s.ctl) .cfgInvalid (frameSize s.ctl) >>= fun _ =>
  checkSlot s cur >>= fun _ =>
  (match ref with
    | none => .ok ()
    | some r => checkSlot s r) >>= fun _ =>
  require (decide (s.coder.buf.length + frameSize s.ctl ≤ s.params.bufcap)) .bufOverflow
    (s.coder.buf.length + frameSize s.ctl) >>= fun _ =>
  .ok (s.withCoder { s.coder with buf := s.coder.buf ++ scanSeq s cur ref t })

/-! ## The registers (spec/10_state.md) -/

/-- The value of a register, zero-extended to 64 bits (spec/10_state.md R24 to R38). -/
def csrValue (s : State) : Csr → Word
  | .sinksel => (BitVec.ofBool s.ctl.sinkSel).setWidth 64
  | .rlecfg => rlecfgWord s.ctl
  | .width => s.ctl.width.setWidth 64
  | .height => s.ctl.height.setWidth 64
  | .status => statusWord s
  | .cause => s.flt.cause.setWidth 64
  | .fcmd => s.flt.fcmd
  | .fval => s.flt.fval
  | .cntBits => s.cntBits
  | .emitBits => s.emit.bits
  | .emitWords => s.emit.words
  | .pos => BitVec.ofNat 64 s.emit.pos
  | .cur => s.emit.cur
  | .runcnt => s.coder.runcnt.setWidth 64
  | .buflen => BitVec.ofNat 64 s.coder.buf.length
  | .paramW => BitVec.ofNat 64 s.params.w
  | .paramNslot => BitVec.ofNat 64 s.params.nslot
  | .paramMaxpix => BitVec.ofNat 64 s.params.maxpix
  | .paramBufcap => BitVec.ofNat 64 s.params.bufcap

/-- The registers whose value is specified in the fault state (spec/60_exceptions.md R267), but for `STATUS`. -/
def csrSurvivesFault : Csr → Bool
  | .cause => true
  | .fcmd => true
  | .fval => true
  | .paramW => true
  | .paramNslot => true
  | .paramMaxpix => true
  | .paramBufcap => true
  | _ => false

/-- A read of a register in the fault state (spec/60_exceptions.md R267): one value is appended, which is specified for
the fault record and the parameters, and in bits 0 and 63 to 4 for `STATUS`. -/
def readInFault (c : Csr) (s : State) : State :=
  if c = .status then (respond (statusWordInFault (Config.freeStatusBits s.draws)) s).drawn
  else if csrSurvivesFault c then respond (csrValue s c) s
  else (respond (Config.freeResponse s.draws) s).drawn

/-- A write of `WIDTH` or `HEIGHT`: 16 bits, and not while a load is open (spec/10_state.md R29, R30). -/
def checkDimWrite (value : BitVec 32) (s : State) : Except Trap Unit :=
  require (decide (value.toNat ≤ 0xFFFF)) .illegalCmd 0 >>= fun _ =>
  require (!s.load.isOpen) .protocol 0

/-- `csr[addr] <- value` (spec/44_control.md R191). -/
def writeCsr (addr : BitVec 8) (value : BitVec 32) (s : State) : Result :=
  match csrAt addr with
  | some .sinksel =>
    require (decide (value.toNat ≤ 1)) .illegalCmd 0 >>= fun _ =>
    .ok (s.withCtl { s.ctl with sinkSel := value.getLsbD 0 })
  | some .rlecfg =>
    require (rlecfgLegal value) .illegalCmd 0 >>= fun _ =>
    .ok (s.withCtl (s.ctl.setRlecfg value))
  | some .width =>
    checkDimWrite value s >>= fun _ =>
    .ok (s.withCtl { s.ctl with width := value.setWidth 16 })
  | some .height =>
    checkDimWrite value s >>= fun _ =>
    .ok (s.withCtl { s.ctl with height := value.setWidth 16 })
  | _ => raise .illegalCmd 0

/-! ## Taking the next command word -/

/-- The next command word the host issues, and the state once it is taken (spec/00_scope.md R8, spec/20_memory.md R63:
a word is consumed when issued and is not stored). -/
def takeCommand (s : State) : Option (Cmd × State) :=
  match s.cmds with
  | [] => none
  | w :: rest => some (w, s.withCmds rest)

end Sys2Proof.Machine
end

