-- ==== Sys2Proof/Machine/BitSink.lean ====
section
/-!
DEFINITION. The bit sink's commands, `WBIT` and `FLUSH` (spec/40_bit_sink.md).
-/

namespace Sys2Proof.Machine

/-- `WBIT bit` (spec/40_bit_sink.md R104). -/
def execWbit (bit : Bool) (s : State) : Outcome := runCommand (.wbit bit) (sinkWriteBit bit) s

/-- `FLUSH` (spec/40_bit_sink.md R105). -/
def execFlush (s : State) : Outcome := runCommand .flush (fun s => .ok (sinkFlush s)) s

end Sys2Proof.Machine
end

