-- ==== Sys2Proof/Machine/Control.lean ====
section
/-!
DEFINITION. The control commands `NOP`, `WCSR`, `RCSR`, `RESET` (spec/44_control.md).
-/

namespace Sys2Proof.Machine

/-- `NOP` (spec/44_control.md R190): no state changes, in the fault state or out of it. -/
def execNop (s : State) : Outcome := .next s

/-- `WCSR addr, value` (spec/44_control.md R191). -/
def execWcsr (addr : BitVec 8) (value : BitVec 32) (s : State) : Outcome :=
  runCommand (.wcsr addr value) (writeCsr addr value) s

/-- `RCSR addr` (spec/44_control.md R192); in the fault state as spec/60_exceptions.md R267 says, where a read of an
undefined address is discarded. -/
def execRcsr (addr : BitVec 8) (s : State) : Outcome :=
  match csrAt addr with
  | some c => if s.flt.fault then .next (readInFault c s) else .next (respond (csrValue s c) s)
  | none => runCommand (.rcsr addr) (fun _ => raise .illegalCmd 0) s

/-- `RESET` (spec/44_control.md R193), the same in the fault state (spec/60_exceptions.md R270). -/
def execReset (s : State) : Outcome := .next (resetState s)

end Sys2Proof.Machine
end

