-- ==== Sys2Proof/Machine/FramePipeline.lean ====
section
/-!
DEFINITION. The frame store's load commands `FBEGIN`, `FPIX`, `FEND` and the pipelines `SCANRAW`, `SCANXOR`
(spec/43_frame_pipeline.md).
-/

namespace Sys2Proof.Machine

/-- `FBEGIN slot` (spec/43_frame_pipeline.md R161). -/
def execFbegin (slot : SlotNo) (s : State) : Outcome :=
  runCommand (.fbegin slot)
    (fun s =>
      require (slotExists s.params slot) .illegalCmd 0 >>= fun _ =>
      require (!s.load.isOpen) .protocol 0 >>= fun _ =>
      require (dimsValid s.params s.ctl) .cfgInvalid (frameSize s.ctl) >>= fun _ =>
      .ok ((s.withStore (s.store.setSlot slot { s.slot slot with valid := false })).withLoad
        { isOpen := true, slot := slot, fill := 0 })) s

/-- `FPIX bit` (spec/43_frame_pipeline.md R162). -/
def execFpix (bit : Bool) (s : State) : Outcome :=
  runCommand (.fpix bit)
    (fun s =>
      require s.load.isOpen .protocol 0 >>= fun _ =>
      require (decide (s.load.fill.toNat ≠ frameSize s.ctl)) .dimMismatch (s.load.fill.toNat + 1) >>= fun _ =>
      pixWrite s.load.slot s.load.fill.toNat bit s >>= fun t =>
      .ok (t.withLoad { t.load with fill := t.load.fill + 1 })) s

/-- `FEND` (spec/43_frame_pipeline.md R163). -/
def execFend (s : State) : Outcome :=
  runCommand .fend
    (fun s =>
      require s.load.isOpen .protocol 0 >>= fun _ =>
      require (decide (s.load.fill.toNat = frameSize s.ctl)) .dimMismatch s.load.fill.toNat >>= fun _ =>
      .ok ((s.withStore (s.store.setSlot s.load.slot { valid := true, w := s.ctl.width, h := s.ctl.height })).withLoad
        { s.load with isOpen := false })) s

/-- `SCANRAW cur, trav` (spec/43_frame_pipeline.md R166). -/
def execScanraw (cur : SlotNo) (trav : Traversal) (s : State) : Outcome :=
  runCommand (.scanraw cur trav)
    (fun s => require (slotExists s.params cur) .illegalCmd 0 >>= fun _ => scan cur none trav s) s

/-- `SCANXOR cur, ref, trav` (spec/43_frame_pipeline.md R167). -/
def execScanxor (cur ref : SlotNo) (trav : Traversal) (s : State) : Outcome :=
  runCommand (.scanxor cur ref trav)
    (fun s =>
      require (slotExists s.params cur && slotExists s.params ref) .illegalCmd 0 >>= fun _ =>
      scan cur (some ref) trav s) s

end Sys2Proof.Machine
end

