-- ==== Sys2Proof/Machine/RunLength.lean ====
section
/-!
DEFINITION. The run-length coder's commands, `RPUSH` and `RFLUSH` (spec/42_run_length_coder.md).
-/

namespace Sys2Proof.Machine

/-- `RPUSH bit` (spec/42_run_length_coder.md R140). -/
def execRpush (bit : Bool) (s : State) : Outcome :=
  runCommand (.rpush bit)
    (fun s =>
      if s.coder.buf.length = s.params.bufcap then raise .bufOverflow (s.coder.buf.length + 1)
      else .ok (s.withCoder { s.coder with buf := s.coder.buf ++ [bit] })) s

/-- `RFLUSH` (spec/42_run_length_coder.md R141). -/
def execRflush (s : State) : Outcome := runCommand .rflush rleDrain s

end Sys2Proof.Machine
end

