-- ==== Sys2Proof/Machine/ScalarCodec.lean ====
section
/-!
DEFINITION. The scalar codecs' commands, `WUINT` and `WRICE` (spec/41_scalar_codec.md).
-/

namespace Sys2Proof.Machine

/-- `WUINT value, n` (spec/41_scalar_codec.md R122): `n` at most 32, then `write_uint`. -/
def execWuint (value : BitVec 32) (n : BitVec 8) (s : State) : Outcome :=
  runCommand (.wuint value n)
    (fun s => require (decide (n.toNat ≤ 32)) .illegalCmd 0 >>= fun _ => writeUint value.toNat n.toNat s) s

/-- `WRICE value, k` (spec/41_scalar_codec.md R123): `k` at most 31, then `write_rice`. -/
def execWrice (value : BitVec 32) (k : BitVec 8) (s : State) : Outcome :=
  runCommand (.wrice value k)
    (fun s => require (decide (k.toNat ≤ 31)) .illegalCmd 0 >>= fun _ => writeRice value.toNat k.toNat s) s

end Sys2Proof.Machine
end

