-- ==== Sys2Proof/Machine/Dispatch.lean ====
section
/-!
DEFINITION. One arm per command of spec/30_encoding.md R74, each a call of its meaning.
-/

namespace Sys2Proof.Machine

def exec (i : Instr) (s : State) : Host.Outcome State Fault Refusal :=
  match i with
  | .nop => Sys2Proof.Machine.execNop s
  | .wbit bit => Sys2Proof.Machine.execWbit bit s
  | .wuint value n => Sys2Proof.Machine.execWuint value n s
  | .wrice value k => Sys2Proof.Machine.execWrice value k s
  | .flush => Sys2Proof.Machine.execFlush s
  | .rpush bit => Sys2Proof.Machine.execRpush bit s
  | .rflush => Sys2Proof.Machine.execRflush s
  | .fbegin slot => Sys2Proof.Machine.execFbegin slot s
  | .fpix bit => Sys2Proof.Machine.execFpix bit s
  | .fend => Sys2Proof.Machine.execFend s
  | .scanraw cur trav => Sys2Proof.Machine.execScanraw cur trav s
  | .scanxor cur ref trav => Sys2Proof.Machine.execScanxor cur ref trav s
  | .wcsr addr value => Sys2Proof.Machine.execWcsr addr value s
  | .rcsr addr => Sys2Proof.Machine.execRcsr addr s
  | .reset => Sys2Proof.Machine.execReset s

end Sys2Proof.Machine
end

