-- ==== Sys2Proof/Machine/Step.lean ====
section
/-!
DEFINITION. One step: one command word, executed to completion (spec/00_scope.md R8). With no command word pending the
machine keeps its state (spec/10_state.md R22: nothing executes until the host issues a command).
-/

namespace Sys2Proof.Machine

/-- One step of the machine (spec/00_scope.md R8, spec/30_encoding.md R73). -/
def step (s : State) : Host.Outcome State Fault Refusal :=
  match takeCommand s with
  | none => .next s
  | some (w, t) =>
    match decode w with
    | .ok i => exec i t
    | .error _ => illegalWord w t

/-- `s` with the word of a row of spec/opcode_table.json as the next command the host issues. -/
def State.withFetchWord (s : State) (nbits w : Nat) : State :=
  match tableWord nbits w with
  | some c => s.withCmds (c :: s.cmds)
  | none => s

end Sys2Proof.Machine
end

