-- ==== Sys2Proof/Machine/ReferenceDecoder.lean ====
section
/-!
DEFINITION. The reference decoder of spec/45_host_procedures.md R230 to R233: a mathematical function for stating the
round trip, no hardware. A bit stream is a list of bits in write order; a read answers the value and the bits left, or
none where the stream ends too early.
-/

namespace Sys2Proof.Machine

/-- `read_uint(n)` (spec/45_host_procedures.md R231): the first bit read is bit 0 of the value. -/
def readUint (n : Nat) (bs : List Bool) : Option (Nat × List Bool) :=
  match n, bs with
  | 0, bs => some (0, bs)
  | _ + 1, [] => none
  | n + 1, b :: rest =>
    match readUint n rest with
    | some (v, left) => some (b.toNat + 2 * v, left)
    | none => none

/-- The ones before the first zero, which is read too (spec/45_host_procedures.md R232). -/
def readUnary (bs : List Bool) : Option (Nat × List Bool) :=
  match bs with
  | [] => none
  | false :: rest => some (0, rest)
  | true :: rest =>
    match readUnary rest with
    | some (q, left) => some (q + 1, left)
    | none => none

/-- `read_rice(k)` (spec/45_host_procedures.md R232). -/
def readRice (k : Nat) (bs : List Bool) : Option (Nat × List Bool) :=
  match readUnary bs with
  | some (q, rest) =>
    match readUint k rest with
    | some (r, left) => some ((q <<< k) ||| r, left)
    | none => none
  | none => none

/-- A length field read back: the value read is the length minus one (spec/45_host_procedures.md R233). -/
def readLength (c : RleConfig) (bs : List Bool) : Option (Nat × List Bool) :=
  match (if c.lmode then readRice c.lparam bs else readUint c.lparam bs) with
  | some (v, left) => some (v + 1, left)
  | none => none

/-- The value of run `i`: read from the stream, or the toggle of the value before it (spec/45_host_procedures.md R233). -/
def readValue (c : RleConfig) (i : Nat) (v : Bool) (bs : List Bool) : Option (Bool × List Bool) :=
  if c.writesValue (i == 0) then
    match bs with
    | [] => none
    | b :: rest => some (b, rest)
  else some (!v, bs)

/-- The loop of `decode_runs(n, m)` (spec/45_host_procedures.md R233), with fuel for the number of runs: `i` runs have
been read, the last of value `v`, giving `out`. Where the elided length `n - len(out)` would be below zero, which no
stream an `RFLUSH` wrote gives, the spec states no value: DESIGN CHOICE (notes/assumptions/21.md), safe, the loop answers
none. -/
def decodeRunsLoop (c : RleConfig) (n m : Nat) (fuel i : Nat) (v : Bool) (out bs : List Bool) :
    Option (List Bool × List Bool) :=
  match fuel with
  | 0 => if (if c.elide then i < m else out.length < n) then none else some (out, bs)
  | fuel + 1 =>
    if (if c.elide then i < m else out.length < n) then
      match readValue c i v bs with
      | none => none
      | some (v, bs) =>
        if c.elide ∧ i + 1 = m then
          if n < out.length then none
          else decodeRunsLoop c n m fuel (i + 1) v (out ++ List.replicate (n - out.length) v) bs
        else
          match readLength c bs with
          | none => none
          | some (len, bs) => decodeRunsLoop c n m fuel (i + 1) v (out ++ List.replicate len v) bs
    else some (out, bs)

/-- `decode_runs(n, m)` (spec/45_host_procedures.md R233): the sequence of `n` booleans whose run stream begins `bs`, of
`m` runs, and the bits left. Every run read adds at least one boolean or one to the run count, so `n + m` turns of the
loop are enough. -/
def decodeRuns (c : RleConfig) (n m : Nat) (bs : List Bool) : Option (List Bool × List Bool) :=
  decodeRunsLoop c n m (n + m) 0 false [] bs

end Sys2Proof.Machine
end

