-- ==== Sys2Proof/Machine/HostProcedures.lean ====
section
/-!
DEFINITION. The procedures the host runs on TSRLE (spec/45_host_procedures.md R210 to R226, R235, in scope by
spec/00_scope.md R4): the pseudo-instructions, the candidate frame encoder, the frame history manager, the sequence
driver, the decoding of a frame.  Nothing here is hardware state, and no step uses it: the host's arithmetic is done
here and the commands are run by `step`.
-/

namespace Sys2Proof.Machine

/-! ## Pseudo-instructions (spec/30_encoding.md R79) -/

/-- `SELCNT`. -/
def selcnt : List Instr := [.wcsr 0x00#8 0]
/-- `SELEMIT`. -/
def selemit : List Instr := [.wcsr 0x00#8 1]
/-- `SETDIM w, h`. -/
def setdim (w h : BitVec 16) : List Instr := [.wcsr 0x02#8 (w.setWidth 32), .wcsr 0x03#8 (h.setWidth 32)]
/-- `SETRLE vpol, elide, lmode, lparam`: `v = vpol + 2×elide + 4×lmode + 256×lparam`. -/
def setrle (c : RleConfig) : List Instr :=
  [.wcsr 0x01#8 (BitVec.ofNat 32 (c.vpol.toNat + 2 * c.elide.toNat + 4 * c.lmode.toNat + 256 * c.lparam))]
/-- `ENCRAW cur, trav`. -/
def encraw (cur : SlotNo) (t : Traversal) : List Instr := [.scanraw cur t, .rflush]
/-- `ENCXOR cur, ref, trav`. -/
def encxor (cur ref : SlotNo) (t : Traversal) : List Instr := [.scanxor cur ref t, .rflush]
/-- `LOADFRAME s, p0 p1 ...`. -/
def loadframe (s : SlotNo) (pixels : List Bool) : List Instr := .fbegin s :: pixels.map .fpix ++ [.fend]

/-! ## Issuing commands (spec/45_host_procedures.md R240) -/

/-- The host issues one command and waits for it to complete. -/
def issue (i : Instr) (s : State) : Option State :=
  match step (s.withCmds (encode i :: s.cmds)) with
  | .next t => some t
  | .fault _ => none
  | .refused _ => none

/-- The host issues commands one at a time, in order. -/
def issueAll (is : List Instr) (s : State) : Option State :=
  match is with
  | [] => some s
  | i :: rest =>
    match issue i s with
    | some t => issueAll rest t
    | none => none

/-- The last `n` responses. -/
def lastResponses (n : Nat) (s : State) : List Word := s.resp.drop (s.resp.length - n)

/-! ## Configuration (spec/45_host_procedures.md R211) -/

/-- `RCMODE`: how the run count is written. -/
inductive RunCountMode where
  | absent
  | fixed (r : Nat)
  | rice (k2 : Nat)
deriving DecidableEq, Repr

/-- The host's constants, "fixed before encoding begins". -/
structure HostConfig where
  capacity : Nat
  useBlank : Bool
  travs : List Traversal
  selBits : Nat
  rcMode : RunCountMode
  width : BitVec 16
  height : BitVec 16
  rle : RleConfig
deriving DecidableEq, Repr

/-- `N`, the pixels of a frame. -/
def HostConfig.pixels (h : HostConfig) : Nat := h.width.toNat * h.height.toNat

/-- The legal values of the constants (spec/45_host_procedures.md R211). -/
def HostConfig.legal (h : HostConfig) : Bool :=
  (h.capacity == 0 || h.capacity == 2 ^ h.capacity.log2) &&
    [[.rowMajor], [.colMajor], [.rowMajor, .colMajor]].contains h.travs &&
    decide (h.selBits ≤ 32) &&
    (match h.rcMode with
      | .absent => true
      | .fixed r => decide (r ≤ 32)
      | .rice k2 => decide (k2 ≤ 31)) &&
    decide (h.rle.lparam ≤ (if h.rle.lmode then 31 else 32))

/-- A run count is written whenever the last length is elided (spec/45_host_procedures.md R216,
spec/70_reset_and_hazards.md R312). -/
def HostConfig.decodable (h : HostConfig) : Bool := !h.rle.elide || h.rcMode != .absent

/-- The source's variants (spec/45_host_procedures.md R227); `full sb` has a window of `2^sb` frames. -/
inductive Variant where
  | intra
  | intraTraversal
  | precedingFrame
  | full (sb : Nat)
deriving DecidableEq, Repr

/-- The least `S` with `2^S` at least `n`. -/
def leastBits (n : Nat) : Nat := if n ≤ 1 then 0 else (n - 1).log2 + 1

/-- The settings of a variant (spec/45_host_procedures.md R227): `C`, the values `USE_BLANK` may have, `TRAVS`, the least
`S`. -/
def Variant.settings : Variant → Nat × List Bool × List Traversal × Nat
  | .intra => (0, [false, true], [.rowMajor], 0)
  | .intraTraversal => (0, [false, true], [.rowMajor, .colMajor], 1)
  | .precedingFrame => (1, [false], [.rowMajor], 0)
  | .full sb => (2 ^ sb, [true], [.rowMajor, .colMajor], leastBits ((2 ^ sb + 1) * 2))

/-- The constants are a setting of the variant. -/
def HostConfig.isVariant (h : HostConfig) (v : Variant) : Bool :=
  h.capacity == v.settings.1 && v.settings.2.1.contains h.useBlank && h.travs == v.settings.2.2.1 &&
    decide (v.settings.2.2.2 ≤ h.selBits)

/-! ## Frame history manager -/

/-- `push(frame)` (spec/45_host_procedures.md R220): append to the window, evict the oldest beyond the capacity. -/
def pushWindow (capacity : Nat) (window : List SlotNo) (n : SlotNo) : List SlotNo :=
  (window ++ [n]).drop (window.length + 1 - capacity)

/-- A slot that is not in the window (spec/45_host_procedures.md R222): the first of the `C + 1` in use. -/
def freeSlot (capacity : Nat) (window : List SlotNo) : Option SlotNo :=
  ((List.range (capacity + 1)).map (BitVec.ofNat 8)).find? (fun n => !window.contains n)

/-! ## Candidate frame encoder -/

/-- A reference of the pool: a frame of the window, or the implicit all-zero frame. -/
inductive Reference where
  | slot (n : SlotNo)
  | blank
deriving DecidableEq, Repr

/-- The reference pool (spec/45_host_procedures.md R212): the window oldest first, then the blank if it is used; the
blank alone if that is empty. -/
def referencePool (h : HostConfig) (window : List SlotNo) : List Reference :=
  if window.isEmpty && !h.useBlank then [.blank]
  else window.map .slot ++ (if h.useBlank then [.blank] else [])

/-- The candidates in order (spec/45_host_procedures.md R213): reference index ascending in the outer loop, the
traversals in the inner one. Candidate number `c` is the place in this list. -/
def candidates (h : HostConfig) (window : List SlotNo) : List (Reference × Traversal) :=
  (referencePool h window).flatMap (fun r => h.travs.map (fun t => (r, t)))

/-- The scan that builds a candidate's sequence: a blank reference needs no stored frame (spec/43_frame_pipeline.md
R169). -/
def candidateScan (cur : SlotNo) (cand : Reference × Traversal) : Instr :=
  match cand.1 with
  | .blank => .scanraw cur cand.2
  | .slot n => .scanxor cur n cand.2

/-- The commands that measure a candidate (spec/45_host_procedures.md R214). -/
def measureCommands (cur : SlotNo) (cand : Reference × Traversal) : List Instr :=
  [.wcsr 0x00#8 0, .rcsr 0x20#8, candidateScan cur cand, .rflush, .rcsr 0x20#8, .rcsr 0x28#8]

/-- A measured candidate: its number, itself, its cost and its run count. -/
structure Measured where
  index : Nat
  cand : Reference × Traversal
  cost : Nat
  runs : Nat
deriving DecidableEq, Repr

/-- Measure one candidate (spec/45_host_procedures.md R214): the cost is the difference of two reads of `CNT_BITS`. -/
def measure (cur : SlotNo) (index : Nat) (cand : Reference × Traversal) (s : State) : Option (Measured × State) :=
  match issueAll (measureCommands cur cand) s with
  | none => none
  | some t =>
    match lastResponses 3 t with
    | [b0, b1, m] => some ({ index := index, cand := cand, cost := b1.toNat - b0.toNat, runs := m.toNat }, t)
    | _ => none

/-- Measure a list of candidates numbered from `index`. -/
def measureAll (cur : SlotNo) (index : Nat) (cands : List (Reference × Traversal)) (s : State) :
    Option (List Measured × State) :=
  match cands with
  | [] => some ([], s)
  | c :: rest =>
    match measure cur index c s with
    | none => none
    | some (m, t) =>
      match measureAll cur (index + 1) rest t with
      | none => none
      | some (ms, u) => some (m :: ms, u)

/-- The winner (spec/45_host_procedures.md R215): least cost, the first one met on a tie; a later candidate replaces the
best so far only if its cost is strictly less. -/
def selectBest (m : Measured) (ms : List Measured) : Measured :=
  ms.foldl (fun best c => if c.cost < best.cost then c else best) m

/-- The run-count field of a frame (spec/45_host_procedures.md R216, R218): the number of runs, unbiased. -/
def runCountCommands (mode : RunCountMode) (runs : Nat) : List Instr :=
  match mode with
  | .absent => []
  | .fixed r => [.wuint (BitVec.ofNat 32 runs) (BitVec.ofNat 8 r)]
  | .rice k2 => [.wrice (BitVec.ofNat 32 runs) (BitVec.ofNat 8 k2)]

/-- The commands that emit the winner (spec/45_host_procedures.md R216, R217). -/
def emitCommands (h : HostConfig) (cur : SlotNo) (win : Measured) : List Instr :=
  [.wcsr 0x00#8 1, .wuint (BitVec.ofNat 32 win.index) (BitVec.ofNat 8 h.selBits)] ++
    runCountCommands h.rcMode win.runs ++ [candidateScan cur win.cand, .rflush]

/-! ## Sequence driver -/

/-- The checks of the driver at startup, step (3) of spec/45_host_procedures.md R223, against the parameters `p` it has
read. -/
def startupOk (p : Params) (h : HostConfig) : Bool :=
  decide (1 ≤ h.width.toNat) && decide (1 ≤ h.height.toNat) && decide (h.pixels ≤ p.maxpix) &&
    decide (h.pixels ≤ p.bufcap) && decide (h.capacity + 1 ≤ p.nslot) &&
    (if 1 ≤ h.capacity + h.useBlank.toNat then
      decide ((h.capacity + h.useBlank.toNat) * h.travs.length ≤ 2 ^ h.selBits)
    else decide (h.travs.length ≤ 2 ^ h.selBits)) &&
    decide (h.pixels % p.w = 0)

/-- Steps (1) and (2) of the startup (spec/45_host_procedures.md R223): `RESET`, then the reads of `PARAM_W`,
`PARAM_NSLOT`, `PARAM_MAXPIX`, `PARAM_BUFCAP`. -/
def startupReads : List Instr := [.reset, .rcsr 0x30#8, .rcsr 0x31#8, .rcsr 0x32#8, .rcsr 0x33#8]

/-- The parameters as the four reads answered them. -/
def readParams (s : State) : Option Params :=
  match lastResponses 4 s with
  | [w, nslot, maxpix, bufcap] =>
    some { w := w.toNat, nslot := nslot.toNat, maxpix := maxpix.toNat, bufcap := bufcap.toNat }
  | _ => none

/-- Step (4) of the startup (spec/45_host_procedures.md R223): write `WIDTH`, `HEIGHT` and `RLECFG`. -/
def startupWrites (h : HostConfig) : List Instr := setdim h.width h.height ++ setrle h.rle

/-- The startup, its four steps in the order of spec/45_host_procedures.md R223: reset, read the parameters, validate
the configuration against the values read, configure. None where the driver refuses to start. -/
def startup (h : HostConfig) (s : State) : Option State :=
  match issueAll startupReads s with
  | none => none
  | some t =>
    match readParams t with
    | none => none
    | some p => if h.legal && h.decodable && startupOk p h then issueAll (startupWrites h) t else none

/-- Encode one frame (spec/45_host_procedures.md R224): load it into a free slot, measure every candidate, select, emit,
push. Answers the state and the window, or none where a check of the host fails. -/
def encodeFrame (h : HostConfig) (window : List SlotNo) (pixels : List Bool) (s : State) :
    Option (State × List SlotNo) :=
  match freeSlot h.capacity window with
  | none => none
  | some n =>
    match issueAll (loadframe n pixels) s with
    | none => none
    | some t =>
      match measureAll n 0 (candidates h window) t with
      | some (m :: ms, u) =>
        match issueAll (emitCommands h n (selectBest m ms)) u with
        | none => none
        | some v => some (v, pushWindow h.capacity window n)
      | _ => none

/-- Encode the frames in order (spec/45_host_procedures.md R224, R225). -/
def encodeFrames (h : HostConfig) (window : List SlotNo) (frames : List (List Bool)) (s : State) : Option State :=
  match frames with
  | [] => some s
  | f :: rest =>
    match encodeFrame h window f s with
    | none => none
    | some (t, window') => encodeFrames h window' rest t

/-- The artifact of a run (spec/45_host_procedures.md R226, spec/70_reset_and_hazards.md R320): `OUT`, `EMIT_WORDS`,
`EMIT_BITS`. -/
structure Artifact where
  out : List Word
  words : Nat
  bits : Nat
deriving DecidableEq, Repr

/-- The end of the run (spec/45_host_procedures.md R226): select the emitting sink, flush it, read `STATUS`; if there is
no fault, read `EMIT_WORDS` and `EMIT_BITS`, and take the words of `OUT`. Nothing is output if a fault has occurred. -/
def finish (s : State) : Option Artifact :=
  match issueAll (selemit ++ [.flush, .rcsr 0x10#8]) s with
  | none => none
  | some t =>
    match lastResponses 1 t with
    | [status] =>
      if status.getLsbD 0 then none
      else
        match issueAll [.rcsr 0x22#8, .rcsr 0x21#8] t with
        | none => none
        | some u =>
          match lastResponses 2 u with
          | [words, bits] => some { out := u.emit.out, words := words.toNat, bits := bits.toNat }
          | _ => none
    | _ => none

/-- The whole procedure (spec/45_host_procedures.md R223 to R226): startup, every frame in order, the end of the run. -/
def encodeSequence (h : HostConfig) (frames : List (List Bool)) (s : State) : Option Artifact :=
  match startup h s with
  | none => none
  | some t =>
    match encodeFrames h [] frames t with
    | none => none
    | some u => finish u

/-! ## Decoding a frame (spec/45_host_procedures.md R235) -/

/-- The run count as the decoder reads it, and the bits left; `none` as the count where `RCMODE` is `absent`: it is then
"unknown" (spec/45_host_procedures.md R235). -/
def readRunCount (mode : RunCountMode) (bs : List Bool) : Option (Option Nat × List Bool) :=
  match mode with
  | .absent => some (none, bs)
  | .fixed r => (readUint r bs).map (fun x => (some x.1, x.2))
  | .rice k2 => (readRice k2 bs).map (fun x => (some x.1, x.2))

/-- `decode_runs(N, m)` with a run count that may be unknown. With `ELIDE` = 0 the count is not read
(spec/45_host_procedures.md R233), so any number stands for it. With `ELIDE` = 1 the decoder needs the count (R233,
spec/70_reset_and_hazards.md R312), and the spec does not say what it answers without one. DESIGN CHOICE
(notes/assumptions/20.md), safe: it answers none. -/
def decodeRunsUnknown (c : RleConfig) (n : Nat) (m : Option Nat) (bs : List Bool) : Option (List Bool × List Bool) :=
  match m with
  | some m => decodeRuns c n m bs
  | none => if c.elide then none else decodeRuns c n 0 bs

/-- The frame whose difference sequence under a traversal is `d`, against the reference frame `ref` (all zeros where it
is shorter: the blank is the empty list): `F[addr(t, i)] = d[i] xor ref[addr(t, i)]` for `0 <= i < N`
(spec/45_host_procedures.md R235). Where `d` is shorter than the frame, which only a run count of 0 with `ELIDE` = 1
gives, the spec does not say what `d[i]` is: DESIGN CHOICE (notes/assumptions/21.md), safe, there is no frame. -/
def placePixels (width height : Nat) (t : Traversal) (d ref : List Bool) : Option (List Bool) :=
  if d.length < width * height then none
  else
    some ((List.range (width * height)).map (fun a =>
      match (List.range (width * height)).find? (fun i => traversalAddr t width height i == a) with
      | some i => xor (d.getD i false) (ref.getD a false)
      | none => false))

/-- The decoder's own pool: the frames of its window oldest first, then the all-zero frame where the encoder's pool has
the blank. -/
def decoderPool (h : HostConfig) (window : List (List Bool)) : List (List Bool) :=
  if window.isEmpty && !h.useBlank then [[]] else window ++ (if h.useBlank then [[]] else [])

/-- `decode_frame` (spec/45_host_procedures.md R235): the frame, the decoder's window after it, and the bits left; none
where the stream ends early, the run count is needed and unknown (notes/assumptions/20.md), the selector names no
candidate, or the runs read give no frame (notes/assumptions/21.md). -/
def decodeFrame (h : HostConfig) (window : List (List Bool)) (bs : List Bool) :
    Option (List Bool × List (List Bool) × List Bool) :=
  match readUint h.selBits bs with
  | none => none
  | some (c, bs) =>
    match (decoderPool h window)[c / h.travs.length]?, h.travs[c % h.travs.length]? with
    | some ref, some t =>
      match readRunCount h.rcMode bs with
      | none => none
      | some (m, bs) =>
        match decodeRunsUnknown h.rle h.pixels m bs with
        | none => none
        | some (d, bs) =>
          match placePixels h.width.toNat h.height.toNat t d ref with
          | none => none
          | some frame => some (frame, (window ++ [frame]).drop (window.length + 1 - h.capacity), bs)
    | _, _ => none

end Sys2Proof.Machine
end

