-- ==== Sys2Proof/WellFormed.lean ====
section
/-!
DEFINITION. The operand-range checks of spec/30_encoding.md R76 as one predicate on a command and the parameters of
the instance.  The meanings (Machine/) make the same checks in the order of spec/60_exceptions.md R263; that the two
agree is stated, not assumed.
-/

namespace Sys2Proof

/-- The addresses a `WCSR` may name and the values it may write there (spec/30_encoding.md R76, spec/10_state.md R26
to R30). -/
def wcsrWellFormed (addr : BitVec 8) (value : BitVec 32) : Bool :=
  if addr = 0x00#8 then decide (value.toNat ≤ 1)
  else if addr = 0x01#8 then
    (value.extractLsb' 3 5 == 0#5) && (value.extractLsb' 14 18 == 0#18) &&
      decide ((value.extractLsb' 8 6).toNat ≤ (if value.getLsbD 2 then 31 else 32))
  else if addr = 0x02#8 then decide (value.toNat < 65536)
  else if addr = 0x03#8 then decide (value.toNat < 65536)
  else false

/-- The addresses of the register map (spec/10_state.md R25). -/
def definedCsrAddrs : List (BitVec 8) :=
  [0x00#8, 0x01#8, 0x02#8, 0x03#8, 0x10#8, 0x11#8, 0x12#8, 0x13#8, 0x20#8, 0x21#8, 0x22#8, 0x23#8, 0x24#8,
    0x28#8, 0x29#8, 0x30#8, 0x31#8, 0x32#8, 0x33#8]

/-- The operand-range checks of spec/30_encoding.md R76 for an instance with parameters `p`. -/
def Instr.wellFormed (p : Params) : Instr → Bool
  | .nop => true
  | .wbit _ => true
  | .wuint _ n => decide (n.toNat ≤ 32)
  | .wrice _ k => decide (k.toNat ≤ 31)
  | .flush => true
  | .rpush _ => true
  | .rflush => true
  | .fbegin slot => decide (slot.toNat < p.nslot)
  | .fpix _ => true
  | .fend => true
  | .scanraw cur _ => decide (cur.toNat < p.nslot)
  | .scanxor cur ref _ => decide (cur.toNat < p.nslot) && decide (ref.toNat < p.nslot)
  | .wcsr addr value => wcsrWellFormed addr value
  | .rcsr addr => definedCsrAddrs.contains addr
  | .reset => true

end Sys2Proof
end

