-- ==== Sys2Proof/Safety.lean ====
section
/-!
DEFINITION. What counts as a safe state and a good end of a run, in the terms the statements use: the invariant of
spec/10_state.md R44 with the types of R20, the bit stream of the emitting sink (spec/30_encoding.md R80), what it means
that bits have been written or that a fault has been raised, the end of a run (spec/70_reset_and_hazards.md R320).
-/

namespace Sys2Proof.Safety

open Sys2Proof.Machine

/-! ## The emitting sink as a bit stream -/

/-- The low `n` bits of a word, bit 0 first (spec/20_memory.md R54). -/
def wordBits (n : Nat) (x : Word) : List Bool := (List.range n).map (fun i => x.getLsbD i)

/-- All the bits in the emitting sink, in the order they lie in it: those of `OUT`, word by word, then the partial
word's (spec/30_encoding.md R80). The padding of a mid-stream `FLUSH` is among them. -/
def emitStream (s : State) : List Bool :=
  s.emit.out.flatMap (wordBits s.params.w) ++ wordBits s.emit.pos s.emit.cur

/-- Items 1 to 4 of spec/10_state.md R44 for an emitting sink of word width `w`, that every word of `OUT` has `w` bits
(R39), `W` itself being at most 64 (spec/00_scope.md R6), and that each word counted in `EMIT_WORDS` holds at least one bit counted in `EMIT_BITS` (the comment of
spec/40_bit_sink.md R101). -/
structure EmitterInv (w : Nat) (e : Emitter) : Prop where
  w_le : w ≤ 64
  pos_lt : e.pos < w
  cur_lt : e.cur.toNat < 2 ^ e.pos
  words_eq : e.words.toNat = e.out.length
  bits_le : e.bits.toNat ≤ w * e.words.toNat + e.pos
  words_le : e.words.toNat + e.pos ≤ e.bits.toNat
  out_lt : ∀ x ∈ e.out, x.toNat < 2 ^ w

/-- The equality of spec/10_state.md R44 item 4: no padding is in the emitting sink. -/
def Unpadded (s : State) : Prop := s.emit.bits.toNat = s.params.w * s.emit.words.toNat + s.emit.pos

/-! ## What a command does -/

/-- The fault state has not been entered. -/
abbrev Running (s : State) : Prop := s.flt.fault = false

/-- The selected sink can take `n` more bits before its counter is at its maximum (spec/10_state.md R34, R35). -/
def SinkRoom (n : Nat) (s : State) : Prop :=
  if s.ctl.sinkSel then s.emit.bits.toNat + n < 2 ^ 64 else s.cntBits.toNat + n < 2 ^ 64

/-- The emitting sink, if it is the selected one, meets its invariant. -/
def SinkSound (s : State) : Prop := s.ctl.sinkSel = true → EmitterInv s.params.w s.emit

/-- `t` is `s` after `bits` have been written to the selected sink: on the counting sink only the count has grown; on
the emitting sink the bit stream has grown by exactly these bits, no word of `OUT` has changed, and the rest of the
state is as before. -/
def WritesBits (bits : List Bool) (s t : State) : Prop :=
  if s.ctl.sinkSel then
    t = s.withEmit t.emit ∧ EmitterInv s.params.w t.emit ∧ emitStream t = emitStream s ++ bits ∧
      s.emit.out <+: t.emit.out ∧ t.emit.bits.toNat = s.emit.bits.toNat + bits.length
  else t = s.withCnt t.cntBits ∧ t.cntBits.toNat = s.cntBits.toNat + bits.length

/-- The command `i` raises the fault of the given code and auxiliary value (spec/60_exceptions.md R261, R266): the fault
state is entered with its record, and `RESP` is unchanged. -/
def Raises (i : Instr) (s : State) (code : BitVec 8) (fval : Word) : Prop :=
  ∃ t, exec i s = .next t ∧ t.flt = { fault := true, cause := code, fcmd := encode i, fval := fval } ∧ t.resp = s.resp

/-! ## The invariant -/

/-- What holds of every state, in the fault state too: the parameters are legal and the elements have the types of
spec/10_state.md R20, the pixel memory is in its canonical form, a cause that is recorded is one of spec/60_exceptions.md
R261. -/
structure TypeInv (s : State) : Prop where
  params : s.params.Legal
  pos_lt : s.emit.pos < s.params.w
  cur_lt : s.emit.cur.toNat < 2 ^ s.params.w
  out_lt : ∀ x ∈ s.emit.out, x.toNat < 2 ^ s.params.w
  buf_le : s.coder.buf.length ≤ s.params.bufcap
  load_slot : s.load.slot.toNat < s.params.nslot
  pix_wf : s.store.pix.wf
  cause : s.flt.fault = true → 1 ≤ s.flt.cause.toNat ∧ s.flt.cause.toNat ≤ 8

/-- What holds of a valid slot (spec/10_state.md R44 item 8): it exists, its dimensions are at least 1 and fit, and every
cell of its frame has been written. -/
structure SlotInv (s : State) (n : SlotNo) : Prop where
  exists_ : n.toNat < s.params.nslot
  w_pos : 1 ≤ (s.slot n).w.toNat
  h_pos : 1 ≤ (s.slot n).h.toNat
  size_le : (s.slot n).w.toNat * (s.slot n).h.toNat ≤ s.params.maxpix
  written : ∀ a, a < (s.slot n).w.toNat * (s.slot n).h.toNat → pixWritten s n a = true

/-- What holds while a load is open (spec/10_state.md R44 item 7): the slot is invalid, the fill is at most the frame's
size, which fits, and every cell filled so far has been written. -/
structure LoadInv (s : State) : Prop where
  invalid : (s.slot s.load.slot).valid = false
  dims : dimsValid s.params s.ctl = true
  fill_le : s.load.fill.toNat ≤ frameSize s.ctl
  written : ∀ a, a < s.load.fill.toNat → pixWritten s s.load.slot a = true

/-- What holds while `FAULT` = 0 (spec/10_state.md R44, R28, R32, R33, R37). -/
structure RunInv (s : State) : Prop where
  emitter : EmitterInv s.params.w s.emit
  slots : ∀ n : SlotNo, (s.slot n).valid = true → SlotInv s n
  load : s.load.isOpen = true → LoadInv s
  lparam : s.ctl.lparam.toNat ≤ (if s.ctl.lmode then 31 else 32)
  runcnt : s.coder.runcnt.toNat ≤ s.params.bufcap
  no_record : s.flt = FaultRecord.reset

/-- The invariant of the machine. -/
structure Inv (s : State) : Prop where
  type : TypeInv s
  run : Running s → RunInv s

/-! ## The end of a run -/

/-- A run has ended well (spec/70_reset_and_hazards.md R320): the host has no more commands, there is no fault, nothing
is half-loaded or unencoded, no partial word is pending. -/
def EndedWell (s : State) : Prop :=
  s.cmds = [] ∧ s.flt.fault = false ∧ s.load.isOpen = false ∧ s.coder.buf = [] ∧ s.emit.pos = 0

/-- The result of a run that ended well (spec/70_reset_and_hazards.md R320): (`OUT`, `EMIT_WORDS`, `EMIT_BITS`). -/
def runResult (s : State) : List Word × Nat × Nat := (s.emit.out, s.emit.words.toNat, s.emit.bits.toNat)

/-- A step is safe when it does not enter the fault state. -/
def SafeStep (s : State) : Prop := ∃ t, step s = .next t ∧ Running t

end Sys2Proof.Safety
end

