-- ==== Sys2Proof/Certificates/Slice0/Obligations.lean ====
section
/-!
DEFINITION. The statements for the provers, each a Prop. A statement about a next state quantifies over every state;
where it could fail only in a state no run reaches, the invariant that rules such states out is a premise.
-/

open Sys2Proof Sys2Proof.Machine Sys2Proof.Safety

/-! ## The command word (spec/30_encoding.md) -/

/-- Every command is read back from its word, with every value of every operand (R70 to R74). -/
def Obligations.DecodeOfEncodeIsTheCommand : Prop := ∀ i : Instr, decode (encode i) = .ok i

/-- A word that is a command is the word of that command: no bit of it is ignored (R70, R75: there are no ignored
bits). -/
def Obligations.EncodeOfDecodeIsTheWord : Prop := ∀ (w : Cmd) (i : Instr), decode w = .ok i → encode i = w

/-- Which words are which command, field by field: the opcode in bits 7 to 0, the operands where R72 puts them, every
other field zero (R70, R71, R72, R74). -/
def Obligations.FieldsDecideTheCommand : Prop :=
  ∀ w : Cmd,
    (decode w = .ok .nop ↔ w.op = 0x00#8 ∧ w.b = 0 ∧ w.c0 = 0 ∧ w.c1 = 0 ∧ w.a = 0) ∧
    (∀ bit : Bool, decode w = .ok (.wbit bit) ↔
      w.op = 0x01#8 ∧ w.b = 0 ∧ w.c0 = 0 ∧ w.c1 = 0 ∧ w.a = if bit then 1 else 0) ∧
    (∀ value n, decode w = .ok (.wuint value n) ↔ w.op = 0x02#8 ∧ w.b = n ∧ w.c0 = 0 ∧ w.c1 = 0 ∧ w.a = value) ∧
    (∀ value k, decode w = .ok (.wrice value k) ↔ w.op = 0x03#8 ∧ w.b = k ∧ w.c0 = 0 ∧ w.c1 = 0 ∧ w.a = value) ∧
    (decode w = .ok .flush ↔ w.op = 0x04#8 ∧ w.b = 0 ∧ w.c0 = 0 ∧ w.c1 = 0 ∧ w.a = 0) ∧
    (∀ bit : Bool, decode w = .ok (.rpush bit) ↔
      w.op = 0x08#8 ∧ w.b = 0 ∧ w.c0 = 0 ∧ w.c1 = 0 ∧ w.a = if bit then 1 else 0) ∧
    (decode w = .ok .rflush ↔ w.op = 0x09#8 ∧ w.b = 0 ∧ w.c0 = 0 ∧ w.c1 = 0 ∧ w.a = 0) ∧
    (∀ slot, decode w = .ok (.fbegin slot) ↔ w.op = 0x10#8 ∧ w.b = 0 ∧ w.c0 = slot ∧ w.c1 = 0 ∧ w.a = 0) ∧
    (∀ bit : Bool, decode w = .ok (.fpix bit) ↔
      w.op = 0x11#8 ∧ w.b = 0 ∧ w.c0 = 0 ∧ w.c1 = 0 ∧ w.a = if bit then 1 else 0) ∧
    (decode w = .ok .fend ↔ w.op = 0x12#8 ∧ w.b = 0 ∧ w.c0 = 0 ∧ w.c1 = 0 ∧ w.a = 0) ∧
    (∀ cur, (decode w = .ok (.scanraw cur .rowMajor) ↔
        w.op = 0x13#8 ∧ w.b = 0 ∧ w.c0 = cur ∧ w.c1 = 0 ∧ w.a = 0) ∧
      (decode w = .ok (.scanraw cur .colMajor) ↔
        w.op = 0x13#8 ∧ w.b = 1 ∧ w.c0 = cur ∧ w.c1 = 0 ∧ w.a = 0)) ∧
    (∀ cur ref, (decode w = .ok (.scanxor cur ref .rowMajor) ↔
        w.op = 0x14#8 ∧ w.b = 0 ∧ w.c0 = cur ∧ w.c1 = ref ∧ w.a = 0) ∧
      (decode w = .ok (.scanxor cur ref .colMajor) ↔
        w.op = 0x14#8 ∧ w.b = 1 ∧ w.c0 = cur ∧ w.c1 = ref ∧ w.a = 0)) ∧
    (∀ addr value, decode w = .ok (.wcsr addr value) ↔
      w.op = 0x18#8 ∧ w.b = addr ∧ w.c0 = 0 ∧ w.c1 = 0 ∧ w.a = value) ∧
    (∀ addr, decode w = .ok (.rcsr addr) ↔ w.op = 0x19#8 ∧ w.b = addr ∧ w.c0 = 0 ∧ w.c1 = 0 ∧ w.a = 0) ∧
    (decode w = .ok .reset ↔ w.op = 0x1F#8 ∧ w.b = 0 ∧ w.c0 = 0 ∧ w.c1 = 0 ∧ w.a = 0)

/-- No word matches two rows of the opcode map (R73: "at most one row matches"). -/
def Obligations.NoWordMatchesTwoRows : Prop :=
  opcodeMap.Pairwise (fun r r' => ∀ w : Cmd, ¬(r.matches w = true ∧ r'.matches w = true))

/-- The words R78 writes out decode to the commands it writes them for. -/
def Obligations.SpecWordsDecodeToTheirCommands : Prop :=
  decode 0x0000000500000402#64 = .ok (.wuint 5 4) ∧
  decode 0x0000000A00000203#64 = .ok (.wrice 10 2) ∧
  decode 0x0000000000010114#64 = .ok (.scanxor 1 0 .colMajor) ∧
  decode 0x0000000400000218#64 = .ok (.wcsr 0x02#8 4) ∧
  decode 0x0000000000002019#64 = .ok (.rcsr 0x20#8)

/-- A word that is no command raises `ILLEGAL_CMD` with itself in `FCMD` (R75, R261); `RESP` keeps its values (R266). -/
def Obligations.IllegalWordEntersTheFaultState : Prop :=
  ∀ (s : State) (w : Cmd) (rest : List Cmd) (e : DecodeError), s.cmds = w :: rest → Running s → decode w = .error e →
    ∃ t, step s = .next t ∧ t.flt = { fault := true, cause := 3, fcmd := w, fval := 0 } ∧ t.resp = s.resp ∧
      t.cmds = rest

/-- A command whose operands fail a range check of R76 raises `ILLEGAL_CMD`, whatever the state. -/
def Obligations.OperandOutOfRangeRaisesIllegalCmd : Prop :=
  ∀ (i : Instr) (s : State), Running s → i.wellFormed s.params = false → Raises i s 3 0

/-- A command whose operands pass the range checks of R76 raises some other fault or none. -/
def Obligations.OperandsInRangeNeverRaiseIllegalCmd : Prop :=
  ∀ (i : Instr) (s t : State), Running s → i.wellFormed s.params = true → exec i s = .next t → t.flt.fault = true →
    t.flt.cause ≠ 3

/-! ## The step (spec/00_scope.md R8) -/

/-- One step takes one command word and runs the command it is (R8, R73). -/
def Obligations.StepRunsTheDecodedCommand : Prop :=
  ∀ (s : State) (w : Cmd) (rest : List Cmd) (i : Instr), s.cmds = w :: rest → decode w = .ok i →
    step s = exec i { s with cmds := rest }

/-- With no command word pending a step changes nothing. THE MODEL'S CHOICE (notes/assumptions/3.md): the spec says that
nothing executes until the host issues a command (R22), not what a step is then. -/
def Obligations.StepWithNoCommandKeepsTheState : Prop := ∀ s : State, s.cmds = [] → step s = .next s

/-- From a state that meets the invariant the machine never stops: every command word, legal or not, in the fault state
or out of it, gives a next state. -/
def Obligations.StepAlwaysGivesANextState : Prop := ∀ s : State, Inv s → ∃ t, step s = .next t

/-! ## The bit sink (spec/40_bit_sink.md) -/

/-- `WBIT` performs `sink_write_bit` as R101 writes it: the counting sink counts; the emitting sink places the bit at
`POS`, and finalizes the word when it is full; a counter at its maximum raises `COUNTER_OVERFLOW(0)`. Nothing else
changes. -/
def Obligations.WbitFollowsSinkWriteBit : Prop :=
  ∀ (b : Bool) (s : State), Running s →
    (s.ctl.sinkSel = false → s.cntBits ≠ 0xFFFFFFFFFFFFFFFF#64 →
      exec (.wbit b) s = .next { s with cntBits := s.cntBits + 1 }) ∧
    (s.ctl.sinkSel = false → s.cntBits = 0xFFFFFFFFFFFFFFFF#64 → Raises (.wbit b) s 6 0) ∧
    (s.ctl.sinkSel = true → s.emit.bits ≠ 0xFFFFFFFFFFFFFFFF#64 → s.emit.pos + 1 ≠ s.params.w →
      exec (.wbit b) s = .next { s with emit := { s.emit with
        cur := s.emit.cur ||| (if b then 1#64 else 0#64) <<< s.emit.pos
        pos := s.emit.pos + 1
        bits := s.emit.bits + 1 } }) ∧
    (s.ctl.sinkSel = true → s.emit.bits ≠ 0xFFFFFFFFFFFFFFFF#64 → s.emit.pos + 1 = s.params.w →
      exec (.wbit b) s = .next { s with emit :=
        { cur := 0
          pos := 0
          bits := s.emit.bits + 1
          words := s.emit.words + 1
          out := s.emit.out ++ [s.emit.cur ||| (if b then 1#64 else 0#64) <<< s.emit.pos] } }) ∧
    (s.ctl.sinkSel = true → s.emit.bits = 0xFFFFFFFFFFFFFFFF#64 → Raises (.wbit b) s 6 0)

/-- `FLUSH` performs `sink_flush` as R102 writes it: only the partial word of the selected emitting sink is finalized, and
`EMIT_BITS` does not change. -/
def Obligations.FlushFollowsSinkFlush : Prop :=
  ∀ s : State, Running s →
    (s.ctl.sinkSel = false → exec .flush s = .next s) ∧
    (s.ctl.sinkSel = true → 0 < s.emit.pos →
      exec .flush s = .next { s with emit := { s.emit with
        out := s.emit.out ++ [s.emit.cur], words := s.emit.words + 1, cur := 0, pos := 0 } }) ∧
    (s.ctl.sinkSel = true → s.emit.pos = 0 → exec .flush s = .next s)

/-- A second `FLUSH` changes nothing (R103 (a)). -/
def Obligations.SecondFlushChangesNothing : Prop :=
  ∀ s t : State, Running s → exec .flush s = .next t → exec .flush t = .next t

/-- The word a `FLUSH` appends has zeros from bit `POS` up (R103 (b)). -/
def Obligations.FlushedPaddingIsZero : Prop :=
  ∀ s : State, Running s → EmitterInv s.params.w s.emit → s.ctl.sinkSel = true → 0 < s.emit.pos →
    ∃ t x, exec .flush s = .next t ∧ t.emit.out = s.emit.out ++ [x] ∧ ∀ j, s.emit.pos ≤ j → x.getLsbD j = false

/-- No command but `RESET` changes the sink that is not selected (R26, R103 (d)). -/
def Obligations.SinksAreIndependent : Prop :=
  ∀ (i : Instr) (s t : State), Running s → exec i s = .next t → Running t → i ≠ .reset →
    (s.ctl.sinkSel = false → t.emit = s.emit) ∧ (s.ctl.sinkSel = true → t.cntBits = s.cntBits)

/-! ## The scalar codecs (spec/41_scalar_codec.md) -/

/-- `WUINT value, n` writes `value[0], ..., value[n-1]` in that order to the selected sink, and changes nothing else
(R120, R122, spec/30_encoding.md R81). -/
def Obligations.WuintWritesItsField : Prop :=
  ∀ (value : BitVec 32) (n : BitVec 8) (s : State), Running s → SinkSound s → n.toNat ≤ 32 →
    value.toNat < 2 ^ n.toNat → SinkRoom n.toNat s →
    ∃ t, exec (.wuint value n) s = .next t ∧
      WritesBits ((List.range n.toNat).map (fun i => value.getLsbD i)) s t

/-- `WRICE value, k` writes `value >> k` ones, a zero, and the low `k` bits of `value`, least significant first, to the
selected sink, and changes nothing else (R121, R123, spec/30_encoding.md R82). -/
def Obligations.WriceWritesItsCode : Prop :=
  ∀ (value : BitVec 32) (k : BitVec 8) (s : State), Running s → SinkSound s → k.toNat ≤ 31 →
    SinkRoom (value.toNat / 2 ^ k.toNat + 1 + k.toNat) s →
    ∃ t, exec (.wrice value k) s = .next t ∧
      WritesBits (List.replicate (value.toNat / 2 ^ k.toNat) true ++ [false] ++
        (List.range k.toNat).map (fun i => value.getLsbD i)) s t

/-- A value too wide for its field raises `UINT_RANGE(value)`, whichever sink is selected (R120, R122, R126). -/
def Obligations.WuintOfATooWideValueRaisesUintRange : Prop :=
  ∀ (value : BitVec 32) (n : BitVec 8) (s : State), Running s → n.toNat ≤ 32 → 2 ^ n.toNat ≤ value.toNat →
    Raises (.wuint value n) s 1 (value.setWidth 64)

/-- A field or a code longer than the selected sink's counter has room for raises `COUNTER_OVERFLOW(0)` (R122, R123,
spec/40_bit_sink.md R101). -/
def Obligations.ScalarWritePastTheCounterRaises : Prop :=
  ∀ (value : BitVec 32) (n : BitVec 8) (s : State), Running s →
    (n.toNat ≤ 32 → value.toNat < 2 ^ n.toNat → ¬SinkRoom n.toNat s → Raises (.wuint value n) s 6 0) ∧
    (n.toNat ≤ 31 → ¬SinkRoom (value.toNat / 2 ^ n.toNat + 1 + n.toNat) s → Raises (.wrice value n) s 6 0)

/-- A fixed-width field reads back as its value, and no more bits are read (R127, spec/45_host_procedures.md R231). -/
def Obligations.UintFieldReadsBack : Prop :=
  ∀ (v n : Nat) (rest : List Bool), v < 2 ^ n →
    readUint n (uintBits v n ++ rest) = some (v, rest) ∧ (uintBits v n).length = n

/-- A Rice code reads back as its value, for every value and every exponent, no more bits are read, and it is exactly
`(v >> k) + 1 + k` bits long (R121, R127, spec/45_host_procedures.md R232). -/
def Obligations.RiceCodeReadsBack : Prop :=
  ∀ (v k : Nat) (rest : List Bool),
    readRice k (riceBits v k ++ rest) = some (v, rest) ∧ (riceBits v k).length = v / 2 ^ k + 1 + k

/-! ## The run-length coder (spec/42_run_length_coder.md) -/

/-- `RPUSH` appends its bit to the buffer and changes nothing else, unless the buffer is full: then it raises
`BUF_OVERFLOW(len(BUF) + 1)` (R140). -/
def Obligations.RpushAppendsOneBoolean : Prop :=
  ∀ (b : Bool) (s : State), Running s →
    (s.coder.buf.length ≠ s.params.bufcap →
      exec (.rpush b) s = .next { s with coder := { s.coder with buf := s.coder.buf ++ [b] } }) ∧
    (s.coder.buf.length = s.params.bufcap → Raises (.rpush b) s 4 (BitVec.ofNat 64 (s.params.bufcap + 1)))

/-- The runs of a sequence are its maximal blocks of equal values, in order: their values repeated give the sequence,
every length is at least 1, consecutive values differ; there are one more than the places where the value changes, so at
least 1 and at most the length (R143). -/
def Obligations.RunsAreTheMaximalBlocks : Prop :=
  ∀ seq : List Bool,
    (runsOf seq).flatMap (fun r => List.replicate r.len r.value) = seq ∧
    (∀ r ∈ runsOf seq, 1 ≤ r.len) ∧
    ((runsOf seq).map (fun r => r.len)).sum = seq.length ∧
    (runsOf seq).IsChain (fun r r' => r'.value = !r.value) ∧
    (seq ≠ [] → (runsOf seq).length = 1 + ((seq.zip seq.tail).filter (fun p => p.1 != p.2)).length ∧
      1 ≤ (runsOf seq).length ∧ (runsOf seq).length ≤ seq.length)

/-- The bits written under the four combinations of `VPOL` and `ELIDE`, for a nonempty sequence of runs `r₁ ... rₘ`: the
table of R147, `F` the length field of R145. -/
def Obligations.RunStreamOfEachFlagCombination : Prop :=
  ∀ (c : RleConfig) (seq : List Bool) (v : Bool) (r : Run) (rs : List Run), runsOf seq = r :: rs → v = r.value →
    (c.vpol = false → c.elide = false →
      c.runStream seq = (r :: rs).flatMap (fun x => x.value :: c.lengthBits x.len)) ∧
    (c.vpol = false → c.elide = true →
      c.runStream seq = (r :: rs).dropLast.flatMap (fun x => x.value :: c.lengthBits x.len) ++
        [((r :: rs).getLast (List.cons_ne_nil r rs)).value]) ∧
    (c.vpol = true → c.elide = false →
      c.runStream seq = v :: (r :: rs).flatMap (fun x => c.lengthBits x.len)) ∧
    (c.vpol = true → c.elide = true →
      c.runStream seq = v :: (r :: rs).dropLast.flatMap (fun x => c.lengthBits x.len))

/-- `RFLUSH` writes the run stream of the buffer to the selected sink, empties the buffer, records the number of runs,
and changes nothing else, when every length field it writes fits and the sink's counter has room (R141, R142). -/
def Obligations.RflushWritesTheRunStream : Prop :=
  ∀ s : State, Running s → SinkSound s → s.ctl.rleConfig.fits s.coder.buf = true →
    SinkRoom (s.ctl.rleConfig.runStream s.coder.buf).length s →
    ∃ t, exec .rflush s = .next t ∧ WritesBits (s.ctl.rleConfig.runStream s.coder.buf) s (t.withCoder s.coder) ∧
      t.coder = { buf := [], runcnt := BitVec.ofNat 32 (runsOf s.coder.buf).length }

/-- `RFLUSH` with an empty buffer writes no bit, sets `RUNCNT` to 0 and leaves the buffer empty, under every
configuration (R148). -/
def Obligations.RflushOfAnEmptyBufferWritesNothing : Prop :=
  ∀ s : State, Running s → s.coder.buf = [] → exec .rflush s = .next { s with coder := { buf := [], runcnt := 0 } }

/-- A one-value sequence is one run: with `ELIDE` = 1 its run stream is the one value bit, under either `VPOL`; with
`ELIDE` = 0 it is the value bit and the length field (R149). -/
def Obligations.OneValueSequenceIsOneRun : Prop :=
  ∀ (c : RleConfig) (n : Nat) (v : Bool), 1 ≤ n →
    runsOf (List.replicate n v) = [⟨v, n⟩] ∧
    (c.elide = true → c.runStream (List.replicate n v) = [v]) ∧
    (c.elide = false → c.runStream (List.replicate n v) = v :: c.lengthBits n)

/-- With a fixed width, `RFLUSH` raises `UINT_RANGE(len - 1)` for the first run, in sequence order, whose length field
is written and does not fit (R141, R150); an elided last run is never the one. -/
def Obligations.RflushRaisesUintRangeForTheFirstRunTooLong : Prop :=
  ∀ (s : State) (fit : List Run) (r : Run) (rest : List Run), Running s → s.ctl.lmode = false →
    s.ctl.rleConfig.codedRuns (runsOf s.coder.buf) = fit ++ r :: rest →
    (∀ x ∈ fit, x.len - 1 < 2 ^ s.ctl.lparam.toNat) → 2 ^ s.ctl.lparam.toNat ≤ r.len - 1 →
    SinkRoom (s.ctl.rleConfig.cost s.coder.buf) s →
    Raises .rflush s 1 (BitVec.ofNat 64 (r.len - 1))

/-- An `RFLUSH` whose length fields fit, but whose run stream is longer than the selected sink's counter has room for,
raises `COUNTER_OVERFLOW(0)` (R141, spec/40_bit_sink.md R101). -/
def Obligations.RflushPastTheCounterRaises : Prop :=
  ∀ s : State, Running s → s.ctl.rleConfig.fits s.coder.buf = true →
    ¬SinkRoom (s.ctl.rleConfig.cost s.coder.buf) s → Raises .rflush s 6 0

/-- The bits one `RFLUSH` writes are counted on the selected sink, and are as many as the cost of R152, which does not
depend on the sink. -/
def Obligations.RflushCountsTheCost : Prop :=
  ∀ s t : State, Running s → SinkSound s → exec .rflush s = .next t → Running t →
    (s.ctl.sinkSel = false →
      t.cntBits.toNat = s.cntBits.toNat + s.ctl.rleConfig.cost s.coder.buf ∧ t.emit = s.emit) ∧
    (s.ctl.sinkSel = true →
      t.emit.bits.toNat = s.emit.bits.toNat + s.ctl.rleConfig.cost s.coder.buf ∧ t.cntBits = s.cntBits)

/-- The round trip of spec/45_host_procedures.md R234: whenever an `RFLUSH` on the emitting sink does not fault, the bits
it writes, read by the reference decoder with the length of the buffer and `RUNCNT`, give back the buffer, and the
decoder stops exactly where they end. -/
def Obligations.RflushedBitsDecodeToTheBuffer : Prop :=
  ∀ s t : State, Running s → SinkSound s → s.ctl.sinkSel = true → s.coder.buf.length < 2 ^ 32 →
    exec .rflush s = .next t → Running t →
    ∃ bits, emitStream t = emitStream s ++ bits ∧
      ∀ rest, decodeRuns s.ctl.rleConfig s.coder.buf.length t.coder.runcnt.toNat (bits ++ rest) =
        some (s.coder.buf, rest)

/-! ## The frame pipelines (spec/43_frame_pipeline.md) -/

/-- `FBEGIN slot` invalidates the slot and opens a load into it, and changes nothing else: no recorded dimension, no
cell, no other slot (R161). -/
def Obligations.FbeginOpensALoad : Prop :=
  ∀ (n : SlotNo) (s : State), Running s → n.toNat < s.params.nslot → s.load.isOpen = false → s.ctl.width ≠ 0 →
    s.ctl.height ≠ 0 → s.ctl.width.toNat * s.ctl.height.toNat ≤ s.params.maxpix →
    ∃ t, exec (.fbegin n) s = .next t ∧
      t = { s with store := { s.store with slots := t.store.slots }, load := { isOpen := true, slot := n, fill := 0 } } ∧
      t.slot n = { s.slot n with valid := false } ∧ ∀ m, m ≠ n → t.slot m = s.slot m

/-- `FPIX bit` writes the bit to the cell the load engine points at, advances it, and changes nothing else: every other
cell reads as before (R162, spec/20_memory.md R52). -/
def Obligations.FpixStoresTheNextPixel : Prop :=
  ∀ (b : Bool) (s : State), Running s → s.load.isOpen = true → s.load.slot.toNat < s.params.nslot →
    s.load.fill.toNat < s.ctl.width.toNat * s.ctl.height.toNat →
    s.ctl.width.toNat * s.ctl.height.toNat ≤ s.params.maxpix →
    ∃ t, exec (.fpix b) s = .next t ∧
      t = { s with store := { s.store with pix := t.store.pix }, load := { s.load with fill := t.load.fill } } ∧
      t.load.fill.toNat = s.load.fill.toNat + 1 ∧
      pixRead t s.load.slot s.load.fill.toNat = b ∧ pixWritten t s.load.slot s.load.fill.toNat = true ∧
      ∀ (n : SlotNo) (a : Nat), ¬(n = s.load.slot ∧ a = s.load.fill.toNat) →
        pixRead t n a = pixRead s n a ∧ pixWritten t n a = pixWritten s n a

/-- `FEND` with as many pixels as the frame has records the dimensions, makes the slot valid and closes the load, and
changes nothing else (R163). -/
def Obligations.FendMakesTheSlotValid : Prop :=
  ∀ s : State, Running s → s.load.isOpen = true → s.load.fill.toNat = s.ctl.width.toNat * s.ctl.height.toNat →
    ∃ t, exec .fend s = .next t ∧
      t = { s with store := { s.store with slots := t.store.slots }, load := { s.load with isOpen := false } } ∧
      t.slot s.load.slot = { valid := true, w := s.ctl.width, h := s.ctl.height } ∧
      ∀ m, m ≠ s.load.slot → t.slot m = s.slot m

/-- The faults of the three load commands, in the order of R263: a command out of sequence raises `PROTOCOL(0)`; an
`FBEGIN` without legal dimensions raises `CFG_INVALID(WIDTH × HEIGHT)`; a pixel too many raises
`DIM_MISMATCH(LOAD_FILL + 1)`, too few `DIM_MISMATCH(LOAD_FILL)` (R161, R162, R163). -/
def Obligations.LoadCommandFaults : Prop :=
  ∀ (n : SlotNo) (b : Bool) (s : State), Running s →
    (n.toNat < s.params.nslot → s.load.isOpen = true → Raises (.fbegin n) s 7 0) ∧
    (n.toNat < s.params.nslot → s.load.isOpen = false →
      (s.ctl.width = 0 ∨ s.ctl.height = 0 ∨ s.params.maxpix < s.ctl.width.toNat * s.ctl.height.toNat) →
      Raises (.fbegin n) s 8 (BitVec.ofNat 64 (s.ctl.width.toNat * s.ctl.height.toNat))) ∧
    (s.load.isOpen = false → Raises (.fpix b) s 7 0) ∧
    (s.load.isOpen = true → s.load.fill.toNat = s.ctl.width.toNat * s.ctl.height.toNat →
      Raises (.fpix b) s 2 (BitVec.ofNat 64 (s.load.fill.toNat + 1))) ∧
    (s.load.isOpen = false → Raises .fend s 7 0) ∧
    (s.load.isOpen = true → s.load.fill.toNat ≠ s.ctl.width.toNat * s.ctl.height.toNat →
      Raises .fend s 2 (BitVec.ofNat 64 s.load.fill.toNat))

/-- `SCANRAW` appends the pixels of a valid slot of the current dimensions to the buffer, in address order (row-major) or
column by column, and changes nothing else (R164, R165, R166). -/
def Obligations.ScanrawAppendsThePixels : Prop :=
  ∀ (cur : SlotNo) (s : State), Running s → cur.toNat < s.params.nslot → s.ctl.width ≠ 0 → s.ctl.height ≠ 0 →
    s.ctl.width.toNat * s.ctl.height.toNat ≤ s.params.maxpix →
    s.slot cur = { valid := true, w := s.ctl.width, h := s.ctl.height } →
    s.coder.buf.length + s.ctl.width.toNat * s.ctl.height.toNat ≤ s.params.bufcap →
    exec (.scanraw cur .rowMajor) s = .next { s with coder := { s.coder with
      buf := s.coder.buf ++ (List.range (s.ctl.width.toNat * s.ctl.height.toNat)).map (fun a => pixRead s cur a) } } ∧
    exec (.scanraw cur .colMajor) s = .next { s with coder := { s.coder with
      buf := s.coder.buf ++ (List.range s.ctl.width.toNat).flatMap (fun x =>
        (List.range s.ctl.height.toNat).map (fun y => pixRead s cur (y * s.ctl.width.toNat + x))) } }

/-- `SCANXOR` appends the pixel-wise XOR of two valid slots of the current dimensions to the buffer, in address order or
column by column, and changes nothing else (R164, R165, R167, R168: the two pixels have the same address). -/
def Obligations.ScanxorAppendsTheDifference : Prop :=
  ∀ (cur ref : SlotNo) (s : State), Running s → cur.toNat < s.params.nslot → ref.toNat < s.params.nslot →
    s.ctl.width ≠ 0 → s.ctl.height ≠ 0 → s.ctl.width.toNat * s.ctl.height.toNat ≤ s.params.maxpix →
    s.slot cur = { valid := true, w := s.ctl.width, h := s.ctl.height } →
    s.slot ref = { valid := true, w := s.ctl.width, h := s.ctl.height } →
    s.coder.buf.length + s.ctl.width.toNat * s.ctl.height.toNat ≤ s.params.bufcap →
    exec (.scanxor cur ref .rowMajor) s = .next { s with coder := { s.coder with
      buf := s.coder.buf ++ (List.range (s.ctl.width.toNat * s.ctl.height.toNat)).map
        (fun a => pixRead s cur a != pixRead s ref a) } } ∧
    exec (.scanxor cur ref .colMajor) s = .next { s with coder := { s.coder with
      buf := s.coder.buf ++ (List.range s.ctl.width.toNat).flatMap (fun x =>
        (List.range s.ctl.height.toNat).map (fun y =>
          pixRead s cur (y * s.ctl.width.toNat + x) != pixRead s ref (y * s.ctl.width.toNat + x))) } }

/-- The tests of a scan, in the order of R165, each with its cause and auxiliary value. -/
def Obligations.ScanTestsInOrder : Prop :=
  ∀ (cur ref : SlotNo) (tr : Traversal) (s : State), Running s → cur.toNat < s.params.nslot →
    ref.toNat < s.params.nslot →
    let n := s.ctl.width.toNat * s.ctl.height.toNat
    let dims := s.ctl.width ≠ 0 ∧ s.ctl.height ≠ 0 ∧ n ≤ s.params.maxpix
    let fits := fun m : SlotNo => (s.slot m).w = s.ctl.width ∧ (s.slot m).h = s.ctl.height
    (¬dims → Raises (.scanraw cur tr) s 8 (BitVec.ofNat 64 n) ∧ Raises (.scanxor cur ref tr) s 8 (BitVec.ofNat 64 n)) ∧
    (dims → (s.slot cur).valid = false →
      Raises (.scanraw cur tr) s 5 (cur.setWidth 64) ∧ Raises (.scanxor cur ref tr) s 5 (cur.setWidth 64)) ∧
    (dims → (s.slot cur).valid = true → ¬fits cur →
      Raises (.scanraw cur tr) s 2 (cur.setWidth 64) ∧ Raises (.scanxor cur ref tr) s 2 (cur.setWidth 64)) ∧
    (dims → (s.slot cur).valid = true → fits cur → s.params.bufcap < s.coder.buf.length + n →
      Raises (.scanraw cur tr) s 4 (BitVec.ofNat 64 (s.coder.buf.length + n))) ∧
    (dims → (s.slot cur).valid = true → fits cur → (s.slot ref).valid = false →
      Raises (.scanxor cur ref tr) s 5 (ref.setWidth 64)) ∧
    (dims → (s.slot cur).valid = true → fits cur → (s.slot ref).valid = true → ¬fits ref →
      Raises (.scanxor cur ref tr) s 2 (ref.setWidth 64)) ∧
    (dims → (s.slot cur).valid = true → fits cur → (s.slot ref).valid = true → fits ref →
      s.params.bufcap < s.coder.buf.length + n →
      Raises (.scanxor cur ref tr) s 4 (BitVec.ofNat 64 (s.coder.buf.length + n)))

/-- Each traversal visits every pixel address once (R164): the addresses of the `N` steps are those below `N`, none
twice; the positions are those R164 writes, and the address of a position is `y × WIDTH + x`; the row-major addresses are
in order, and the column-major step for position `(x, y)` is step `x × HEIGHT + y`. -/
def Obligations.TraversalVisitsEveryPixelOnce : Prop :=
  ∀ (t : Traversal) (w h : Nat), 1 ≤ w → 1 ≤ h →
    (∀ i, i < w * h → traversalAddr t w h i < w * h) ∧
    (∀ i j, i < w * h → j < w * h → traversalAddr t w h i = traversalAddr t w h j → i = j) ∧
    (∀ a, a < w * h → ∃ i, i < w * h ∧ traversalAddr t w h i = a) ∧
    (∀ i, traversalPos .rowMajor w h i = (i % w, i / w) ∧ traversalPos .colMajor w h i = (i / h, i % h)) ∧
    (∀ i, traversalAddr t w h i = (traversalPos t w h i).2 * w + (traversalPos t w h i).1) ∧
    (∀ i, i < w * h → traversalAddr .rowMajor w h i = i) ∧
    (∀ x y, x < w → y < h → traversalAddr .colMajor w h (x * h + y) = y * w + x)

/-- `SCANXOR` is symmetric in its slots, and a slot XORed with itself appends zeros (R167, corner cases). -/
def Obligations.ScanxorIsSymmetric : Prop :=
  ∀ (a b : SlotNo) (tr : Traversal) (s t u v : State), Running s → exec (.scanxor a b tr) s = .next t → Running t →
    exec (.scanxor b a tr) s = .next u → exec (.scanxor a a tr) s = .next v → Running v →
    t = u ∧ v.coder.buf = s.coder.buf ++ List.replicate (s.ctl.width.toNat * s.ctl.height.toNat) false

/-- At every step of either traversal the two pixels combined have the same address; so the column-major difference
sequence is the row-major one permuted by the column-major addresses, and both contain the same number of ones
(R168). -/
def Obligations.ColumnMajorDifferenceIsAPermutation : Prop :=
  ∀ (s : State) (cur ref : SlotNo), s.ctl.width ≠ 0 → s.ctl.height ≠ 0 →
    (∀ i, i < frameSize s.ctl → (scanSeq s cur (some ref) .colMajor)[i]? =
      (scanSeq s cur (some ref) .rowMajor)[traversalAddr .colMajor s.ctl.width.toNat s.ctl.height.toNat i]?) ∧
    (scanSeq s cur (some ref) .colMajor).Perm (scanSeq s cur (some ref) .rowMajor) ∧
    (scanSeq s cur (some ref) .colMajor).count true = (scanSeq s cur (some ref) .rowMajor).count true ∧
    (∀ (tr : Traversal) (i : Nat), i < frameSize s.ctl → (scanSeq s cur (some ref) tr)[i]? =
      some (pixRead s cur (traversalAddr tr s.ctl.width.toNat s.ctl.height.toNat i) !=
        pixRead s ref (traversalAddr tr s.ctl.width.toNat s.ctl.height.toNat i)))

/-- A frame loaded into a slot (`LOADFRAME` of spec/30_encoding.md R79) and scanned row-major is appended to the buffer
exactly as it was loaded (R160, R166). -/
def Obligations.LoadedFrameScansBack : Prop :=
  ∀ (n : SlotNo) (pixels : List Bool) (s : State), Running s → n.toNat < s.params.nslot →
    s.load.isOpen = false → s.ctl.width ≠ 0 → s.ctl.height ≠ 0 →
    pixels.length = s.ctl.width.toNat * s.ctl.height.toNat → pixels.length ≤ s.params.maxpix →
    s.coder.buf.length + pixels.length ≤ s.params.bufcap →
    ∃ t, issueAll (loadframe n pixels ++ [.scanraw n .rowMajor]) s = some t ∧ Running t ∧
      t.coder = { s.coder with buf := s.coder.buf ++ pixels } ∧ t.emit = s.emit ∧ t.cntBits = s.cntBits ∧
      t.slot n = { valid := true, w := s.ctl.width, h := s.ctl.height } ∧ ∀ m, m ≠ n → t.slot m = s.slot m

/-! ## Control (spec/44_control.md) -/

/-- `NOP` changes no state, in the fault state or out of it (R190). -/
def Obligations.NopChangesNothing : Prop := ∀ s : State, exec .nop s = .next s

/-- `WCSR` with a legal value writes the named fields of the control group and nothing else (R191, spec/10_state.md R26 to
R30); a write to `SINKSEL` keeps the state of both sinks (spec/40_bit_sink.md R106). -/
def Obligations.WcsrWritesTheRegister : Prop :=
  ∀ (v : BitVec 32) (s : State), Running s →
    (v.toNat ≤ 1 → exec (.wcsr 0x00#8 v) s = .next { s with ctl := { s.ctl with sinkSel := decide (v.toNat = 1) } }) ∧
    ((Instr.wcsr 0x01#8 v).wellFormed s.params = true →
      exec (.wcsr 0x01#8 v) s = .next { s with ctl := { s.ctl with
        vpol := decide (v.toNat % 2 = 1), elide := decide (v.toNat / 2 % 2 = 1), lmode := decide (v.toNat / 4 % 2 = 1),
        lparam := BitVec.ofNat 6 (v.toNat / 256) } }) ∧
    (v.toNat < 65536 → s.load.isOpen = false →
      exec (.wcsr 0x02#8 v) s = .next { s with ctl := { s.ctl with width := BitVec.ofNat 16 v.toNat } }) ∧
    (v.toNat < 65536 → s.load.isOpen = false →
      exec (.wcsr 0x03#8 v) s = .next { s with ctl := { s.ctl with height := BitVec.ofNat 16 v.toNat } })

/-- A legal value written to `WIDTH` or `HEIGHT` while a load is open raises `PROTOCOL(0)` (R191). -/
def Obligations.DimensionsAreLockedDuringALoad : Prop :=
  ∀ (v : BitVec 32) (s : State), Running s → v.toNat < 65536 → s.load.isOpen = true →
    Raises (.wcsr 0x02#8 v) s 7 0 ∧ Raises (.wcsr 0x03#8 v) s 7 0

/-- `RCSR` appends the register's value, zero-extended, to `RESP` and changes nothing else: the nineteen registers, each
at its address (R192, spec/10_state.md R25 to R38). -/
def Obligations.RcsrAppendsTheRegister : Prop :=
  ∀ s : State, Running s →
    let gives := fun (addr : BitVec 8) (v : Nat) =>
      exec (.rcsr addr) s = .next { s with resp := s.resp ++ [BitVec.ofNat 64 v] }
    gives 0x00#8 s.ctl.sinkSel.toNat ∧
    gives 0x01#8 (s.ctl.vpol.toNat + 2 * s.ctl.elide.toNat + 4 * s.ctl.lmode.toNat + 256 * s.ctl.lparam.toNat) ∧
    gives 0x02#8 s.ctl.width.toNat ∧
    gives 0x03#8 s.ctl.height.toNat ∧
    gives 0x10#8 (2 * s.load.isOpen.toNat + 4 * (if s.coder.buf.length > 0 then 1 else 0) +
      8 * (if s.emit.pos > 0 then 1 else 0)) ∧
    gives 0x11#8 s.flt.cause.toNat ∧
    gives 0x12#8 s.flt.fcmd.toNat ∧
    gives 0x13#8 s.flt.fval.toNat ∧
    gives 0x20#8 s.cntBits.toNat ∧
    gives 0x21#8 s.emit.bits.toNat ∧
    gives 0x22#8 s.emit.words.toNat ∧
    gives 0x23#8 s.emit.pos ∧
    gives 0x24#8 s.emit.cur.toNat ∧
    gives 0x28#8 s.coder.runcnt.toNat ∧
    gives 0x29#8 s.coder.buf.length ∧
    gives 0x30#8 s.params.w ∧
    gives 0x31#8 s.params.nslot ∧
    gives 0x32#8 s.params.maxpix ∧
    gives 0x33#8 s.params.bufcap

/-- What a legal `WCSR` writes to `RLECFG`, an `RCSR` reads back, bit for bit (spec/10_state.md R27). -/
def Obligations.RlecfgReadsBackAsWritten : Prop :=
  ∀ (v : BitVec 32) (s t u : State), Running s → (Instr.wcsr 0x01#8 v).wellFormed s.params = true →
    exec (.wcsr 0x01#8 v) s = .next t → exec (.rcsr 0x01#8) t = .next u → u.resp = s.resp ++ [v.setWidth 64]

/-- `RESET`, from any state, the fault state too, gives every element the reset value of spec/10_state.md R45; the
parameters and the host's stream are as before, and no cell's content is known (R193, spec/70_reset_and_hazards.md
R301). -/
def Obligations.ResetGivesTheResetValues : Prop :=
  ∀ s : State, ∃ t, exec .reset s = .next t ∧
    t.ctl = { sinkSel := false, vpol := false, elide := false, lmode := false, lparam := 0, width := 0, height := 0 } ∧
    t.cntBits = 0 ∧ t.emit = { cur := 0, pos := 0, bits := 0, words := 0, out := [] } ∧
    t.coder = { buf := [], runcnt := 0 } ∧ (∀ n, t.slot n = { valid := false, w := 0, h := 0 }) ∧
    (∀ n a, pixWritten t n a = false) ∧ t.load = { isOpen := false, slot := 0, fill := 0 } ∧
    t.flt = { fault := false, cause := 0, fcmd := 0, fval := 0 } ∧ t.resp = [] ∧ t.params = s.params ∧ t.cmds = s.cmds

/-! ## The fault state (spec/60_exceptions.md) -/

/-- A step that enters the fault state records the very word that was issued and one of the eight causes, and gives no
response (R261, R266). -/
def Obligations.FaultRecordsTheWordIssued : Prop :=
  ∀ (s t : State) (w : Cmd) (rest : List Cmd), s.cmds = w :: rest → Running s → step s = .next t →
    t.flt.fault = true →
    t.flt.fcmd = w ∧ 1 ≤ t.flt.cause.toNat ∧ t.flt.cause.toNat ≤ 8 ∧ t.resp = s.resp ∧ t.cmds = rest

/-- In the fault state every word but a well-formed `RESET` and a well-formed `RCSR` of a defined address is discarded,
legal or not (R267, last row). That the unspecified elements keep their values as well is THE MODEL'S READING of "no
effect at all" (notes/assumptions/4.md). -/
def Obligations.FaultStateDiscardsEveryOtherWord : Prop :=
  ∀ (s : State) (w : Cmd) (rest : List Cmd), s.cmds = w :: rest → s.flt.fault = true → w ≠ 0x000000000000001F#64 →
    (∀ addr ∈ definedCsrAddrs, w ≠ encode (.rcsr addr)) → step s = .next { s with cmds := rest }

/-- In the fault state an `RCSR` of a defined address appends exactly one value and changes no register: the recorded
value for `CAUSE`, `FCMD`, `FVAL`, the parameter for `PARAM_*`, bit 0 set and bits 63 to 4 clear for `STATUS` (R267).
That the unspecified elements keep their values as well is THE MODEL'S READING (notes/assumptions/4.md). -/
def Obligations.FaultStateReadsOneValue : Prop :=
  ∀ s : State, s.flt.fault = true →
    (exec (.rcsr 0x11#8) s = .next { s with resp := s.resp ++ [s.flt.cause.setWidth 64] }) ∧
    (exec (.rcsr 0x12#8) s = .next { s with resp := s.resp ++ [s.flt.fcmd] }) ∧
    (exec (.rcsr 0x13#8) s = .next { s with resp := s.resp ++ [s.flt.fval] }) ∧
    (exec (.rcsr 0x30#8) s = .next { s with resp := s.resp ++ [BitVec.ofNat 64 s.params.w] }) ∧
    (exec (.rcsr 0x31#8) s = .next { s with resp := s.resp ++ [BitVec.ofNat 64 s.params.nslot] }) ∧
    (exec (.rcsr 0x32#8) s = .next { s with resp := s.resp ++ [BitVec.ofNat 64 s.params.maxpix] }) ∧
    (exec (.rcsr 0x33#8) s = .next { s with resp := s.resp ++ [BitVec.ofNat 64 s.params.bufcap] }) ∧
    (∀ addr ∈ definedCsrAddrs, ∃ t v, exec (.rcsr addr) s = .next t ∧ t.resp = s.resp ++ [v] ∧
      t = { s with resp := t.resp, draws := t.draws } ∧
      (addr = 0x10#8 → v.getLsbD 0 = true ∧ ∀ i, 4 ≤ i → v.getLsbD i = false))

/-- A step of the command executor leaves the fault state only by the `RESET` command; until then the record does not
change (R267). R270 names a second exit, the power-on reset: that no reset input acts between two commands, so that a
step never is one, is THE MODEL'S CHOICE (notes/assumptions/15.md, unsafe). -/
def Obligations.OnlyResetLeavesTheFaultState : Prop :=
  ∀ s t : State, s.flt.fault = true → step s = .next t →
    t.flt = s.flt ∨ (∃ rest, s.cmds = 0x000000000000001F#64 :: rest ∧
      t.flt = { fault := false, cause := 0, fcmd := 0, fval := 0 })

/-! ## The whole machine -/

/-- The state after reset meets the invariant, whatever the legal parameters of the instance. -/
def Obligations.ResetStateMeetsTheInvariant : Prop :=
  Inv State.reset ∧ ∀ p : Params, p.Legal → Inv (State.resetWith p)

/-- Every step keeps the invariant (spec/10_state.md R44): from every state that meets it, whatever the command word. -/
def Obligations.StepKeepsTheInvariant : Prop := ∀ s t : State, Inv s → step s = .next t → Inv t

/-- Outside a fault and a `RESET`, no counter decreases, no word of `OUT` and no response changes or is removed
(spec/10_state.md R44 item 5, R39, R43). -/
def Obligations.CountersAndStreamsOnlyGrow : Prop :=
  ∀ s t : State, Inv s → Running s → step s = .next t → Running t → s.cmds.head? ≠ some 0x000000000000001F#64 →
    s.cntBits.toNat ≤ t.cntBits.toNat ∧ s.emit.bits.toNat ≤ t.emit.bits.toNat ∧
    s.emit.words.toNat ≤ t.emit.words.toNat ∧ s.emit.out <+: t.emit.out ∧ s.resp <+: t.resp

/-- While no `FLUSH` pads a partial word of the emitting sink, `EMIT_BITS = W × EMIT_WORDS + POS` (spec/10_state.md R44
item 4). -/
def Obligations.UnpaddedStreamStaysUnpadded : Prop :=
  ∀ s t : State, Inv s → Running s → step s = .next t → Running t → Unpadded s →
    ¬(s.cmds.head? = some (encode .flush) ∧ s.ctl.sinkSel = true ∧ 0 < s.emit.pos) → Unpadded t

/-- No step changes the parameters of the instance (spec/10_state.md R38). That they are carried in
the state is THE MODEL'S CHOICE (notes/assumptions/1.md). -/
def Obligations.ParametersNeverChange : Prop := ∀ s t : State, step s = .next t → t.params = s.params

/-! ## Host procedures (spec/45_host_procedures.md) -/

/-- After pushing M frames into a window of capacity C, it holds exactly the `min(M, C)` most recently pushed, oldest
first (R220, R221). -/
def Obligations.HistoryHoldsTheMostRecentFrames : Prop :=
  ∀ (capacity : Nat) (frames : List SlotNo),
    frames.foldl (pushWindow capacity) [] = frames.drop (frames.length - capacity) ∧
    (frames.foldl (pushWindow capacity) []).length = min frames.length capacity

/-- The winner is a candidate of least cost, and among those the one of smallest number (R215, R219). -/
def Obligations.SelectionTakesTheFirstOfLeastCost : Prop :=
  ∀ (m : Measured) (ms : List Measured), (m :: ms).Pairwise (fun a b => a.index < b.index) →
    selectBest m ms ∈ m :: ms ∧
    ∀ c ∈ m :: ms, (selectBest m ms).cost ≤ c.cost ∧
      (c.cost = (selectBest m ms).cost → (selectBest m ms).index ≤ c.index)
end

