-- ==== Sys2Proof/Laws/State.lean ====
section
/-!
SUPPORT. One lemma per field per update of the state, so that no proof unfolds a record update.
-/

namespace Sys2Proof.Machine

@[simp] theorem State.withCtl_ctl (c : Control) (s : State) : (s.withCtl c).ctl = c := rfl
@[simp] theorem State.withCtl_cntBits (c : Control) (s : State) : (s.withCtl c).cntBits = s.cntBits := rfl
@[simp] theorem State.withCtl_emit (c : Control) (s : State) : (s.withCtl c).emit = s.emit := rfl
@[simp] theorem State.withCtl_coder (c : Control) (s : State) : (s.withCtl c).coder = s.coder := rfl
@[simp] theorem State.withCtl_store (c : Control) (s : State) : (s.withCtl c).store = s.store := rfl
@[simp] theorem State.withCtl_load (c : Control) (s : State) : (s.withCtl c).load = s.load := rfl
@[simp] theorem State.withCtl_flt (c : Control) (s : State) : (s.withCtl c).flt = s.flt := rfl
@[simp] theorem State.withCtl_resp (c : Control) (s : State) : (s.withCtl c).resp = s.resp := rfl
@[simp] theorem State.withCtl_params (c : Control) (s : State) : (s.withCtl c).params = s.params := rfl
@[simp] theorem State.withCtl_cmds (c : Control) (s : State) : (s.withCtl c).cmds = s.cmds := rfl
@[simp] theorem State.withCtl_draws (c : Control) (s : State) : (s.withCtl c).draws = s.draws := rfl
@[simp] theorem State.withCtl_withCtl (c c1 : Control) (s : State) : (s.withCtl c1).withCtl c = s.withCtl c := rfl
@[simp] theorem State.withCtl_self (s : State) : s.withCtl s.ctl = s := rfl
@[simp] theorem State.withCtl_slot (c : Control) (s : State) (m : SlotNo) : (s.withCtl c).slot m = s.slot m := rfl

@[simp] theorem State.withCnt_ctl (n : BitVec 64) (s : State) : (s.withCnt n).ctl = s.ctl := rfl
@[simp] theorem State.withCnt_cntBits (n : BitVec 64) (s : State) : (s.withCnt n).cntBits = n := rfl
@[simp] theorem State.withCnt_emit (n : BitVec 64) (s : State) : (s.withCnt n).emit = s.emit := rfl
@[simp] theorem State.withCnt_coder (n : BitVec 64) (s : State) : (s.withCnt n).coder = s.coder := rfl
@[simp] theorem State.withCnt_store (n : BitVec 64) (s : State) : (s.withCnt n).store = s.store := rfl
@[simp] theorem State.withCnt_load (n : BitVec 64) (s : State) : (s.withCnt n).load = s.load := rfl
@[simp] theorem State.withCnt_flt (n : BitVec 64) (s : State) : (s.withCnt n).flt = s.flt := rfl
@[simp] theorem State.withCnt_resp (n : BitVec 64) (s : State) : (s.withCnt n).resp = s.resp := rfl
@[simp] theorem State.withCnt_params (n : BitVec 64) (s : State) : (s.withCnt n).params = s.params := rfl
@[simp] theorem State.withCnt_cmds (n : BitVec 64) (s : State) : (s.withCnt n).cmds = s.cmds := rfl
@[simp] theorem State.withCnt_draws (n : BitVec 64) (s : State) : (s.withCnt n).draws = s.draws := rfl
@[simp] theorem State.withCnt_withCnt (n n1 : BitVec 64) (s : State) : (s.withCnt n1).withCnt n = s.withCnt n := rfl
@[simp] theorem State.withCnt_self (s : State) : s.withCnt s.cntBits = s := rfl
@[simp] theorem State.withCnt_slot (n : BitVec 64) (s : State) (m : SlotNo) : (s.withCnt n).slot m = s.slot m := rfl

@[simp] theorem State.withEmit_ctl (e : Emitter) (s : State) : (s.withEmit e).ctl = s.ctl := rfl
@[simp] theorem State.withEmit_cntBits (e : Emitter) (s : State) : (s.withEmit e).cntBits = s.cntBits := rfl
@[simp] theorem State.withEmit_emit (e : Emitter) (s : State) : (s.withEmit e).emit = e := rfl
@[simp] theorem State.withEmit_coder (e : Emitter) (s : State) : (s.withEmit e).coder = s.coder := rfl
@[simp] theorem State.withEmit_store (e : Emitter) (s : State) : (s.withEmit e).store = s.store := rfl
@[simp] theorem State.withEmit_load (e : Emitter) (s : State) : (s.withEmit e).load = s.load := rfl
@[simp] theorem State.withEmit_flt (e : Emitter) (s : State) : (s.withEmit e).flt = s.flt := rfl
@[simp] theorem State.withEmit_resp (e : Emitter) (s : State) : (s.withEmit e).resp = s.resp := rfl
@[simp] theorem State.withEmit_params (e : Emitter) (s : State) : (s.withEmit e).params = s.params := rfl
@[simp] theorem State.withEmit_cmds (e : Emitter) (s : State) : (s.withEmit e).cmds = s.cmds := rfl
@[simp] theorem State.withEmit_draws (e : Emitter) (s : State) : (s.withEmit e).draws = s.draws := rfl
@[simp] theorem State.withEmit_withEmit (e e1 : Emitter) (s : State) : (s.withEmit e1).withEmit e = s.withEmit e := rfl
@[simp] theorem State.withEmit_self (s : State) : s.withEmit s.emit = s := rfl
@[simp] theorem State.withEmit_slot (e : Emitter) (s : State) (m : SlotNo) : (s.withEmit e).slot m = s.slot m := rfl

@[simp] theorem State.withCoder_ctl (c : Coder) (s : State) : (s.withCoder c).ctl = s.ctl := rfl
@[simp] theorem State.withCoder_cntBits (c : Coder) (s : State) : (s.withCoder c).cntBits = s.cntBits := rfl
@[simp] theorem State.withCoder_emit (c : Coder) (s : State) : (s.withCoder c).emit = s.emit := rfl
@[simp] theorem State.withCoder_coder (c : Coder) (s : State) : (s.withCoder c).coder = c := rfl
@[simp] theorem State.withCoder_store (c : Coder) (s : State) : (s.withCoder c).store = s.store := rfl
@[simp] theorem State.withCoder_load (c : Coder) (s : State) : (s.withCoder c).load = s.load := rfl
@[simp] theorem State.withCoder_flt (c : Coder) (s : State) : (s.withCoder c).flt = s.flt := rfl
@[simp] theorem State.withCoder_resp (c : Coder) (s : State) : (s.withCoder c).resp = s.resp := rfl
@[simp] theorem State.withCoder_params (c : Coder) (s : State) : (s.withCoder c).params = s.params := rfl
@[simp] theorem State.withCoder_cmds (c : Coder) (s : State) : (s.withCoder c).cmds = s.cmds := rfl
@[simp] theorem State.withCoder_draws (c : Coder) (s : State) : (s.withCoder c).draws = s.draws := rfl
@[simp] theorem State.withCoder_withCoder (c c1 : Coder) (s : State) : (s.withCoder c1).withCoder c = s.withCoder c := rfl
@[simp] theorem State.withCoder_self (s : State) : s.withCoder s.coder = s := rfl
@[simp] theorem State.withCoder_slot (c : Coder) (s : State) (m : SlotNo) : (s.withCoder c).slot m = s.slot m := rfl

@[simp] theorem State.withStore_ctl (f : FrameStore) (s : State) : (s.withStore f).ctl = s.ctl := rfl
@[simp] theorem State.withStore_cntBits (f : FrameStore) (s : State) : (s.withStore f).cntBits = s.cntBits := rfl
@[simp] theorem State.withStore_emit (f : FrameStore) (s : State) : (s.withStore f).emit = s.emit := rfl
@[simp] theorem State.withStore_coder (f : FrameStore) (s : State) : (s.withStore f).coder = s.coder := rfl
@[simp] theorem State.withStore_store (f : FrameStore) (s : State) : (s.withStore f).store = f := rfl
@[simp] theorem State.withStore_load (f : FrameStore) (s : State) : (s.withStore f).load = s.load := rfl
@[simp] theorem State.withStore_flt (f : FrameStore) (s : State) : (s.withStore f).flt = s.flt := rfl
@[simp] theorem State.withStore_resp (f : FrameStore) (s : State) : (s.withStore f).resp = s.resp := rfl
@[simp] theorem State.withStore_params (f : FrameStore) (s : State) : (s.withStore f).params = s.params := rfl
@[simp] theorem State.withStore_cmds (f : FrameStore) (s : State) : (s.withStore f).cmds = s.cmds := rfl
@[simp] theorem State.withStore_draws (f : FrameStore) (s : State) : (s.withStore f).draws = s.draws := rfl
@[simp] theorem State.withStore_withStore (f f1 : FrameStore) (s : State) : (s.withStore f1).withStore f = s.withStore f := rfl
@[simp] theorem State.withStore_self (s : State) : s.withStore s.store = s := rfl

@[simp] theorem State.withLoad_ctl (l : LoadEngine) (s : State) : (s.withLoad l).ctl = s.ctl := rfl
@[simp] theorem State.withLoad_cntBits (l : LoadEngine) (s : State) : (s.withLoad l).cntBits = s.cntBits := rfl
@[simp] theorem State.withLoad_emit (l : LoadEngine) (s : State) : (s.withLoad l).emit = s.emit := rfl
@[simp] theorem State.withLoad_coder (l : LoadEngine) (s : State) : (s.withLoad l).coder = s.coder := rfl
@[simp] theorem State.withLoad_store (l : LoadEngine) (s : State) : (s.withLoad l).store = s.store := rfl
@[simp] theorem State.withLoad_load (l : LoadEngine) (s : State) : (s.withLoad l).load = l := rfl
@[simp] theorem State.withLoad_flt (l : LoadEngine) (s : State) : (s.withLoad l).flt = s.flt := rfl
@[simp] theorem State.withLoad_resp (l : LoadEngine) (s : State) : (s.withLoad l).resp = s.resp := rfl
@[simp] theorem State.withLoad_params (l : LoadEngine) (s : State) : (s.withLoad l).params = s.params := rfl
@[simp] theorem State.withLoad_cmds (l : LoadEngine) (s : State) : (s.withLoad l).cmds = s.cmds := rfl
@[simp] theorem State.withLoad_draws (l : LoadEngine) (s : State) : (s.withLoad l).draws = s.draws := rfl
@[simp] theorem State.withLoad_withLoad (l l1 : LoadEngine) (s : State) : (s.withLoad l1).withLoad l = s.withLoad l := rfl
@[simp] theorem State.withLoad_self (s : State) : s.withLoad s.load = s := rfl
@[simp] theorem State.withLoad_slot (l : LoadEngine) (s : State) (m : SlotNo) : (s.withLoad l).slot m = s.slot m := rfl

@[simp] theorem State.withResp_ctl (r : List Word) (s : State) : (s.withResp r).ctl = s.ctl := rfl
@[simp] theorem State.withResp_cntBits (r : List Word) (s : State) : (s.withResp r).cntBits = s.cntBits := rfl
@[simp] theorem State.withResp_emit (r : List Word) (s : State) : (s.withResp r).emit = s.emit := rfl
@[simp] theorem State.withResp_coder (r : List Word) (s : State) : (s.withResp r).coder = s.coder := rfl
@[simp] theorem State.withResp_store (r : List Word) (s : State) : (s.withResp r).store = s.store := rfl
@[simp] theorem State.withResp_load (r : List Word) (s : State) : (s.withResp r).load = s.load := rfl
@[simp] theorem State.withResp_flt (r : List Word) (s : State) : (s.withResp r).flt = s.flt := rfl
@[simp] theorem State.withResp_resp (r : List Word) (s : State) : (s.withResp r).resp = r := rfl
@[simp] theorem State.withResp_params (r : List Word) (s : State) : (s.withResp r).params = s.params := rfl
@[simp] theorem State.withResp_cmds (r : List Word) (s : State) : (s.withResp r).cmds = s.cmds := rfl
@[simp] theorem State.withResp_draws (r : List Word) (s : State) : (s.withResp r).draws = s.draws := rfl
@[simp] theorem State.withResp_withResp (r r1 : List Word) (s : State) : (s.withResp r1).withResp r = s.withResp r := rfl
@[simp] theorem State.withResp_self (s : State) : s.withResp s.resp = s := rfl
@[simp] theorem State.withResp_slot (r : List Word) (s : State) (m : SlotNo) : (s.withResp r).slot m = s.slot m := rfl

@[simp] theorem State.withCmds_ctl (q : List Cmd) (s : State) : (s.withCmds q).ctl = s.ctl := rfl
@[simp] theorem State.withCmds_cntBits (q : List Cmd) (s : State) : (s.withCmds q).cntBits = s.cntBits := rfl
@[simp] theorem State.withCmds_emit (q : List Cmd) (s : State) : (s.withCmds q).emit = s.emit := rfl
@[simp] theorem State.withCmds_coder (q : List Cmd) (s : State) : (s.withCmds q).coder = s.coder := rfl
@[simp] theorem State.withCmds_store (q : List Cmd) (s : State) : (s.withCmds q).store = s.store := rfl
@[simp] theorem State.withCmds_load (q : List Cmd) (s : State) : (s.withCmds q).load = s.load := rfl
@[simp] theorem State.withCmds_flt (q : List Cmd) (s : State) : (s.withCmds q).flt = s.flt := rfl
@[simp] theorem State.withCmds_resp (q : List Cmd) (s : State) : (s.withCmds q).resp = s.resp := rfl
@[simp] theorem State.withCmds_params (q : List Cmd) (s : State) : (s.withCmds q).params = s.params := rfl
@[simp] theorem State.withCmds_cmds (q : List Cmd) (s : State) : (s.withCmds q).cmds = q := rfl
@[simp] theorem State.withCmds_draws (q : List Cmd) (s : State) : (s.withCmds q).draws = s.draws := rfl
@[simp] theorem State.withCmds_withCmds (q q1 : List Cmd) (s : State) : (s.withCmds q1).withCmds q = s.withCmds q := rfl
@[simp] theorem State.withCmds_self (s : State) : s.withCmds s.cmds = s := rfl
@[simp] theorem State.withCmds_slot (q : List Cmd) (s : State) (m : SlotNo) : (s.withCmds q).slot m = s.slot m := rfl

@[simp] theorem State.drawn_ctl (s : State) : s.drawn.ctl = s.ctl := rfl
@[simp] theorem State.drawn_cntBits (s : State) : s.drawn.cntBits = s.cntBits := rfl
@[simp] theorem State.drawn_emit (s : State) : s.drawn.emit = s.emit := rfl
@[simp] theorem State.drawn_coder (s : State) : s.drawn.coder = s.coder := rfl
@[simp] theorem State.drawn_store (s : State) : s.drawn.store = s.store := rfl
@[simp] theorem State.drawn_load (s : State) : s.drawn.load = s.load := rfl
@[simp] theorem State.drawn_flt (s : State) : s.drawn.flt = s.flt := rfl
@[simp] theorem State.drawn_resp (s : State) : s.drawn.resp = s.resp := rfl
@[simp] theorem State.drawn_params (s : State) : s.drawn.params = s.params := rfl
@[simp] theorem State.drawn_cmds (s : State) : s.drawn.cmds = s.cmds := rfl
@[simp] theorem State.drawn_draws (s : State) : s.drawn.draws = s.draws + 1 := rfl
@[simp] theorem State.drawn_slot (s : State) (m : SlotNo) : s.drawn.slot m = s.slot m := rfl

@[simp] theorem State.resetWith_ctl (p : Params) : (State.resetWith p).ctl = .reset := rfl
@[simp] theorem State.resetWith_cntBits (p : Params) : (State.resetWith p).cntBits = 0 := rfl
@[simp] theorem State.resetWith_emit (p : Params) : (State.resetWith p).emit = .reset := rfl
@[simp] theorem State.resetWith_coder (p : Params) : (State.resetWith p).coder = .reset := rfl
@[simp] theorem State.resetWith_store (p : Params) : (State.resetWith p).store = .reset := rfl
@[simp] theorem State.resetWith_load (p : Params) : (State.resetWith p).load = .reset := rfl
@[simp] theorem State.resetWith_flt (p : Params) : (State.resetWith p).flt = .reset := rfl
@[simp] theorem State.resetWith_resp (p : Params) : (State.resetWith p).resp = [] := rfl
@[simp] theorem State.resetWith_params (p : Params) : (State.resetWith p).params = p := rfl
@[simp] theorem State.resetWith_cmds (p : Params) : (State.resetWith p).cmds = [] := rfl
@[simp] theorem State.resetWith_draws (p : Params) : (State.resetWith p).draws = 0 := rfl

@[simp] theorem SlotInfo.reset_valid : SlotInfo.reset.valid = false := rfl

@[simp] theorem State.resetWith_slot (p : Params) (n : SlotNo) : (State.resetWith p).slot n = SlotInfo.reset := by
  simp [State.slot, State.resetWith, FrameStore.reset, Vector.get_eq_getElem]

/-! ## The slot table -/

@[simp] theorem FrameStore.setSlot_pix (f : FrameStore) (n : SlotNo) (i : SlotInfo) : (f.setSlot n i).pix = f.pix := rfl

/-- The slot written reads back as written. -/
@[simp] theorem State.slot_setSlot_self (s : State) (n : SlotNo) (i : SlotInfo) :
    (s.withStore (s.store.setSlot n i)).slot n = i := by
  simp [State.slot, FrameStore.setSlot, Vector.get_eq_getElem]

/-- Every other slot reads as before. -/
theorem State.slot_setSlot_ne (s : State) {n m : SlotNo} (i : SlotInfo) (h : m ≠ n) :
    (s.withStore (s.store.setSlot n i)).slot m = s.slot m := by
  have : n.toNat ≠ m.toNat := fun e => h (BitVec.eq_of_toNat_eq e.symm)
  simp [State.slot, FrameStore.setSlot, Vector.get_eq_getElem, this]

/-- The slot table depends on the frame store only. -/
theorem State.slot_congr {s t : State} (h : t.store.slots = s.store.slots) (n : SlotNo) : t.slot n = s.slot n := by
  simp only [State.slot, h]

end Sys2Proof.Machine
end

