-- ==== Sys2Proof/Laws/Memory.lean ====
section
/-!
SUPPORT. The pixel cells: a read after a write, and the canonical form, which every memory operation keeps.
-/

namespace Sys2Proof.Machine

@[simp] theorem Memory.read_write_self (m : Memory) (k : Nat) (b : Bool) : (m.write k b).read k = some b := by
  induction m with
  | nil => simp [Memory.write, Memory.read]
  | cons c rest ih =>
    simp only [Memory.write]
    split_ifs <;> simp_all [Memory.read, eq_comm]

theorem Memory.read_write_ne (m : Memory) {k j : Nat} (b : Bool) (h : j ≠ k) : (m.write k b).read j = m.read j := by
  induction m with
  | nil => simp [Memory.write, Memory.read, h.symm]
  | cons c rest ih =>
    simp only [Memory.write]
    split_ifs with lt eq
    · simp [Memory.read, h.symm]
    · simp [Memory.read, h.symm, ← eq]
    · simp [Memory.read, ih]

/-- The keys after a write: those before it, and the one written. -/
theorem Memory.mem_keys_write (m : Memory) (k : Nat) (b : Bool) (j : Nat) :
    j ∈ (m.write k b).map Prod.fst → j = k ∨ j ∈ m.map Prod.fst := by
  induction m with
  | nil => simp [Memory.write]
  | cons c rest ih =>
    simp only [Memory.write]
    split_ifs with lt eq
    · simp
    · simp only [List.map_cons, List.mem_cons]
      tauto
    · simp only [List.map_cons, List.mem_cons]
      tauto

/-- A write keeps the canonical form. -/
theorem Memory.wf_write {m : Memory} (h : m.wf) (k : Nat) (b : Bool) : (m.write k b).wf := by
  induction m with
  | nil => simp [Memory.write, Memory.wf]
  | cons c rest ih =>
    simp only [Memory.wf, List.map_cons, List.pairwise_cons] at h
    simp only [Memory.write]
    split_ifs with lt eq
    · simp only [Memory.wf, List.map_cons, List.pairwise_cons, List.mem_cons]
      refine ⟨?_, h⟩
      rintro j (rfl | hj)
      · exact lt
      · exact lt.trans (h.1 j hj)
    · subst eq
      exact List.pairwise_cons.2 h
    · refine List.pairwise_cons.2 ⟨fun j hj => ?_, ih h.2⟩
      rcases Memory.mem_keys_write rest k b j hj with rfl | hj
      · show c.1 < j
        omega
      · exact h.1 j hj

@[simp] theorem Memory.wf_nil : Memory.wf [] := List.Pairwise.nil

/-- No two cells share a key. -/
theorem cellKey_inj {n m : SlotNo} {a b : Nat} : cellKey n a = cellKey m b ↔ n = m ∧ a = b := by
  have hn := n.isLt
  have hm := m.isLt
  simp only [cellKey, ← BitVec.toNat_inj]
  omega

/-- What `PixWrite` can do: the cell exists and is written, or the model stops. -/
theorem pixWrite_ok {n : SlotNo} {a : Nat} {b : Bool} {s t : State} (h : pixWrite n a b s = .ok t) :
    n.toNat < s.params.nslot ∧ a < s.params.maxpix ∧
      t = s.withStore { s.store with pix := s.store.pix.write (cellKey n a) b } := by
  simp only [pixWrite] at h
  split_ifs at h with c
  exact ⟨c.1, c.2, by simpa using h.symm⟩

/-- The cell written reads back as written. -/
theorem pixRead_write_self (s t : State) (n : SlotNo) (a : Nat) (b : Bool)
    (h : t.store.pix = s.store.pix.write (cellKey n a) b) : pixRead t n a = b := by
  simp [pixRead, h]

/-- Every other cell reads as before. -/
theorem pixRead_write_ne (s t : State) {n m : SlotNo} {a c : Nat} (b : Bool)
    (h : t.store.pix = s.store.pix.write (cellKey n a) b) (hd : t.draws = s.draws) (hne : ¬(m = n ∧ c = a)) :
    pixRead t m c = pixRead s m c := by
  have : cellKey m c ≠ cellKey n a := fun e => hne (cellKey_inj.1 e)
  simp [pixRead, unwrittenPixel, h, hd, Memory.read_write_ne _ _ this]

theorem pixWritten_write (s t : State) (n m : SlotNo) (a c : Nat) (b : Bool)
    (h : t.store.pix = s.store.pix.write (cellKey n a) b) :
    pixWritten t m c = (decide (m = n ∧ c = a) || pixWritten s m c) := by
  by_cases e : m = n ∧ c = a
  · simp [pixWritten, h, e.1, e.2]
  · have : cellKey m c ≠ cellKey n a := fun k => e (cellKey_inj.1 k)
    simp [pixWritten, h, Memory.read_write_ne _ _ this, e]

/-- What a cell reads depends on the memory and the count of draws only. -/
theorem pixRead_congr {s t : State} (h : t.store.pix = s.store.pix) (hd : t.draws = s.draws) (n : SlotNo) (a : Nat) :
    pixRead t n a = pixRead s n a := by
  simp [pixRead, unwrittenPixel, h, hd]

end Sys2Proof.Machine
end

