-- ==== Sys2Proof/Laws/Ops.lean ====
section
/-!
SUPPORT. The shared operations, one lemma each that says once what the operation can do.
-/

namespace Sys2Proof.Machine

/-! ## Operations in sequence -/

@[simp] theorem bind_ok {α β : Type} (a : α) (f : α → Except Trap β) : (Except.ok a >>= f) = f a := rfl

@[simp] theorem bind_error {α β : Type} (e : Trap) (f : α → Except Trap β) :
    ((Except.error e : Except Trap α) >>= f) = .error e := rfl

/-- Two operations in sequence complete when both do. -/
theorem bind_eq_ok {α β : Type} {x : Except Trap α} {f : α → Except Trap β} {r : β} :
    (x >>= f) = .ok r ↔ ∃ a, x = .ok a ∧ f a = .ok r := by
  cases x <;> simp

/-- Two operations in sequence end early when the first does, or the first completes and the second does. -/
theorem bind_eq_error {α β : Type} {x : Except Trap α} {f : α → Except Trap β} {e : Trap} :
    (x >>= f) = .error e ↔ x = .error e ∨ ∃ a, x = .ok a ∧ f a = .error e := by
  cases x <;> simp

@[simp] theorem raise_ne_ok {α : Type} (c : Cause) (x : Nat) (a : α) : (raise c x : Except Trap α) = .ok a ↔ False := by
  simp [raise]

@[simp] theorem require_eq_ok (cond : Bool) (c : Cause) (x : Nat) (u : Unit) :
    require cond c x = .ok u ↔ cond = true := by
  cases cond <;> simp [require, raise]

theorem require_true {cond : Bool} (h : cond = true) (c : Cause) (x : Nat) : require cond c x = .ok () := by
  simp [require, h]

theorem require_false {cond : Bool} (h : cond = false) (c : Cause) (x : Nat) :
    require cond c x = .error (.raise c (BitVec.ofNat 64 x)) := by
  simp [require, raise, h]

theorem require_eq_error {cond : Bool} {c : Cause} {x : Nat} {e : Trap} :
    require cond c x = .error e ↔ cond = false ∧ e = .raise c (BitVec.ofNat 64 x) := by
  cases cond <;> simp [require, raise, eq_comm]

/-! ## The fault -/

@[simp] theorem enterFault_flt (c : Cause) (w : Cmd) (x : Word) (s : State) :
    (enterFault c w x s).flt = { fault := true, cause := c.code, fcmd := w, fval := x } := rfl
@[simp] theorem enterFault_resp (c : Cause) (w : Cmd) (x : Word) (s : State) : (enterFault c w x s).resp = s.resp := rfl
@[simp] theorem enterFault_params (c : Cause) (w : Cmd) (x : Word) (s : State) :
    (enterFault c w x s).params = s.params := rfl
@[simp] theorem enterFault_cmds (c : Cause) (w : Cmd) (x : Word) (s : State) : (enterFault c w x s).cmds = s.cmds := rfl
@[simp] theorem enterFault_draws (c : Cause) (w : Cmd) (x : Word) (s : State) :
    (enterFault c w x s).draws = s.draws + 1 := rfl

/-- Every cause code is one of spec/60_exceptions.md R261. -/
theorem Cause.code_range (c : Cause) : 1 ≤ c.code.toNat ∧ c.code.toNat ≤ 8 := by
  cases c <;> decide

/-- No two causes share a code. -/
theorem Cause.code_inj {c d : Cause} : c.code = d.code ↔ c = d := by
  cases c <;> cases d <;> decide

@[simp] theorem resetState_params (s : State) : (resetState s).params = s.params := rfl
@[simp] theorem resetState_cmds (s : State) : (resetState s).cmds = s.cmds := rfl
@[simp] theorem resetState_draws (s : State) : (resetState s).draws = s.draws + 1 := rfl
@[simp] theorem resetState_ctl (s : State) : (resetState s).ctl = .reset := rfl
@[simp] theorem resetState_cntBits (s : State) : (resetState s).cntBits = 0 := rfl
@[simp] theorem resetState_emit (s : State) : (resetState s).emit = .reset := rfl
@[simp] theorem resetState_coder (s : State) : (resetState s).coder = .reset := rfl
@[simp] theorem resetState_store (s : State) : (resetState s).store = .reset := rfl
@[simp] theorem resetState_load (s : State) : (resetState s).load = .reset := rfl
@[simp] theorem resetState_flt (s : State) : (resetState s).flt = .reset := rfl
@[simp] theorem resetState_resp (s : State) : (resetState s).resp = [] := rfl

@[simp] theorem respond_resp (v : Word) (s : State) : (respond v s).resp = s.resp ++ [v] := rfl
@[simp] theorem respond_flt (v : Word) (s : State) : (respond v s).flt = s.flt := rfl
@[simp] theorem respond_params (v : Word) (s : State) : (respond v s).params = s.params := rfl
@[simp] theorem respond_cmds (v : Word) (s : State) : (respond v s).cmds = s.cmds := rfl

/-! ## How a command ends -/

/-- In the fault state a command is discarded. -/
theorem runCommand_fault {i : Instr} {body : State → Result} {s : State} (h : s.flt.fault = true) :
    runCommand i body s = .next s := by
  simp [runCommand, h]

/-- A command whose operation completes. -/
theorem runCommand_ok {i : Instr} {body : State → Result} {s t : State} (h : s.flt.fault = false)
    (hb : body s = .ok t) : runCommand i body s = .next t := by
  simp [runCommand, h, hb]

/-- A command whose operation raises a fault. -/
theorem runCommand_raise {i : Instr} {body : State → Result} {s : State} {c : Cause} {x : Word}
    (h : s.flt.fault = false) (hb : body s = .error (.raise c x)) :
    runCommand i body s = .next (enterFault c (encode i) x s) := by
  simp [runCommand, h, hb]

/-- All a command can do when it gives a next state: it is discarded, it completes, or it enters the fault state with its
own word in the record. -/
theorem runCommand_next {i : Instr} {body : State → Result} {s t : State} (h : runCommand i body s = .next t) :
    (s.flt.fault = true ∧ t = s) ∨ (s.flt.fault = false ∧ body s = .ok t) ∨
      (s.flt.fault = false ∧ ∃ c x, body s = .error (.raise c x) ∧ t = enterFault c (encode i) x s) := by
  unfold runCommand at h
  split_ifs at h with hf
  · exact .inl ⟨hf, by simpa using h.symm⟩
  · have hf' : s.flt.fault = false := by simpa using hf
    split at h
    · rename_i u hu
      cases h
      exact .inr (.inl ⟨hf', hu⟩)
    · rename_i c x hc
      cases h
      exact .inr (.inr ⟨hf', c, x, hc, rfl⟩)
    · cases h

/-- All a word that is no command can do. -/
theorem illegalWord_next {w : Cmd} {s t : State} (h : illegalWord w s = .next t) :
    (s.flt.fault = true ∧ t = s) ∨ (s.flt.fault = false ∧ t = enterFault .illegalCmd w 0 s) := by
  unfold illegalWord at h
  split_ifs at h with hf
  · exact .inl ⟨hf, by simpa using h.symm⟩
  · exact .inr ⟨by simpa using hf, by simpa using h.symm⟩

/-! ## The bit sinks -/

/-- All `sink_write_bit` can do when it completes: one bit on the selected sink, whose counter was below its maximum. -/
theorem sinkWriteBit_ok {b : Bool} {s t : State} (h : sinkWriteBit b s = .ok t) :
    (s.ctl.sinkSel = true ∧ s.emit.bits ≠ BitVec.allOnes 64 ∧ t = s.withEmit (s.emit.writeBit s.params.w b)) ∨
      (s.ctl.sinkSel = false ∧ s.cntBits ≠ BitVec.allOnes 64 ∧ t = s.withCnt (s.cntBits + 1)) := by
  unfold sinkWriteBit at h
  split_ifs at h with hs he hc
  · simp at h
  · exact .inl ⟨hs, he, by simpa using h.symm⟩
  · simp at h
  · exact .inr ⟨by simpa using hs, hc, by simpa using h.symm⟩

/-- The one way `sink_write_bit` ends early: `COUNTER_OVERFLOW(0)`. -/
theorem sinkWriteBit_error {b : Bool} {s : State} {e : Trap} (h : sinkWriteBit b s = .error e) :
    e = .raise .counterOverflow 0 := by
  unfold sinkWriteBit at h
  split_ifs at h <;> simp_all [raise]

@[simp] theorem writeBits_nil (s : State) : writeBits [] s = .ok s := rfl

theorem writeBits_cons (b : Bool) (bs : List Bool) (s : State) :
    writeBits (b :: bs) s = sinkWriteBit b s >>= writeBits bs := rfl

theorem writeBits_append (as bs : List Bool) (s : State) :
    writeBits (as ++ bs) s = writeBits as s >>= writeBits bs := by
  induction as generalizing s with
  | nil => rfl
  | cons a as ih =>
    simp only [List.cons_append, writeBits_cons]
    cases sinkWriteBit a s with
    | ok t => exact ih t
    | error e => rfl

/-- The one way a write of bits ends early: `COUNTER_OVERFLOW(0)`. -/
theorem writeBits_error {bs : List Bool} {s : State} {e : Trap} (h : writeBits bs s = .error e) :
    e = .raise .counterOverflow 0 := by
  induction bs generalizing s with
  | nil => simp at h
  | cons b bs ih =>
    rcases bind_eq_error.1 h with h | ⟨t, -, h⟩
    · exact sinkWriteBit_error h
    · exact ih h

/-- `write_rice` writes the Rice code (spec/30_encoding.md R82), and its inner range test never fails. -/
theorem writeRice_eq (v k : Nat) (s : State) : writeRice v k s = writeBits (riceBits v k) s := by
  have fits : ¬2 ^ k ≤ v % 2 ^ k := Nat.not_le.2 (Nat.mod_lt _ (by positivity))
  simp only [writeRice, riceBits, writeBits_append, writeUint, fits, if_false]
  rfl

/-- `write_uint` of a value that fits writes the fixed-width field (spec/30_encoding.md R81). -/
theorem writeUint_eq {v n : Nat} (h : v < 2 ^ n) (s : State) : writeUint v n s = writeBits (uintBits v n) s := by
  simp [writeUint, Nat.not_le.2 h]

/-- `write_uint` of a value that does not fit raises before any bit (spec/41_scalar_codec.md R120). -/
theorem writeUint_range {v n : Nat} (h : 2 ^ n ≤ v) (s : State) :
    writeUint v n s = .error (.raise .uintRange (BitVec.ofNat 64 v)) := by
  simp [writeUint, h, raise]

@[simp] theorem uintBits_length (v n : Nat) : (uintBits v n).length = n := by simp [uintBits]

@[simp] theorem riceBits_length (v k : Nat) : (riceBits v k).length = (v >>> k) + 1 + k := by
  simp [riceBits]
  omega

/-! ## The scan -/

/-- `checkSlot` passes a slot that is valid and was loaded under the current dimensions. -/
theorem checkSlot_ok {s : State} {n : SlotNo} {u : Unit} :
    checkSlot s n = .ok u ↔ (s.slot n).valid = true ∧ (s.slot n).w = s.ctl.width ∧ (s.slot n).h = s.ctl.height := by
  simp [checkSlot, bind_eq_ok]

/-- The slots a scan tests. -/
theorem scan_ok {cur : SlotNo} {ref : Option SlotNo} {tr : Traversal} {s t : State} (h : scan cur ref tr s = .ok t) :
    dimsValid s.params s.ctl = true ∧ checkSlot s cur = .ok () ∧ (∀ r, ref = some r → checkSlot s r = .ok ()) ∧
      s.coder.buf.length + frameSize s.ctl ≤ s.params.bufcap ∧
      t = s.withCoder { s.coder with buf := s.coder.buf ++ scanSeq s cur ref tr } := by
  unfold scan at h
  simp only [bind_eq_ok, require_eq_ok, decide_eq_true_eq] at h
  obtain ⟨_, hd, u, hc, _, hr, _, hb, ht⟩ := h
  refine ⟨hd, hc, ?_, hb, by simpa using ht.symm⟩
  rintro r rfl
  exact hr

@[simp] theorem scanSeq_length (s : State) (cur : SlotNo) (ref : Option SlotNo) (tr : Traversal) :
    (scanSeq s cur ref tr).length = frameSize s.ctl := by
  simp [scanSeq]

/-! ## The runs -/

@[simp] theorem runsOf_nil : runsOf [] = [] := rfl

theorem runsOf_cons (b : Bool) (bs : List Bool) : runsOf (b :: bs) = consRun b (runsOf bs) := rfl

/-- The first run of a sequence has the sequence's first value. -/
theorem runsOf_cons_value (b : Bool) (bs : List Bool) : ∃ n rs, runsOf (b :: bs) = ⟨b, n + 1⟩ :: rs := by
  rw [runsOf_cons]
  unfold consRun
  split
  · exact ⟨0, [], rfl⟩
  · split_ifs
    · exact ⟨_, _, rfl⟩
    · exact ⟨0, _, rfl⟩

theorem runsOf_eq_nil {bs : List Bool} : runsOf bs = [] ↔ bs = [] := by
  cases bs with
  | nil => simp
  | cons b bs =>
    obtain ⟨n, rs, h⟩ := runsOf_cons_value b bs
    simp [h]

/-- The drain's own reading of the runs (spec/42_run_length_coder.md R142): the run at the head is as long as the value
there goes on, and the rest begins at the first opposite value. -/
theorem runsOf_head (b : Bool) (bs : List Bool) :
    runsOf (b :: bs) = ⟨b, (bs.takeWhile (· == b)).length + 1⟩ :: runsOf (bs.dropWhile (· == b)) := by
  induction bs with
  | nil => rfl
  | cons c cs ih =>
    by_cases h : c = b
    · subst h
      rw [runsOf_cons, ih]
      simp [consRun]
    · obtain ⟨n, rs, hr⟩ := runsOf_cons_value c cs
      have hcb : (c == b) = false := by simpa using h
      rw [runsOf_cons, List.takeWhile_cons, List.dropWhile_cons, hcb, hr]
      simp [consRun, h, hr]

end Sys2Proof.Machine
end

