-- ==== Sys2Proof/Laws/Sink.lean ====
section
/-!
SUPPORT. What a write of bits to the selected sink does, once and whole: the emitting sink keeps its invariant and its
bit stream grows by exactly the bits written; the counting sink counts them.
-/

namespace Sys2Proof.Machine

open Sys2Proof.Safety

/-! ## One bit on the emitting sink -/

theorem wordBits_succ (n : Nat) (x : Word) : wordBits (n + 1) x = wordBits n x ++ [x.getLsbD n] := by
  simp [wordBits, List.range_succ]

@[simp] theorem wordBits_length (n : Nat) (x : Word) : (wordBits n x).length = n := by simp [wordBits]

/-- The low bits of a word do not change when a bit above them is set. -/
theorem wordBits_or_shift (n : Nat) (x : Word) (b : Bool) :
    wordBits n (x ||| ((BitVec.ofBool b).setWidth 64 <<< n)) = wordBits n x := by
  apply List.map_congr_left
  intro i hi
  have hin : i < n := List.mem_range.1 hi
  simp [hin]

theorem getLsbD_eq_false_of_lt {x : Word} {n : Nat} (h : x.toNat < 2 ^ n) (j : Nat) (hj : n ≤ j) :
    x.getLsbD j = false := by
  rw [BitVec.getLsbD]
  exact Nat.testBit_lt_two_pow (h.trans_le (Nat.pow_le_pow_right (by decide) hj))

theorem toNat_or_shift_lt {x : Word} {n : Nat} (h : x.toNat < 2 ^ n) (b : Bool) :
    (x ||| ((BitVec.ofBool b).setWidth 64 <<< n)).toNat < 2 ^ (n + 1) := by
  rw [BitVec.toNat_or]
  apply Nat.or_lt_two_pow (h.trans (Nat.pow_lt_pow_right (by decide) (by omega)))
  rw [BitVec.toNat_shiftLeft, Nat.shiftLeft_eq, Nat.pow_succ]
  refine (Nat.mod_le _ _).trans_lt ?_
  have pos : 0 < 2 ^ n := by positivity
  have : ((BitVec.ofBool b).setWidth 64).toNat ≤ 1 := by cases b <;> decide
  calc _ ≤ 1 * 2 ^ n := Nat.mul_le_mul_right _ this
    _ < 2 ^ n * 2 := by omega

theorem getLsbD_or_shift {x : Word} {n : Nat} (h : x.toNat < 2 ^ n) (hn : n < 64) (b : Bool) :
    (x ||| ((BitVec.ofBool b).setWidth 64 <<< n)).getLsbD n = b := by
  rw [BitVec.getLsbD_or, getLsbD_eq_false_of_lt h n le_rfl]
  cases b <;> simp [hn]

/-- All one bit does to an emitting sink that meets its invariant and whose counter is below its maximum. -/
theorem Emitter.writeBit_spec {w : Nat} {e : Emitter} (h : EmitterInv w e) (hb : e.bits ≠ BitVec.allOnes 64)
    (b : Bool) :
    EmitterInv w (e.writeBit w b) ∧ (e.writeBit w b).bits.toNat = e.bits.toNat + 1 ∧
      (e.writeBit w b).out.flatMap (wordBits w) ++ wordBits (e.writeBit w b).pos (e.writeBit w b).cur =
        e.out.flatMap (wordBits w) ++ wordBits e.pos e.cur ++ [b] ∧
      e.out <+: (e.writeBit w b).out := by
  obtain ⟨hw, hp, hc, hwords, hle, hge, hout⟩ := h
  have hbits : (e.bits + 1).toNat = e.bits.toNat + 1 := by
    have : e.bits.toNat ≠ 2 ^ 64 - 1 := fun e1 => hb (BitVec.eq_of_toNat_eq (by simpa using e1))
    have := e.bits.isLt
    rw [BitVec.toNat_add]
    simp
    omega
  have hwd : (e.words + 1).toNat = e.words.toNat + 1 := by
    have : e.bits.toNat ≠ 2 ^ 64 - 1 := fun e1 => hb (BitVec.eq_of_toNat_eq (by simpa using e1))
    have := e.bits.isLt
    rw [BitVec.toNat_add]
    simp
    omega
  have hcur := toNat_or_shift_lt hc b
  have hbit := getLsbD_or_shift hc (by omega) b
  unfold Emitter.writeBit
  split_ifs with hfull
  · have hfull' : e.pos + 1 = w := hfull
    refine ⟨⟨hw, ?_, ?_, ?_, ?_, ?_, ?_⟩, hbits, ?_, ⟨_, rfl⟩⟩
    · show 0 < w
      omega
    · show (0 : Word).toNat < 2 ^ 0
      decide
    · show (e.words + 1).toNat = (e.out ++ [_]).length
      rw [hwd, hwords, List.length_append, List.length_singleton]
    · show (e.bits + 1).toNat ≤ w * (e.words + 1).toNat + 0
      rw [hbits, hwd, Nat.mul_succ]
      omega
    · show (e.words + 1).toNat + 0 ≤ (e.bits + 1).toNat
      omega
    · intro x hx
      rcases List.mem_append.1 hx with hx | hx
      · exact hout x hx
      · rw [List.mem_singleton.1 hx, ← hfull']
        exact hcur
    · show (e.out ++ [(e.place b).cur]).flatMap (wordBits w) ++ wordBits 0 0 = _
      have : wordBits w (e.place b).cur = wordBits e.pos e.cur ++ [b] := by
        rw [← hfull', wordBits_succ]
        exact congrArg₂ (fun x y => x ++ [y]) (wordBits_or_shift _ _ _) hbit
      rw [List.flatMap_append, List.flatMap_singleton, this, show wordBits 0 (0 : Word) = [] from rfl, List.append_nil,
        List.append_assoc]
  · have hnf : e.pos + 1 ≠ w := hfull
    refine ⟨⟨hw, ?_, hcur, hwords, ?_, ?_, hout⟩, hbits, ?_, ⟨[], by simp [Emitter.place]⟩⟩
    · show e.pos + 1 < w
      omega
    · show (e.bits + 1).toNat ≤ w * e.words.toNat + (e.pos + 1)
      omega
    · show e.words.toNat + (e.pos + 1) ≤ (e.bits + 1).toNat
      omega
    · show e.out.flatMap (wordBits w) ++ wordBits (e.pos + 1) (e.place b).cur = _
      have : wordBits (e.pos + 1) (e.place b).cur = wordBits e.pos e.cur ++ [b] := by
        rw [wordBits_succ]
        exact congrArg₂ (fun x y => x ++ [y]) (wordBits_or_shift _ _ _) hbit
      rw [this, List.append_assoc]

/-! ## The flush -/

/-- All that finalizing a pending partial word does to an emitting sink that meets its invariant. -/
theorem Emitter.finalize_spec {w : Nat} {e : Emitter} (h : EmitterInv w e) (hp : 0 < e.pos) :
    EmitterInv w e.finalize ∧ e.finalize.words.toNat = e.words.toNat + 1 ∧ e.finalize.bits = e.bits ∧
      e.finalize.out = e.out ++ [e.cur] := by
  obtain ⟨hw, hpos, hc, hwords, hle, hge, hout⟩ := h
  have hwd : (e.words + 1).toNat = e.words.toNat + 1 := by
    have := e.bits.isLt
    rw [BitVec.toNat_add]
    simp
    omega
  refine ⟨⟨hw, by show 0 < w; omega, by show (0 : Word).toNat < 2 ^ 0; decide, ?_, ?_, ?_, ?_⟩, hwd, rfl, rfl⟩
  · show (e.words + 1).toNat = (e.out ++ [_]).length
    rw [hwd, hwords, List.length_append, List.length_singleton]
  · show e.bits.toNat ≤ w * (e.words + 1).toNat + 0
    rw [hwd, Nat.mul_succ]
    omega
  · show (e.words + 1).toNat + 0 ≤ e.bits.toNat
    omega
  · intro x hx
    rcases List.mem_append.1 hx with hx | hx
    · exact hout x hx
    · rw [List.mem_singleton.1 hx]
      exact hc.trans (Nat.pow_lt_pow_right (by decide) hpos)

/-- All `sink_flush` does: nothing, or the partial word of the selected emitting sink is finalized. -/
theorem sinkFlush_cases (s : State) :
    ((s.ctl.sinkSel = false ∨ s.emit.pos = 0) ∧ sinkFlush s = s) ∨
      (s.ctl.sinkSel = true ∧ 0 < s.emit.pos ∧ sinkFlush s = s.withEmit s.emit.finalize) := by
  unfold sinkFlush
  split_ifs with hs hp
  · exact .inr ⟨hs, hp, rfl⟩
  · exact .inl ⟨.inr (Nat.eq_zero_of_not_pos hp), rfl⟩
  · exact .inl ⟨.inl (by simpa using hs), rfl⟩

end Sys2Proof.Machine

namespace Sys2Proof.Safety

open Sys2Proof.Machine

/-! ## Any number of bits on the selected sink -/

theorem writesBits_nil {s : State} (h : SinkSound s) : WritesBits [] s s := by
  unfold WritesBits
  split_ifs with hs
  · exact ⟨rfl, h hs, by simp, ⟨[], by simp⟩, by simp⟩
  · exact ⟨rfl, by simp⟩

/-- A write leaves the selection and the parameters alone. -/
theorem WritesBits.frame {bits : List Bool} {s t : State} (h : WritesBits bits s t) :
    t.ctl = s.ctl ∧ t.params = s.params := by
  unfold WritesBits at h
  split_ifs at h with hs
  · rw [h.1]; exact ⟨rfl, rfl⟩
  · rw [h.1]; exact ⟨rfl, rfl⟩

/-- A write keeps the sink sound. -/
theorem WritesBits.sound {bits : List Bool} {s t : State} (h : WritesBits bits s t) : SinkSound t := by
  obtain ⟨hc, hp⟩ := h.frame
  intro hs
  rw [hc] at hs
  simp only [WritesBits, hs, if_true] at h
  rw [hp]
  exact h.2.1

/-- Two writes in sequence. -/
theorem WritesBits.trans {as bs : List Bool} {s t u : State} (h : WritesBits as s t) (h' : WritesBits bs t u) :
    WritesBits (as ++ bs) s u := by
  obtain ⟨hc, hp⟩ := h.frame
  unfold WritesBits at h h' ⊢
  rw [hc] at h'
  split_ifs at h h' ⊢ with hs
  · obtain ⟨e1, -, st1, pre1, n1⟩ := h
    obtain ⟨e2, inv2, st2, pre2, n2⟩ := h'
    refine ⟨?_, hp ▸ inv2, ?_, pre1.trans pre2, ?_⟩
    · rw [e2, e1]; rfl
    · rw [st2, st1, List.append_assoc]
    · rw [n2, n1, List.length_append]; omega
  · obtain ⟨e1, n1⟩ := h
    obtain ⟨e2, n2⟩ := h'
    refine ⟨?_, ?_⟩
    · rw [e2, e1]; rfl
    · rw [n2, n1, List.length_append]; omega

theorem SinkRoom.mono {m n : Nat} {s : State} (h : SinkRoom n s) (hm : m ≤ n) : SinkRoom m s := by
  unfold SinkRoom at h ⊢
  split_ifs at h ⊢ <;> omega

/-- The room left after a write. -/
theorem WritesBits.room {bits : List Bool} {s t : State} {n : Nat} (h : WritesBits bits s t)
    (hr : SinkRoom (bits.length + n) s) : SinkRoom n t := by
  obtain ⟨hc, -⟩ := h.frame
  unfold WritesBits at h
  unfold SinkRoom at hr ⊢
  rw [hc]
  split_ifs at h hr ⊢ with hs
  · have := h.2.2.2.2
    omega
  · have := h.2
    omega

end Sys2Proof.Safety

namespace Sys2Proof.Machine

open Sys2Proof.Safety

/-- All `sink_write_bit` does when it completes. -/
theorem sinkWriteBit_writes {b : Bool} {s t : State} (hs : SinkSound s) (h : sinkWriteBit b s = .ok t) :
    WritesBits [b] s t ∧ SinkRoom 1 s := by
  rcases sinkWriteBit_ok h with ⟨sel, hb, rfl⟩ | ⟨sel, hb, rfl⟩
  · obtain ⟨inv, n, st, pre⟩ := Emitter.writeBit_spec (hs sel) hb b
    have : s.emit.bits.toNat ≠ 2 ^ 64 - 1 := fun e1 => hb (BitVec.eq_of_toNat_eq (by simpa using e1))
    have := s.emit.bits.isLt
    simp only [WritesBits, SinkRoom, sel, if_true]
    exact ⟨⟨rfl, inv, st, pre, by simpa using n⟩, by omega⟩
  · have : s.cntBits.toNat ≠ 2 ^ 64 - 1 := fun e1 => hb (BitVec.eq_of_toNat_eq (by simpa using e1))
    have := s.cntBits.isLt
    simp only [WritesBits, SinkRoom, sel, Bool.false_eq_true, if_false]
    refine ⟨⟨rfl, ?_⟩, by omega⟩
    show (s.cntBits + 1).toNat = _
    rw [BitVec.toNat_add]
    simp
    omega

/-- With room for one bit, `sink_write_bit` completes. -/
theorem sinkWriteBit_completes (b : Bool) {s : State} (h : SinkRoom 1 s) : ∃ t, sinkWriteBit b s = .ok t := by
  unfold SinkRoom at h
  unfold sinkWriteBit
  split_ifs at h ⊢ with hs he hc
  · rw [he] at h
    simp at h
  · exact ⟨_, rfl⟩
  · rw [hc] at h
    simp at h
  · exact ⟨_, rfl⟩

/-- All a write of bits does when it completes. -/
theorem writeBits_writes {bits : List Bool} {s t : State} (hs : SinkSound s) (h : writeBits bits s = .ok t) :
    WritesBits bits s t := by
  induction bits generalizing s with
  | nil =>
    cases h
    exact writesBits_nil hs
  | cons b bits ih =>
    obtain ⟨u, hu, ht⟩ := bind_eq_ok.1 h
    have w := (sinkWriteBit_writes hs hu).1
    exact w.trans (ih w.sound ht)

/-- With room for all of them, a write of bits completes. -/
theorem writeBits_completes (bits : List Bool) {s : State} (hs : SinkSound s) (h : SinkRoom bits.length s) :
    ∃ t, writeBits bits s = .ok t := by
  induction bits generalizing s with
  | nil => exact ⟨s, rfl⟩
  | cons b bits ih =>
    obtain ⟨u, hu⟩ := sinkWriteBit_completes b (h.mono (by simp))
    have w := (sinkWriteBit_writes hs hu).1
    obtain ⟨t, ht⟩ := ih w.sound (w.room (by simpa [Nat.add_comm] using h))
    exact ⟨t, bind_eq_ok.2 ⟨u, hu, ht⟩⟩

end Sys2Proof.Machine
end

