-- ==== Sys2Proof/Laws/Drain.lean ====
section
/-!
SUPPORT. What the drain does, once and whole: where every length field it writes fits, it writes the run stream.
-/

namespace Sys2Proof.Machine

/-- The length field of a run of this length fits its codec (spec/42_run_length_coder.md R145). -/
def RleConfig.lengthFits (c : RleConfig) (len : Nat) : Prop := c.lmode = true ∨ len - 1 < 2 ^ c.lparam

theorem RleConfig.fits_iff (c : RleConfig) (seq : List Bool) :
    c.fits seq = true ↔ ∀ r ∈ c.codedRuns (runsOf seq), c.lengthFits r.len := by
  unfold RleConfig.fits RleConfig.lengthFits
  cases c.lmode <;> simp

/-- All the length field does: its bits are written if it fits, else `UINT_RANGE(len - 1)` is raised. -/
theorem writeLength_eq_ok {c : RleConfig} {len : Nat} {s t : State} :
    writeLength c len s = .ok t ↔ c.lengthFits len ∧ writeBits (c.lengthBits len) s = .ok t := by
  unfold writeLength RleConfig.lengthFits RleConfig.lengthBits
  cases hm : c.lmode
  · by_cases hf : len - 1 < 2 ^ c.lparam
    · simp [hf, writeUint_eq]
    · simp [hf, writeUint_range (Nat.not_lt.1 hf)]
  · simp [writeRice_eq]

theorem writeLength_range {c : RleConfig} {len : Nat} {s : State} (h : ¬c.lengthFits len) :
    writeLength c len s = .error (.raise .uintRange (BitVec.ofNat 64 (len - 1))) := by
  unfold RleConfig.lengthFits at h
  push Not at h
  simp [writeLength, h.1, writeUint_range h.2]

theorem writeValueBit_eq (c : RleConfig) (isFirst : Bool) (r : Run) (s : State) :
    writeValueBit c isFirst r s = writeBits (if c.writesValue isFirst then [r.value] else []) s := by
  unfold writeValueBit
  split_ifs
  · rw [writeBits_cons]
    cases sinkWriteBit r.value s <;> rfl
  · rfl

/-- One run: its bits are written if its length field, when it has one, fits. -/
theorem writeRun_eq_ok {c : RleConfig} {isFirst atEnd : Bool} {r : Run} {s t : State} :
    (writeValueBit c isFirst r s >>= writeLengthField c atEnd r) = .ok t ↔
      (c.writesLength atEnd = true → c.lengthFits r.len) ∧ writeBits (c.runBits isFirst atEnd r) s = .ok t := by
  simp only [writeValueBit_eq, RleConfig.runBits, writeBits_append, bind_eq_ok, writeLengthField]
  by_cases hl : c.writesLength atEnd = true
  · simp only [hl, if_true, writeLength_eq_ok, true_implies]
    exact ⟨fun ⟨u, hu, hf, ht⟩ => ⟨hf, u, hu, ht⟩, fun ⟨hf, u, hu, ht⟩ => ⟨u, hu, hf, ht⟩⟩
  · simp [hl]

theorem RleConfig.codedRuns_cons (c : RleConfig) (r : Run) (rs : List Run) :
    c.codedRuns (r :: rs) = (if c.writesLength rs.isEmpty then [r] else []) ++ c.codedRuns rs := by
  unfold RleConfig.codedRuns RleConfig.writesLength
  cases rs <;> cases c.elide <;> simp

/-- All the drain does when it completes: every length field it writes fits, and it writes the encodings of the runs. -/
theorem drainRuns_eq_ok {c : RleConfig} {isFirst : Bool} {runs : List Run} {s t : State} :
    drainRuns c isFirst runs s = .ok t ↔
      (∀ r ∈ c.codedRuns runs, c.lengthFits r.len) ∧ writeBits (c.runListBits isFirst runs) s = .ok t := by
  induction runs generalizing isFirst s with
  | nil => simp [drainRuns, RleConfig.runListBits, RleConfig.codedRuns]
  | cons r rs ih =>
    have run := @writeRun_eq_ok c isFirst rs.isEmpty r s
    simp only [bind_eq_ok] at run
    simp only [drainRuns, RleConfig.runListBits, writeBits_append, bind_eq_ok, RleConfig.codedRuns_cons, ih]
    constructor
    · rintro ⟨a, ha, u, hu, hf, ht⟩
      obtain ⟨hr, hw⟩ := run.1 ⟨a, ha, hu⟩
      refine ⟨?_, u, hw, ht⟩
      intro x hx
      rcases List.mem_append.1 hx with hx | hx
      · split_ifs at hx with hl
        · rw [List.mem_singleton.1 hx]
          exact hr hl
        · cases hx
      · exact hf x hx
    · rintro ⟨hf, u, hw, ht⟩
      obtain ⟨a, ha, hu⟩ := run.2 ⟨fun hl => hf r (by simp [hl]), hw⟩
      exact ⟨a, ha, u, hu, fun x hx => hf x (List.mem_append_right _ hx), ht⟩

/-- Where every length field it writes fits, the drain is a write of the encodings of the runs. -/
theorem drainRuns_eq {c : RleConfig} {isFirst : Bool} {runs : List Run}
    (h : ∀ r ∈ c.codedRuns runs, c.lengthFits r.len) (s : State) :
    drainRuns c isFirst runs s = writeBits (c.runListBits isFirst runs) s := by
  induction runs generalizing isFirst s with
  | nil => rfl
  | cons r rs ih =>
    rw [RleConfig.codedRuns_cons] at h
    have rest := fun (t : State) => ih (isFirst := false) (fun x hx => h x (List.mem_append_right _ hx)) t
    simp only [drainRuns, RleConfig.runListBits, RleConfig.runBits, writeBits_append, writeValueBit_eq]
    cases writeBits (if c.writesValue isFirst then [r.value] else []) s with
    | error e => rfl
    | ok u =>
      by_cases hl : c.writesLength rs.isEmpty = true
      · have fits : writeLength c r.len u = writeBits (c.lengthBits r.len) u := by
          have hf := h r (by simp [hl])
          unfold RleConfig.lengthFits at hf
          unfold writeLength RleConfig.lengthBits
          split_ifs with hm
          · exact writeRice_eq _ _ _
          · exact writeUint_eq (hf.resolve_left hm) _
        simp only [bind_ok, writeLengthField, hl, if_true, fits, rest]
      · simp only [bind_ok, writeLengthField, hl, if_false, Bool.false_eq_true, writeBits_nil, rest]

/-- All `rle_drain` does when it completes. -/
theorem rleDrain_eq_ok {s t : State} :
    rleDrain s = .ok t ↔ s.ctl.rleConfig.fits s.coder.buf = true ∧
      ∃ u, writeBits (s.ctl.rleConfig.runStream s.coder.buf) s = .ok u ∧
        t = u.withCoder { buf := [], runcnt := BitVec.ofNat 32 (runsOf s.coder.buf).length } := by
  simp only [rleDrain, bind_eq_ok, drainRuns_eq_ok, RleConfig.fits_iff, RleConfig.runStream]
  constructor
  · rintro ⟨u, ⟨hf, hu⟩, ht⟩
    exact ⟨hf, u, hu, by simpa using ht.symm⟩
  · rintro ⟨hf, u, hu, rfl⟩
    exact ⟨u, ⟨hf, hu⟩, rfl⟩

end Sys2Proof.Machine
end

