-- ==== Sys2Proof/Laws/Exec.lean ====
section
/-!
SUPPORT. The operation of each command that runs one, and from a command's operation to its outcome.
-/

namespace Sys2Proof.Machine

open Sys2Proof.Safety

/-! ## The operation of each command -/

theorem exec_wbit (bit : Bool) (s : State) :
    exec (.wbit bit) s = runCommand (.wbit bit) (sinkWriteBit bit) s := rfl

theorem exec_wuint (value : BitVec 32) (n : BitVec 8) (s : State) :
    exec (.wuint value n) s = runCommand (.wuint value n)
      (fun s => require (decide (n.toNat ≤ 32)) .illegalCmd 0 >>= fun _ => writeUint value.toNat n.toNat s) s := rfl

theorem exec_wrice (value : BitVec 32) (k : BitVec 8) (s : State) :
    exec (.wrice value k) s = runCommand (.wrice value k)
      (fun s => require (decide (k.toNat ≤ 31)) .illegalCmd 0 >>= fun _ => writeRice value.toNat k.toNat s) s := rfl

theorem exec_flush (s : State) : exec .flush s = runCommand .flush (fun s => .ok (sinkFlush s)) s := rfl

theorem exec_rpush (bit : Bool) (s : State) :
    exec (.rpush bit) s = runCommand (.rpush bit)
      (fun s =>
        if s.coder.buf.length = s.params.bufcap then raise .bufOverflow (s.coder.buf.length + 1)
        else .ok (s.withCoder { s.coder with buf := s.coder.buf ++ [bit] })) s := rfl

theorem exec_rflush (s : State) : exec .rflush s = runCommand .rflush rleDrain s := rfl

theorem exec_fbegin (slot : SlotNo) (s : State) :
    exec (.fbegin slot) s = runCommand (.fbegin slot)
      (fun s =>
        require (slotExists s.params slot) .illegalCmd 0 >>= fun _ =>
        require (!s.load.isOpen) .protocol 0 >>= fun _ =>
        require (dimsValid s.params s.ctl) .cfgInvalid (frameSize s.ctl) >>= fun _ =>
        .ok ((s.withStore (s.store.setSlot slot { s.slot slot with valid := false })).withLoad
          { isOpen := true, slot := slot, fill := 0 })) s := rfl

theorem exec_fpix (bit : Bool) (s : State) :
    exec (.fpix bit) s = runCommand (.fpix bit)
      (fun s =>
        require s.load.isOpen .protocol 0 >>= fun _ =>
        require (decide (s.load.fill.toNat ≠ frameSize s.ctl)) .dimMismatch (s.load.fill.toNat + 1) >>= fun _ =>
        pixWrite s.load.slot s.load.fill.toNat bit s >>= fun t =>
        .ok (t.withLoad { t.load with fill := t.load.fill + 1 })) s := rfl

theorem exec_fend (s : State) :
    exec .fend s = runCommand .fend
      (fun s =>
        require s.load.isOpen .protocol 0 >>= fun _ =>
        require (decide (s.load.fill.toNat = frameSize s.ctl)) .dimMismatch s.load.fill.toNat >>= fun _ =>
        .ok ((s.withStore (s.store.setSlot s.load.slot
          { valid := true, w := s.ctl.width, h := s.ctl.height })).withLoad { s.load with isOpen := false })) s := rfl

theorem exec_scanraw (cur : SlotNo) (trav : Traversal) (s : State) :
    exec (.scanraw cur trav) s = runCommand (.scanraw cur trav)
      (fun s => require (slotExists s.params cur) .illegalCmd 0 >>= fun _ => scan cur none trav s) s := rfl

theorem exec_scanxor (cur ref : SlotNo) (trav : Traversal) (s : State) :
    exec (.scanxor cur ref trav) s = runCommand (.scanxor cur ref trav)
      (fun s => require (slotExists s.params cur && slotExists s.params ref) .illegalCmd 0 >>= fun _ =>
        scan cur (some ref) trav s) s := rfl

theorem exec_wcsr (addr : BitVec 8) (value : BitVec 32) (s : State) :
    exec (.wcsr addr value) s = runCommand (.wcsr addr value) (writeCsr addr value) s := rfl

/-- A read of a defined register, outside the fault state and in it. -/
theorem exec_rcsr_defined {addr : BitVec 8} {c : Csr} (h : csrAt addr = some c) (s : State) :
    exec (.rcsr addr) s =
      if s.flt.fault then .next (readInFault c s) else .next (respond (csrValue s c) s) := by
  show execRcsr addr s = _
  simp [execRcsr, h]

/-- A read of an address that is no register's. -/
theorem exec_rcsr_undefined {addr : BitVec 8} (h : csrAt addr = none) (s : State) :
    exec (.rcsr addr) s = runCommand (.rcsr addr) (fun _ => raise .illegalCmd 0) s := by
  show execRcsr addr s = _
  simp [execRcsr, h]

/-! ## From the operation to the outcome -/

/-- A command whose operation completes gives the state the operation leaves. -/
theorem exec_completes {i : Instr} {body : State → Result} {s t : State} (hx : exec i s = runCommand i body s)
    (hr : Running s) (hb : body s = .ok t) : exec i s = .next t := hx.trans (runCommand_ok hr hb)

/-- A command whose operation raises a fault raises that fault. -/
theorem exec_raises {i : Instr} {body : State → Result} {s : State} {c : Cause} {x : Word}
    (hx : exec i s = runCommand i body s) (hr : Running s) (hb : body s = .error (.raise c x)) :
    Raises i s c.code x :=
  ⟨_, hx.trans (runCommand_raise hr hb), rfl, rfl⟩

/-- A command that gives a next state from a running one either completed, and its operation left that state, or raised a
fault. -/
theorem exec_inversion {i : Instr} {body : State → Result} {s t : State} (hx : exec i s = runCommand i body s)
    (hr : Running s) (h : exec i s = .next t) :
    body s = .ok t ∨ ∃ c x, body s = .error (.raise c x) ∧ t = enterFault c (encode i) x s := by
  rcases runCommand_next (hx.symm.trans h) with ⟨hf, -⟩ | ⟨-, h⟩ | ⟨-, h⟩
  · exact absurd (hr.symm.trans hf) Bool.false_ne_true
  · exact .inl h
  · exact .inr h

/-- A command that gives a running state from a running one completed. -/
theorem exec_inversion_running {i : Instr} {body : State → Result} {s t : State}
    (hx : exec i s = runCommand i body s) (hr : Running s) (h : exec i s = .next t) (ht : Running t) :
    body s = .ok t := by
  rcases exec_inversion hx hr h with h | ⟨c, x, -, rfl⟩
  · exact h
  · exact absurd ht (by simp [Running])

end Sys2Proof.Machine
end

