-- ==== Sys2Proof/Laws/Encoding.lean ====
section
/-!
SUPPORT. The fields of a command word: a word is its five fields, and a mask acts on each field alone.
-/

namespace Sys2Proof

theorem Cmd.getLsbD_ofFields (a : BitVec 32) (c1 c0 b op : BitVec 8) (i : Nat) :
    (Cmd.ofFields a c1 c0 b op).getLsbD i =
      if i < 8 then op.getLsbD i else if i < 16 then b.getLsbD (i - 8) else if i < 24 then c0.getLsbD (i - 16)
      else if i < 32 then c1.getLsbD (i - 24) else a.getLsbD (i - 32) := by
  simp only [Cmd.ofFields, BitVec.getLsbD_append]
  split_ifs <;> simp_all <;> try omega
  all_goals congr 1; try omega

@[simp] theorem Cmd.op_ofFields (a : BitVec 32) (c1 c0 b op : BitVec 8) : (Cmd.ofFields a c1 c0 b op).op = op := by
  apply BitVec.eq_of_getLsbD_eq
  intro i hi
  simp [Cmd.op, Cmd.getLsbD_ofFields, hi]

@[simp] theorem Cmd.b_ofFields (a : BitVec 32) (c1 c0 b op : BitVec 8) : (Cmd.ofFields a c1 c0 b op).b = b := by
  apply BitVec.eq_of_getLsbD_eq
  intro i hi
  simp [Cmd.b, Cmd.getLsbD_ofFields, hi, show 8 + i < 16 by omega]

@[simp] theorem Cmd.c0_ofFields (a : BitVec 32) (c1 c0 b op : BitVec 8) : (Cmd.ofFields a c1 c0 b op).c0 = c0 := by
  apply BitVec.eq_of_getLsbD_eq
  intro i hi
  simp [Cmd.c0, Cmd.getLsbD_ofFields, hi, show 16 + i < 24 by omega, show ¬ 16 + i < 16 by omega,
    show ¬ 16 + i < 8 by omega]

@[simp] theorem Cmd.c1_ofFields (a : BitVec 32) (c1 c0 b op : BitVec 8) : (Cmd.ofFields a c1 c0 b op).c1 = c1 := by
  apply BitVec.eq_of_getLsbD_eq
  intro i hi
  simp [Cmd.c1, Cmd.getLsbD_ofFields, hi, show 24 + i < 32 by omega, show ¬ 24 + i < 24 by omega,
    show ¬ 24 + i < 16 by omega, show ¬ 24 + i < 8 by omega]

@[simp] theorem Cmd.a_ofFields (a : BitVec 32) (c1 c0 b op : BitVec 8) : (Cmd.ofFields a c1 c0 b op).a = a := by
  apply BitVec.eq_of_getLsbD_eq
  intro i hi
  simp [Cmd.a, Cmd.getLsbD_ofFields, hi, show ¬ 32 + i < 32 by omega, show ¬ 32 + i < 24 by omega,
    show ¬ 32 + i < 16 by omega, show ¬ 32 + i < 8 by omega]

@[simp] theorem Cmd.bit_ofFields (a : BitVec 32) (c1 c0 b op : BitVec 8) :
    (Cmd.ofFields a c1 c0 b op).bit = a.getLsbD 0 :=
  Cmd.getLsbD_ofFields a c1 c0 b op 32

@[simp] theorem Cmd.trav_ofFields (a : BitVec 32) (c1 c0 b op : BitVec 8) :
    (Cmd.ofFields a c1 c0 b op).trav = if b.getLsbD 0 then .colMajor else .rowMajor := by
  rw [Cmd.trav, Cmd.getLsbD_ofFields]
  rfl

/-- A word is its five fields. -/
theorem Cmd.ofFields_fields (w : Cmd) : Cmd.ofFields w.a w.c1 w.c0 w.b w.op = w := by
  apply BitVec.eq_of_getLsbD_eq
  intro i hi
  simp only [Cmd.getLsbD_ofFields, Cmd.a, Cmd.b, Cmd.c0, Cmd.c1, Cmd.op, BitVec.getLsbD_extractLsb']
  split_ifs with h1 h2 h3 h4
  · simp [h1]
  · simp [show i - 8 < 8 by omega, show 8 + (i - 8) = i by omega]
  · simp [show i - 16 < 8 by omega, show 16 + (i - 16) = i by omega]
  · simp [show i - 24 < 8 by omega, show 24 + (i - 24) = i by omega]
  · simp [show i - 32 < 32 by omega, show 32 + (i - 32) = i by omega]

@[simp] theorem Cmd.ofFields_inj (a a' : BitVec 32) (c1 c0 b op c1' c0' b' op' : BitVec 8) :
    Cmd.ofFields a c1 c0 b op = Cmd.ofFields a' c1' c0' b' op' ↔
      a = a' ∧ c1 = c1' ∧ c0 = c0' ∧ b = b' ∧ op = op' := by
  constructor
  · intro h
    exact ⟨by simpa using congrArg Cmd.a h, by simpa using congrArg Cmd.c1 h, by simpa using congrArg Cmd.c0 h,
      by simpa using congrArg Cmd.b h, by simpa using congrArg Cmd.op h⟩
  · rintro ⟨rfl, rfl, rfl, rfl, rfl⟩
    rfl

theorem Cmd.ofFields_and (a a' : BitVec 32) (c1 c0 b op c1' c0' b' op' : BitVec 8) :
    Cmd.ofFields a c1 c0 b op &&& Cmd.ofFields a' c1' c0' b' op' =
      Cmd.ofFields (a &&& a') (c1 &&& c1') (c0 &&& c0') (b &&& b') (op &&& op') := by
  apply BitVec.eq_of_getLsbD_eq
  intro i hi
  simp only [BitVec.getLsbD_and, Cmd.getLsbD_ofFields]
  split_ifs <;> rfl

/-- A masked word equals a pattern when each masked field equals the pattern's. -/
theorem Cmd.and_eq_iff (w m p : Cmd) :
    w &&& m = p ↔ w.a &&& m.a = p.a ∧ w.c1 &&& m.c1 = p.c1 ∧ w.c0 &&& m.c0 = p.c0 ∧ w.b &&& m.b = p.b ∧
      w.op &&& m.op = p.op := by
  conv_lhs => rw [← Cmd.ofFields_fields w, ← Cmd.ofFields_fields m, ← Cmd.ofFields_fields p]
  rw [Cmd.ofFields_and, Cmd.ofFields_inj]

@[simp] theorem bitField_getLsbD_zero (b : Bool) : (bitField b).getLsbD 0 = b := by cases b <;> rfl

/-! ## The masks as must-be-zero fields (spec/30_encoding.md R71) -/

/-- The "must be zero" column of spec/30_encoding.md R71. -/
def Format.zeroFields (f : Format) (w : Cmd) : Bool :=
  match f with
  | .z => w.b == 0#8 && w.c0 == 0#8 && w.c1 == 0#8 && w.a == 0#32
  | .bit => w.a.extractLsb' 1 31 == 0#31 && w.b == 0#8 && w.c0 == 0#8 && w.c1 == 0#8
  | .vn => w.c0 == 0#8 && w.c1 == 0#8
  | .s => w.a == 0#32 && w.b == 0#8 && w.c1 == 0#8
  | .sr => w.a == 0#32 && w.b.extractLsb' 1 7 == 0#7 && w.c1 == 0#8
  | .sx => w.a == 0#32 && w.b.extractLsb' 1 7 == 0#7
  | .cw => w.c0 == 0#8 && w.c1 == 0#8
  | .cr => w.a == 0#32 && w.c0 == 0#8 && w.c1 == 0#8

/-- The fields of a format's mask, but for `OP`. -/
def Format.maskFields : Format → BitVec 32 × BitVec 8 × BitVec 8 × BitVec 8
  | .z => (0xFFFFFFFF#32, 0xFF#8, 0xFF#8, 0xFF#8)
  | .bit => (0xFFFFFFFE#32, 0xFF#8, 0xFF#8, 0xFF#8)
  | .vn => (0#32, 0xFF#8, 0xFF#8, 0#8)
  | .s => (0xFFFFFFFF#32, 0xFF#8, 0#8, 0xFF#8)
  | .sr => (0xFFFFFFFF#32, 0xFF#8, 0#8, 0xFE#8)
  | .sx => (0xFFFFFFFF#32, 0#8, 0#8, 0xFE#8)
  | .cw => (0#32, 0xFF#8, 0xFF#8, 0#8)
  | .cr => (0xFFFFFFFF#32, 0xFF#8, 0xFF#8, 0#8)

theorem Format.mask_eq (f : Format) :
    f.mask = Cmd.ofFields f.maskFields.1 f.maskFields.2.1 f.maskFields.2.2.1 f.maskFields.2.2.2 0xFF#8 := by
  cases f <;> decide

theorem and_fe_eq_zero_iff (b : BitVec 8) : b &&& 0xFE#8 = 0#8 ↔ b.extractLsb' 1 7 = 0#7 := by
  revert b
  decide

theorem and_fffffffe_eq_zero_iff (a : BitVec 32) : a &&& 0xFFFFFFFE#32 = 0#32 ↔ a.extractLsb' 1 31 = 0#31 := by
  constructor <;> intro h <;> apply BitVec.eq_of_getLsbD_eq <;> intro i hi
  · have ones : ∀ j < 31, (0xFFFFFFFE#32).getLsbD (1 + j) = true := by decide
    simpa [ones i hi, hi] using congrArg (fun x => x.getLsbD (1 + i)) h
  · rcases Nat.eq_zero_or_pos i with rfl | pos
    · simp
    · have := congrArg (fun x => x.getLsbD (i - 1)) h
      simp [show i - 1 < 31 by omega, show 1 + (i - 1) = i by omega] at this
      simp [this]

theorem and_ff (x : BitVec 8) : x &&& 0xFF#8 = x := by
  revert x
  decide

theorem and_ffffffff (x : BitVec 32) : x &&& 0xFFFFFFFF#32 = x := by
  have ones : (0xFFFFFFFF#32) = BitVec.allOnes 32 := by decide
  rw [ones, BitVec.and_allOnes]

/-- A word matches a row whose pattern is an opcode alone when it has that opcode and its must-be-zero fields are
zero. -/
theorem OpRow.matches_eq (op : BitVec 8) (f : Format) (build : Cmd → Instr) (w : Cmd) :
    OpRow.matches ⟨Cmd.ofFields 0#32 0#8 0#8 0#8 op, f, build⟩ w = (w.op == op && f.zeroFields w) := by
  rw [Bool.eq_iff_iff, OpRow.matches, beq_iff_eq, Cmd.and_eq_iff, Format.mask_eq]
  cases f <;>
    simp only [Cmd.a_ofFields, Cmd.b_ofFields, Cmd.c0_ofFields, Cmd.c1_ofFields, Cmd.op_ofFields, Format.maskFields,
      Format.zeroFields] <;>
    simp [and_ff, and_ffffffff, and_fe_eq_zero_iff, and_fffffffe_eq_zero_iff] <;> tauto

/-- The opcode map with its patterns written as words of fields. -/
theorem opcodeMap_eq : opcodeMap =
    [ ⟨Cmd.ofFields 0#32 0#8 0#8 0#8 0x00#8, .z, fun _ => .nop⟩,
      ⟨Cmd.ofFields 0#32 0#8 0#8 0#8 0x01#8, .bit, fun w => .wbit w.bit⟩,
      ⟨Cmd.ofFields 0#32 0#8 0#8 0#8 0x02#8, .vn, fun w => .wuint w.a w.b⟩,
      ⟨Cmd.ofFields 0#32 0#8 0#8 0#8 0x03#8, .vn, fun w => .wrice w.a w.b⟩,
      ⟨Cmd.ofFields 0#32 0#8 0#8 0#8 0x04#8, .z, fun _ => .flush⟩,
      ⟨Cmd.ofFields 0#32 0#8 0#8 0#8 0x08#8, .bit, fun w => .rpush w.bit⟩,
      ⟨Cmd.ofFields 0#32 0#8 0#8 0#8 0x09#8, .z, fun _ => .rflush⟩,
      ⟨Cmd.ofFields 0#32 0#8 0#8 0#8 0x10#8, .s, fun w => .fbegin w.c0⟩,
      ⟨Cmd.ofFields 0#32 0#8 0#8 0#8 0x11#8, .bit, fun w => .fpix w.bit⟩,
      ⟨Cmd.ofFields 0#32 0#8 0#8 0#8 0x12#8, .z, fun _ => .fend⟩,
      ⟨Cmd.ofFields 0#32 0#8 0#8 0#8 0x13#8, .sr, fun w => .scanraw w.c0 w.trav⟩,
      ⟨Cmd.ofFields 0#32 0#8 0#8 0#8 0x14#8, .sx, fun w => .scanxor w.c0 w.c1 w.trav⟩,
      ⟨Cmd.ofFields 0#32 0#8 0#8 0#8 0x18#8, .cw, fun w => .wcsr w.b w.a⟩,
      ⟨Cmd.ofFields 0#32 0#8 0#8 0#8 0x19#8, .cr, fun w => .rcsr w.b⟩,
      ⟨Cmd.ofFields 0#32 0#8 0#8 0#8 0x1F#8, .z, fun _ => .reset⟩ ] := rfl

end Sys2Proof
end

