-- ==== Sys2Proof/Laws/Operands.lean ====
section
/-!
SUPPORT. The operand forms, one lemma each.
-/

namespace Sys2Proof.Machine

theorem dimsValid_iff (p : Params) (c : Control) :
    dimsValid p c = true ↔ c.width ≠ 0 ∧ c.height ≠ 0 ∧ c.width.toNat * c.height.toNat ≤ p.maxpix := by
  simp only [dimsValid, Bool.and_eq_true, decide_eq_true_eq, and_assoc]
  rfl

theorem slotExists_iff (p : Params) (n : SlotNo) : slotExists p n = true ↔ n.toNat < p.nslot := by
  simp only [slotExists, decide_eq_true_eq]

/-- The row-major address of a step is the step (spec/43_frame_pipeline.md R164). -/
@[simp] theorem traversalAddr_rowMajor (width height i : Nat) : traversalAddr .rowMajor width height i = i := by
  rw [traversalAddr, traversalPos, pixelAddr, Nat.mul_comm]
  exact Nat.div_add_mod i width

/-- The column-major address of the step for position `(x, y)` (spec/43_frame_pipeline.md R164). -/
theorem traversalAddr_colMajor {height y : Nat} (width x : Nat) (hy : y < height) :
    traversalAddr .colMajor width height (x * height + y) = y * width + x := by
  have pos : 0 < height := by omega
  simp only [traversalAddr, traversalPos, pixelAddr]
  rw [Nat.mul_comm x height, Nat.mul_add_mod, Nat.mod_eq_of_lt hy, Nat.mul_add_div pos, Nat.div_eq_of_lt hy, Nat.add_zero]

/-- A register address is defined when the map has it (spec/10_state.md R25). -/
theorem csrAt_isSome (addr : BitVec 8) : (csrAt addr).isSome = definedCsrAddrs.contains addr := by
  revert addr
  decide

/-- The reserved bits of `RLECFG` are those of its mask (spec/10_state.md R27, spec/44_control.md R191). -/
theorem rlecfg_reserved_iff (v : BitVec 32) :
    v &&& ~~~0x00003F07#32 = 0#32 ↔ v.extractLsb' 3 5 = 0#5 ∧ v.extractLsb' 14 18 = 0#18 := by
  have masked : ∀ i < 32, (~~~0x00003F07#32).getLsbD i = decide (3 ≤ i ∧ i < 8 ∨ 14 ≤ i) := by decide
  constructor
  · intro h
    have zero : ∀ i < 32, 3 ≤ i ∧ i < 8 ∨ 14 ≤ i → v.getLsbD i = false := by
      intro i hi hm
      have := congrArg (fun x => x.getLsbD i) h
      simpa only [BitVec.getLsbD_and, masked i hi, hm, decide_true, Bool.and_true, BitVec.getLsbD_zero] using this
    constructor <;> apply BitVec.eq_of_getLsbD_eq <;> intro i hi <;>
      simp only [BitVec.getLsbD_extractLsb', BitVec.getLsbD_zero, hi, decide_true, Bool.true_and] <;>
      exact zero _ (by omega) (by omega)
  · rintro ⟨h1, h2⟩
    apply BitVec.eq_of_getLsbD_eq
    intro i hi
    rw [BitVec.getLsbD_and, masked i hi, BitVec.getLsbD_zero]
    by_cases low : 3 ≤ i ∧ i < 8
    · have := congrArg (fun x => x.getLsbD (i - 3)) h1
      simp only [BitVec.getLsbD_extractLsb', BitVec.getLsbD_zero, show i - 3 < 5 by omega, decide_true, Bool.true_and,
        show 3 + (i - 3) = i by omega] at this
      rw [this, Bool.false_and]
    · by_cases high : 14 ≤ i
      · have := congrArg (fun x => x.getLsbD (i - 14)) h2
        simp only [BitVec.getLsbD_extractLsb', BitVec.getLsbD_zero, show i - 14 < 18 by omega, decide_true,
          Bool.true_and, show 14 + (i - 14) = i by omega] at this
        rw [this, Bool.false_and]
      · rw [decide_eq_false (by omega), Bool.and_false]

/-- What makes a value legal for `RLECFG` (spec/10_state.md R28). -/
theorem rlecfgLegal_iff (v : BitVec 32) :
    rlecfgLegal v = true ↔ (v.extractLsb' 3 5 = 0#5 ∧ v.extractLsb' 14 18 = 0#18) ∧
      (v.extractLsb' 8 6).toNat ≤ (if v.getLsbD 2 then 31 else 32) := by
  rw [rlecfgLegal, Bool.and_eq_true, beq_iff_eq, rlecfg_reserved_iff, decide_eq_true_eq]
  rfl

end Sys2Proof.Machine
end

