-- ==== Sys2Proof/Laws/Control.lean ====
section
/-!
SUPPORT. The registers and the step: what a register write can do, what a read does in the fault state, what a step does
with the next command word.
-/

namespace Sys2Proof.Machine

/-- All a write of `WIDTH` or `HEIGHT` is tested for. -/
theorem checkDimWrite_eq_ok {value : BitVec 32} {s : State} {u : Unit} :
    checkDimWrite value s = .ok u ↔ value.toNat ≤ 0xFFFF ∧ s.load.isOpen = false := by
  simp [checkDimWrite, bind_eq_ok]

/-- All a register write does when it completes: one of the four read-write registers has taken a legal value, and
nothing else has changed. -/
theorem writeCsr_ok {addr : BitVec 8} {value : BitVec 32} {s t : State} (h : writeCsr addr value s = .ok t) :
    (csrAt addr = some .sinksel ∧ value.toNat ≤ 1 ∧ t = s.withCtl { s.ctl with sinkSel := value.getLsbD 0 }) ∨
      (csrAt addr = some .rlecfg ∧ rlecfgLegal value = true ∧ t = s.withCtl (s.ctl.setRlecfg value)) ∨
      (csrAt addr = some .width ∧ value.toNat ≤ 0xFFFF ∧ s.load.isOpen = false ∧
        t = s.withCtl { s.ctl with width := value.setWidth 16 }) ∨
      (csrAt addr = some .height ∧ value.toNat ≤ 0xFFFF ∧ s.load.isOpen = false ∧
        t = s.withCtl { s.ctl with height := value.setWidth 16 }) := by
  unfold writeCsr at h
  split at h
  · rename_i hc
    simp only [bind_eq_ok, require_eq_ok, decide_eq_true_eq] at h
    obtain ⟨_, hv, ht⟩ := h
    exact .inl ⟨hc, hv, by simpa using ht.symm⟩
  · rename_i hc
    simp only [bind_eq_ok, require_eq_ok] at h
    obtain ⟨_, hv, ht⟩ := h
    exact .inr (.inl ⟨hc, hv, by simpa using ht.symm⟩)
  · rename_i hc
    obtain ⟨_, hv, ht⟩ := bind_eq_ok.1 h
    obtain ⟨hv, ho⟩ := checkDimWrite_eq_ok.1 hv
    exact .inr (.inr (.inl ⟨hc, hv, ho, by simpa using ht.symm⟩))
  · rename_i hc
    obtain ⟨_, hv, ht⟩ := bind_eq_ok.1 h
    obtain ⟨hv, ho⟩ := checkDimWrite_eq_ok.1 hv
    exact .inr (.inr (.inr ⟨hc, hv, ho, by simpa using ht.symm⟩))
  · simp at h

/-- All a read does in the fault state: one response, and perhaps one draw. -/
theorem readInFault_frame (c : Csr) (s : State) :
    ∃ v, (readInFault c s).resp = s.resp ++ [v] ∧
      readInFault c s = { s with resp := (readInFault c s).resp, draws := (readInFault c s).draws } := by
  unfold readInFault
  split_ifs <;> exact ⟨_, rfl, rfl⟩

/-- All a step does with the next command word. -/
theorem step_cons {s : State} {w : Cmd} {rest : List Cmd} (h : s.cmds = w :: rest) :
    step s =
      match decode w with
      | .ok i => exec i (s.withCmds rest)
      | .error _ => illegalWord w (s.withCmds rest) := by
  cases e : decode w <;> simp [step, takeCommand, h, e]

/-- A step with no command word. -/
theorem step_nil {s : State} (h : s.cmds = []) : step s = .next s := by
  simp only [step, takeCommand, h]

end Sys2Proof.Machine
end

