-- ==== Sys2Proof/Laws/HostProcedures.lean ====
section
/-!
SUPPORT. What the shared steps of the host's procedures do: issuing a command, the reads of the startup, the end of a
run, and that the run count is not read where no length is elided (spec/45_host_procedures.md R223, R226, R233).
-/

namespace Sys2Proof.Machine

open Sys2Proof.Safety

/-- Issuing a command runs it. -/
theorem issue_eq_some {i : Instr} {s t : State} (hd : decode (encode i) = .ok i) (h : exec i s = .next t) :
    issue i s = some t := by
  have hs : step (s.withCmds (encode i :: s.cmds)) = .next t := by
    rw [step_cons (w := encode i) (rest := s.cmds) rfl, hd]
    exact h
  rw [issue, hs]

/-- Issuing commands one after the other. -/
theorem issueAll_cons {i : Instr} {is : List Instr} {s t : State} (hd : decode (encode i) = .ok i)
    (h : exec i s = .next t) : issueAll (i :: is) s = issueAll is t := by
  rw [issueAll, issue_eq_some hd h]

/-- The last responses are the ones appended last. -/
theorem lastResponses_withResp (r vs : List Word) (s : State) : lastResponses vs.length (s.withResp (r ++ vs)) = vs := by
  simp [lastResponses]

/-- A read of a register outside the fault state. -/
theorem exec_rcsr_running {addr : BitVec 8} {c : Csr} {s : State} (hr : Running s) (h : csrAt addr = some c) :
    exec (.rcsr addr) s = .next (respond (csrValue s c) s) := by
  rw [exec_rcsr_defined h, if_neg (by simp [hr])]

/-- Reading a register outside the fault state, as the first of the commands issued. -/
theorem issueAll_rcsr {addr : BitVec 8} {is : List Instr} {s : State} (c : Csr)
    (hd : decode (encode (.rcsr addr)) = .ok (.rcsr addr)) (h : csrAt addr = some c) (hr : Running s) :
    issueAll (.rcsr addr :: is) s = issueAll is (respond (csrValue s c) s) :=
  issueAll_cons hd (exec_rcsr_running hr h)

/-- The reads of the startup leave the reset state with the four parameters in `RESP` (spec/45_host_procedures.md R223,
spec/44_control.md R193). -/
theorem issueAll_startupReads (s : State) :
    issueAll startupReads s = some ((resetState s).withResp [BitVec.ofNat 64 s.params.w, BitVec.ofNat 64 s.params.nslot,
      BitVec.ofNat 64 s.params.maxpix, BitVec.ofNat 64 s.params.bufcap]) := by
  rw [startupReads, issueAll_cons (by decide) (t := resetState s) rfl, issueAll_rcsr .paramW (by decide) rfl rfl,
    issueAll_rcsr .paramNslot (by decide) rfl rfl, issueAll_rcsr .paramMaxpix (by decide) rfl rfl,
    issueAll_rcsr .paramBufcap (by decide) rfl rfl]
  rfl

/-- The driver reads the parameters of the instance, if they are legal (spec/45_host_procedures.md R223). -/
theorem readParams_startupReads {s t : State} (hp : s.params.Legal) (h : issueAll startupReads s = some t) :
    readParams t = some s.params := by
  rw [issueAll_startupReads] at h
  obtain rfl := Option.some.inj h
  obtain ⟨_, hw, _, hn, _, hm, hb⟩ := hp
  simp only [readParams, lastResponses, State.withResp, List.length_cons, List.length_nil, Nat.reduceAdd, Nat.sub_self,
    List.drop_zero, BitVec.toNat_ofNat]
  rw [Nat.mod_eq_of_lt, Nat.mod_eq_of_lt, Nat.mod_eq_of_lt, Nat.mod_eq_of_lt] <;> omega

/-- Bit 0 of `STATUS` is `FAULT` (spec/10_state.md R31). -/
theorem statusWord_fault (s : State) : (statusWord s).getLsbD 0 = s.flt.fault := by
  simp only [statusWord, BitVec.getLsbD_setWidth, BitVec.getLsbD_append]
  simp

/-- In the fault state bit 0 of `STATUS` is 1 (spec/60_exceptions.md R267). -/
theorem statusWordInFault_fault (b : BitVec 3) : (statusWordInFault b).getLsbD 0 = true := by
  simp only [statusWordInFault, BitVec.getLsbD_setWidth, BitVec.getLsbD_append]
  simp

/-- The sink's flush enters no fault. -/
theorem sinkFlush_flt (s : State) : (sinkFlush s).flt = s.flt := by
  rcases sinkFlush_cases s with ⟨_, h⟩ | ⟨_, _, h⟩
  · rw [h]
  · rw [h]; rfl

/-- `WCSR SINKSEL, 1` selects the emitting sink (spec/44_control.md R191). -/
theorem exec_selemit {s : State} (hr : Running s) :
    exec (.wcsr 0x00#8 1) s = .next (s.withCtl { s.ctl with sinkSel := true }) := by
  rw [exec_wcsr]
  exact runCommand_ok hr rfl

/-- `FLUSH` outside the fault state. -/
theorem exec_flush_running {s : State} (hr : Running s) : exec .flush s = .next (sinkFlush s) := by
  rw [exec_flush]
  exact runCommand_ok hr rfl

/-- The flush and the read of `STATUS` at the end of a run without a fault. -/
theorem issueAll_finalFlush {s : State} (hr : Running s) :
    issueAll (selemit ++ [.flush, .rcsr 0x10#8]) s =
      let t := sinkFlush (s.withCtl { s.ctl with sinkSel := true })
      some (t.withResp (t.resp ++ [statusWord t])) := by
  have ht : Running (sinkFlush (s.withCtl { s.ctl with sinkSel := true })) :=
    (congrArg FaultRecord.fault (sinkFlush_flt _)).trans hr
  rw [selemit, List.singleton_append, issueAll_cons (by decide) (exec_selemit hr),
    issueAll_cons (by decide) (exec_flush_running (s := s.withCtl { s.ctl with sinkSel := true }) hr),
    issueAll_rcsr .status (by decide) rfl ht]
  rfl

/-- The reads of `EMIT_WORDS` and `EMIT_BITS`. -/
theorem issueAll_counterReads {s : State} (hr : Running s) :
    issueAll [.rcsr 0x22#8, .rcsr 0x21#8] s = some (s.withResp (s.resp ++ [s.emit.words, s.emit.bits])) := by
  rw [issueAll_rcsr .emitWords (by decide) rfl hr,
    issueAll_rcsr (s := respond (csrValue s .emitWords) s) .emitBits (by decide) rfl hr, issueAll,
    ← List.singleton_append (l := [s.emit.bits]), ← List.append_assoc]
  rfl

/-- The end of a run without a fault gives the output with the partial word flushed (spec/45_host_procedures.md R226,
spec/70_reset_and_hazards.md R320). -/
theorem finish_running {s : State} (hr : Running s) :
    finish s =
      let t := sinkFlush (s.withCtl { s.ctl with sinkSel := true })
      some { out := t.emit.out, words := t.emit.words.toNat, bits := t.emit.bits.toNat } := by
  rw [finish, issueAll_finalFlush hr]
  generalize ht : sinkFlush (s.withCtl { s.ctl with sinkSel := true }) = t
  have hf : Running t := by rw [← ht]; exact (congrArg FaultRecord.fault (sinkFlush_flt _)).trans hr
  have hb : ¬(statusWord t).getLsbD 0 = true := by rw [statusWord_fault, hf]; exact Bool.false_ne_true
  have h1 : lastResponses 1 (t.withResp (t.resp ++ [statusWord t])) = [statusWord t] := lastResponses_withResp _ [_] t
  have h2 := issueAll_counterReads (s := t.withResp (t.resp ++ [statusWord t])) hf
  have h3 := lastResponses_withResp (t.resp ++ [statusWord t]) [t.emit.words, t.emit.bits] t
  dsimp only
  rw [h1]
  dsimp only
  rw [if_neg hb, h2]
  change (match lastResponses 2 (t.withResp (t.resp ++ [statusWord t] ++ [t.emit.words, t.emit.bits])) with
    | [words, bits] => some (Artifact.mk t.emit.out words.toNat bits.toNat)
    | _ => none) = _
  rw [show lastResponses 2 _ = _ from h3]

/-- After a fault the run outputs nothing (spec/45_host_procedures.md R226). -/
theorem finish_faulted {s : State} (hf : s.flt.fault = true) : finish s = none := by
  have h : issueAll (selemit ++ [.flush, .rcsr 0x10#8]) s = some (readInFault .status s) := by
    have hx : exec (.rcsr 0x10#8) s = .next (readInFault .status s) := by
      rw [exec_rcsr_defined (c := .status) rfl, if_pos hf]
    rw [selemit, List.singleton_append, issueAll_cons (by decide) ((exec_wcsr _ _ s).trans (runCommand_fault hf)),
      issueAll_cons (by decide) ((exec_flush s).trans (runCommand_fault hf)), issueAll_cons (by decide) hx]
    rfl
  rw [finish, h]
  simp [readInFault, lastResponses, respond, State.withResp, State.drawn, statusWordInFault_fault, -BitVec.getLsbD_eq_getElem]

/-- A length read back is at least 1. -/
theorem one_le_of_readLength {c : RleConfig} {bs left : List Bool} {len : Nat}
    (h : readLength c bs = some (len, left)) : 1 ≤ len := by
  unfold readLength at h
  split at h <;> simp at h
  omega

/-- Without elision the decoder's loop reads no run count, and `n - out.length` turns are enough. -/
theorem decodeRunsLoop_count_unread {c : RleConfig} (he : c.elide = false) (n m m' : Nat) :
    ∀ (fuel fuel' i : Nat) (v : Bool) (out bs : List Bool), n - out.length ≤ fuel → n - out.length ≤ fuel' →
      decodeRunsLoop c n m fuel i v out bs = decodeRunsLoop c n m' fuel' i v out bs := by
  intro fuel
  induction fuel with
  | zero =>
    intro fuel' i v out bs h h'
    have hn : ¬out.length < n := by omega
    cases fuel' <;> simp [decodeRunsLoop, he, hn]
  | succ fuel ih =>
    intro fuel' i v out bs h h'
    by_cases hn : out.length < n
    · obtain ⟨fuel', rfl⟩ : ∃ k, fuel' = k + 1 := ⟨fuel' - 1, by omega⟩
      simp only [decodeRunsLoop, he, hn]
      cases readValue c i v bs with
      | none => rfl
      | some x =>
        cases hl : readLength c x.2 with
        | none => simp [hl]
        | some y =>
          have := one_le_of_readLength hl
          simpa [hl] using ih fuel' (i + 1) x.1 (out ++ List.replicate y.1 x.1) y.2 (by simp; omega) (by simp; omega)
    · cases fuel' <;> simp [decodeRunsLoop, he, hn]

/-- Without elision `decode_runs` does not depend on the run count (spec/45_host_procedures.md R233). -/
theorem decodeRuns_count_unread {c : RleConfig} (he : c.elide = false) (n m m' : Nat) (bs : List Bool) :
    decodeRuns c n m bs = decodeRuns c n m' bs :=
  decodeRunsLoop_count_unread he n m m' _ _ _ _ _ _ (by simp) (by simp)

/-- So a run count that is unknown stands for every run count where no length is elided. -/
theorem decodeRunsUnknown_none {c : RleConfig} (he : c.elide = false) (n m : Nat) (bs : List Bool) :
    decodeRunsUnknown c n none bs = decodeRuns c n m bs := by
  rw [decodeRunsUnknown, he]
  exact decodeRuns_count_unread he n 0 m bs

end Sys2Proof.Machine
end

