-- ==== Sys2Proof/Machine/Incremental.lean ====
section
/-!
DEFINITION. The incremental form of the run-length coder that spec/42_run_length_coder.md R151 allows an implementation,
as far as the runs go: it keeps the run it is in instead of the buffer. The machine's coder is the buffered form
(spec/10_state.md R40); no step uses this one, and Laws/Incremental.lean proves that both give the same runs.
-/

namespace Sys2Proof.Machine

/-- The closed runs, in order, and the run that is open. -/
structure IncrementalCoder where
  closed : List Run
  current : Option Run
deriving DecidableEq, Repr

/-- No boolean pushed yet. -/
def IncrementalCoder.empty : IncrementalCoder := { closed := [], current := none }

/-- A pushed boolean lengthens the open run if it has that run's value; otherwise it closes that run and opens a new
one. -/
def IncrementalCoder.push (c : IncrementalCoder) (b : Bool) : IncrementalCoder :=
  match c.current with
  | none => { c with current := some ⟨b, 1⟩ }
  | some r =>
    if r.value = b then { c with current := some ⟨b, r.len + 1⟩ }
    else { closed := c.closed ++ [r], current := some ⟨b, 1⟩ }

/-- The runs at an `RFLUSH`, which closes the open run as the one that reaches the end. -/
def IncrementalCoder.runs (c : IncrementalCoder) : List Run := c.closed ++ c.current.toList

end Sys2Proof.Machine
end

