-- ==== Sys2Proof/Laws/Incremental.lean ====
section
/-!
SUPPORT. The incremental coder gives the runs of the sequence pushed (spec/42_run_length_coder.md R151).
-/

namespace Sys2Proof.Machine

/-- The open run and a sequence that follows it, as runs. -/
theorem IncrementalCoder.runs_foldl (c : IncrementalCoder) (r : Run) (hr : 1 ≤ r.len) (h : c.current = some r)
    (seq : List Bool) :
    (seq.foldl IncrementalCoder.push c).runs = c.closed ++ runsOf (List.replicate r.len r.value ++ seq) := by
  induction seq generalizing c r with
  | nil =>
    obtain ⟨n, hn⟩ := Nat.exists_eq_add_of_le' hr
    have rep : ∀ n, runsOf (List.replicate (n + 1) r.value) = [⟨r.value, n + 1⟩] := by
      intro n
      induction n with
      | zero => rfl
      | succ n ih => rw [List.replicate_succ, runsOf_cons, ih]; simp [consRun]
    rw [List.append_nil, hn, rep, ← hn]
    simp [IncrementalCoder.runs, h]
  | cons b bs ih =>
    rw [List.foldl_cons]
    by_cases hb : r.value = b
    · have push : c.push b = { c with current := some ⟨b, r.len + 1⟩ } := by
        simp [IncrementalCoder.push, h, hb]
      rw [push, ih _ ⟨b, r.len + 1⟩ (by simp) rfl, hb]
      simp [List.replicate_succ']
    · have push : c.push b = { closed := c.closed ++ [r], current := some ⟨b, 1⟩ } := by
        simp [IncrementalCoder.push, h, hb]
      rw [push, ih _ ⟨b, 1⟩ (by simp) rfl]
      obtain ⟨n, rs, hrs⟩ := runsOf_cons_value b bs
      have long : ∀ m, runsOf (List.replicate (m + 1) r.value ++ b :: bs) = ⟨r.value, m + 1⟩ :: ⟨b, n + 1⟩ :: rs := by
        intro m
        induction m with
        | zero =>
          have hb' : ¬b = r.value := fun e => hb e.symm
          rw [show List.replicate (0 + 1) r.value ++ b :: bs = r.value :: b :: bs from rfl, runsOf_cons, hrs]
          simp [consRun, hb']
        | succ m ihm =>
          rw [List.replicate_succ, List.cons_append, runsOf_cons, ihm]
          simp [consRun]
      obtain ⟨m, hm⟩ := Nat.exists_eq_add_of_le' hr
      have hrun : (⟨r.value, m + 1⟩ : Run) = r := by rw [← hm]
      rw [hm, long, hrun]
      simp [hrs]

/-- The incremental coder's runs are the runs of the buffered sequence. -/
theorem IncrementalCoder.runs_eq (seq : List Bool) :
    (seq.foldl IncrementalCoder.push IncrementalCoder.empty).runs = runsOf seq := by
  cases seq with
  | nil => rfl
  | cons b bs =>
    rw [List.foldl_cons, IncrementalCoder.runs_foldl (IncrementalCoder.empty.push b) ⟨b, 1⟩ (by simp) rfl]
    rfl

end Sys2Proof.Machine
end

