-- ==== Sys2Proof/Laws/PerInstr.lean ====
section
/-!
SUPPORT. Statements about every command, one lemma per command: the opcode of its word is the `OP` value of
spec/30_encoding.md R74.
-/

namespace Sys2Proof.Laws.EncodeOp

/-- The `OP` column of spec/30_encoding.md R74. -/
def opcode : Instr → BitVec 8
  | .nop => 0x00#8
  | .wbit _ => 0x01#8
  | .wuint _ _ => 0x02#8
  | .wrice _ _ => 0x03#8
  | .flush => 0x04#8
  | .rpush _ => 0x08#8
  | .rflush => 0x09#8
  | .fbegin _ => 0x10#8
  | .fpix _ => 0x11#8
  | .fend => 0x12#8
  | .scanraw _ _ => 0x13#8
  | .scanxor _ _ _ => 0x14#8
  | .wcsr _ _ => 0x18#8
  | .rcsr _ => 0x19#8
  | .reset => 0x1F#8

/-- The word of the command carries the command's opcode. -/
def Statement (i : Instr) : Prop := (encode i).op = opcode i

theorem nop : Statement .nop := Cmd.op_ofFields ..
theorem wbit (bit : Bool) : Statement (.wbit bit) := Cmd.op_ofFields ..
theorem wuint (value : BitVec 32) (n : BitVec 8) : Statement (.wuint value n) := Cmd.op_ofFields ..
theorem wrice (value : BitVec 32) (k : BitVec 8) : Statement (.wrice value k) := Cmd.op_ofFields ..
theorem flush : Statement .flush := Cmd.op_ofFields ..
theorem rpush (bit : Bool) : Statement (.rpush bit) := Cmd.op_ofFields ..
theorem rflush : Statement .rflush := Cmd.op_ofFields ..
theorem fbegin (slot : SlotNo) : Statement (.fbegin slot) := Cmd.op_ofFields ..
theorem fpix (bit : Bool) : Statement (.fpix bit) := Cmd.op_ofFields ..
theorem fend : Statement .fend := Cmd.op_ofFields ..
theorem scanraw (cur : SlotNo) (trav : Traversal) : Statement (.scanraw cur trav) := Cmd.op_ofFields ..
theorem scanxor (cur ref : SlotNo) (trav : Traversal) : Statement (.scanxor cur ref trav) := Cmd.op_ofFields ..
theorem wcsr (addr : BitVec 8) (value : BitVec 32) : Statement (.wcsr addr value) := Cmd.op_ofFields ..
theorem rcsr (addr : BitVec 8) : Statement (.rcsr addr) := Cmd.op_ofFields ..
theorem reset : Statement .reset := Cmd.op_ofFields ..

end Sys2Proof.Laws.EncodeOp
end

