-- ==== Sys2Proof/Tests/Slice0.lean ====
section
/-!
SUPPORT. Tests on fixed values, and witnesses that the hypotheses of the statements can be met. Every expected value is
taken from the rule or the example of spec/ that the comment above it names.
-/

namespace Sys2Proof.Tests

open Sys2Proof Sys2Proof.Machine Sys2Proof.Safety

/-! ## Decoding: one word of every command, written out from R70 to R74 (most of them are the spec's own examples) -/

theorem test_decode_nop : decode 0x0000000000000000#64 = .ok .nop := by decide
theorem test_decode_wbit : decode 0x0000000100000001#64 = .ok (.wbit true) := by decide
theorem test_decode_wuint : decode 0x0000000500000402#64 = .ok (.wuint 5 4) := by decide
theorem test_decode_wrice : decode 0x0000000A00000203#64 = .ok (.wrice 10 2) := by decide
theorem test_decode_flush : decode 0x0000000000000004#64 = .ok .flush := by decide
theorem test_decode_rpush : decode 0x0000000100000008#64 = .ok (.rpush true) := by decide
theorem test_decode_rflush : decode 0x0000000000000009#64 = .ok .rflush := by decide
theorem test_decode_fbegin : decode 0x0000000000020010#64 = .ok (.fbegin 2) := by decide
theorem test_decode_fpix : decode 0x0000000100000011#64 = .ok (.fpix true) := by decide
theorem test_decode_fend : decode 0x0000000000000012#64 = .ok .fend := by decide
theorem test_decode_scanraw : decode 0x0000000000010113#64 = .ok (.scanraw 1 .colMajor) := by decide
theorem test_decode_scanxor : decode 0x0000000001000014#64 = .ok (.scanxor 0 1 .rowMajor) := by decide
theorem test_decode_wcsr : decode 0x0000010700000118#64 = .ok (.wcsr 0x01#8 0x107#32) := by decide
theorem test_decode_rcsr : decode 0x0000000000002019#64 = .ok (.rcsr 0x20#8) := by decide
theorem test_decode_reset : decode 0x000000000000001F#64 = .ok .reset := by decide

-- An unused opcode, and R264's `FPIX 1` with bit 33 set (R75).
theorem test_decode_undefined : decode 0x0000000000000005#64 = .error (.undefinedOpcode 5) := by decide
theorem test_decode_mustBeZero : decode 0x0000000300000011#64 = .error (.mustBeZero 0x11) := by decide

-- The host's view: three bytes of a `SCANRAW 1, 1` are its word, and the word is run next.
theorem test_tableWord : decodeTableWord 24 0x010113 = some (.scanraw 1 .colMajor) := by decide
theorem test_withFetchWord : (State.reset.withFetchWord 64 0x1F).cmds = [0x1F#64] := by decide

/-! ## Well-formedness: an ill-formed command for each check of R76, beside the last one that passes -/

/-- A small instance: 8-bit words, 2 slots of 16 pixels, a buffer of 16. -/
def small : Params := { w := 8, nslot := 2, maxpix := 16, bufcap := 16 }

theorem test_small_legal : small.Legal := by decide
theorem test_wf_wuint : (Instr.wuint 0 32).wellFormed small = true ∧ (Instr.wuint 0 33).wellFormed small = false := by
  decide
theorem test_wf_wrice : (Instr.wrice 0 31).wellFormed small = true ∧ (Instr.wrice 0 32).wellFormed small = false := by
  decide
theorem test_wf_fbegin : (Instr.fbegin 1).wellFormed small = true ∧ (Instr.fbegin 2).wellFormed small = false := by decide
theorem test_wf_scanraw : (Instr.scanraw 1 .rowMajor).wellFormed small = true ∧
    (Instr.scanraw 2 .rowMajor).wellFormed small = false := by decide
theorem test_wf_scanxor : (Instr.scanxor 1 1 .rowMajor).wellFormed small = true ∧
    (Instr.scanxor 2 1 .rowMajor).wellFormed small = false ∧ (Instr.scanxor 1 2 .rowMajor).wellFormed small = false := by
  decide
theorem test_wf_wcsr_addr : (Instr.wcsr 0x10#8 0).wellFormed small = false ∧
    (Instr.wcsr 0x05#8 0).wellFormed small = false := by decide
theorem test_wf_sinksel : (Instr.wcsr 0x00#8 1).wellFormed small = true ∧
    (Instr.wcsr 0x00#8 2).wellFormed small = false := by decide
-- R191's example: `LMODE` = 1 with `LPARAM` = 32 is refused; with `LMODE` = 0 it is legal. Bits 3 and 14 are reserved.
theorem test_wf_rlecfg : (Instr.wcsr 0x01#8 0x2000#32).wellFormed small = true ∧
    (Instr.wcsr 0x01#8 0x2004#32).wellFormed small = false ∧ (Instr.wcsr 0x01#8 0x2100#32).wellFormed small = false ∧
    (Instr.wcsr 0x01#8 0x8#32).wellFormed small = false ∧ (Instr.wcsr 0x01#8 0x4000#32).wellFormed small = false := by
  decide
theorem test_wf_dims : (Instr.wcsr 0x02#8 0xFFFF#32).wellFormed small = true ∧
    (Instr.wcsr 0x02#8 0x10000#32).wellFormed small = false ∧
    (Instr.wcsr 0x03#8 0x10000#32).wellFormed small = false := by decide
theorem test_wf_rcsr : (Instr.rcsr 0x33#8).wellFormed small = true ∧ (Instr.rcsr 0x34#8).wellFormed small = false := by
  decide

/-! ## Small states -/

/-- The small instance after reset: the counting sink is selected. -/
def counting : State := State.resetWith small

/-- The emitting sink selected. -/
def emitting : State := counting.withCtl { counting.ctl with sinkSel := true }

/-- The emitting sink with three bits pending (the example of R104). -/
def pending : State := emitting.withEmit { emitting.emit with cur := 5, pos := 3, bits := 3 }

/-- The emitting sink one bit short of a word (R107, before the eighth bit). -/
def nearlyFull : State := emitting.withEmit { emitting.emit with cur := 0x0D, pos := 7, bits := 7 }

/-- The counting sink's counter at its maximum. -/
def countedOut : State := counting.withCnt (BitVec.allOnes 64)

/-- The emitting sink's counter at its maximum. -/
def emittedOut : State := emitting.withEmit { emitting.emit with bits := BitVec.allOnes 64 }

/-- A state with this buffer and this `RLECFG`. -/
def buffered (buf : List Bool) (rle : BitVec 32) (s : State) : State :=
  (s.withCoder { s.coder with buf := buf }).withCtl (s.ctl.setRlecfg rle)

/-- The sequence of R153, cut to its first two runs and one boolean: six zeros, a one, a zero. -/
def seq8 : List Bool := [false, false, false, false, false, false, true, false]

/-- Dimensions 3 × 2 (R171). -/
def sized : State := counting.withCtl { counting.ctl with width := 3, height := 2 }

/-- The entry of a slot that holds a 3 × 2 frame. -/
def slot3x2 : SlotInfo := { valid := true, w := 3, h := 2 }

/-- The pixels of a slot in a frame store. -/
def withPixels (n : SlotNo) (pixels : List Bool) (f : FrameStore) : FrameStore :=
  { f with pix := pixels.zipIdx.foldl (fun m p => m.write (cellKey n p.2) p.1) f.pix }

/-- R171's two frames in slots 0 and 1. -/
def loaded : State :=
  sized.withStore (((withPixels 1 [true, true, false, false, true, false]
    (withPixels 0 [true, false, false, true, true, false] sized.store)).setSlot 0 slot3x2).setSlot 1 slot3x2)

/-- Slot 1 was loaded under other dimensions. -/
def mismatched : State := sized.withStore ((sized.store.setSlot 0 slot3x2).setSlot 1 { slot3x2 with w := 2 })

/-- A load into slot 1 with `fill` pixels so far. -/
def filling (fill : BitVec 32) : State := sized.withLoad { isOpen := true, slot := 1, fill := fill }

/-- The buffer full. -/
def bufferFull : State := counting.withCoder { counting.coder with buf := List.replicate 16 true }

/-- The fault state (R266), with a record. -/
def faulted : State := { counting with flt := { fault := true, cause := 1, fcmd := 9, fval := 5 } }

/-- The next state of an outcome. -/
def next? (o : Outcome) : Option State :=
  match o with
  | .next s => some s
  | .fault _ => none
  | .refused _ => none

/-- The `CAUSE`, `FCMD` and `FVAL` of an outcome that entered the fault state. -/
def raised (o : Outcome) : Option (Nat × Nat × Nat) :=
  (next? o).bind (fun t => if t.flt.fault then some (t.flt.cause.toNat, t.flt.fcmd.toNat, t.flt.fval.toNat) else none)

/-! ## One step of each command -/

-- R107: the eighth bit completes the word 0x8D.
theorem test_wbit_completes_the_word :
    (next? (exec (.wbit true) nearlyFull)).map (·.emit) =
      some { cur := 0, pos := 0, bits := 8, words := 1, out := [0x8D] } := by decide
theorem test_wbit_counts : (next? (exec (.wbit false) counting)).map (·.cntBits) = some 1 := by decide
-- R122's example, and its fault in R128.
theorem test_wuint : (next? (exec (.wuint 5 4) emitting)).map (fun t => (t.emit.cur, t.emit.pos, t.emit.bits)) =
    some (5, 4, 4) := by decide
theorem test_wuint_range : raised (exec (.wuint 16 4) counting) = some (1, 0x1000000402, 16) := by decide
-- R123's example (C1: the corrected literal), and R128's `write_rice(3, 0)`.
theorem test_wrice : (next? (exec (.wrice 10 2) emitting)).map (fun t => (t.emit.cur, t.emit.pos, t.emit.bits)) =
    some (0x13, 5, 5) := by decide
theorem test_wrice_unary : (next? (exec (.wrice 3 0) emitting)).map (·.emit.cur) = some 7 := by decide
-- R105's example.
theorem test_flush : (next? (exec .flush pending)).map (·.emit) =
    some { cur := 0, pos := 0, bits := 3, words := 1, out := [5] } := by decide
theorem test_flush_counting :
    (next? (exec .flush { pending with ctl := counting.ctl })).map (·.emit.pos) = some 3 := by decide
theorem test_rpush : (next? (exec (.rpush true) counting)).map (·.coder.buf) = some [true] := by decide
theorem test_rpush_full : raised (exec (.rpush true) bufferFull) = some (4, 0x100000008, 17) := by decide
-- `0 1010 1 0000 0 0000` (R141's example, cut): the words 0x6A would be wrong, bit 0 is written first.
theorem test_rflush :
    (next? (exec .rflush (buffered seq8 0x400 emitting))).map (fun t => (t.emit.out, t.emit.cur, t.emit.pos)) =
      some ([0x2A], 0, 7) := by decide
-- R141's fault: the first run, 6 - 1 = 5, does not fit 2 bits.
theorem test_rflush_range : raised (exec .rflush (buffered seq8 0x200 counting)) = some (1, 9, 5) := by decide
-- R161: the load opens; out of sequence it faults.
theorem test_fbegin : (next? (exec (.fbegin 1) loaded)).map (fun t => (t.load, t.slot 1)) =
    some ({ isOpen := true, slot := 1, fill := 0 }, { valid := false, w := 3, h := 2 }) := by decide
theorem test_fbegin_config : raised (exec (.fbegin 1) counting) = some (8, 0x10010, 0) := by decide
theorem test_fpix : (next? (exec (.fpix true) (filling 4))).map (fun t => (pixRead t 1 4, t.load.fill)) =
    some (true, 5) := by decide
theorem test_fpix_excess : raised (exec (.fpix true) (filling 6)) = some (2, 0x100000011, 7) := by decide
theorem test_fend : (next? (exec .fend (filling 6))).map (fun t => (t.slot 1, t.load.isOpen)) =
    some (slot3x2, false) := by decide
theorem test_fend_short : raised (exec .fend (filling 5)) = some (2, 0x12, 5) := by decide
-- R171's sequences.
theorem test_scanraw_columns : (next? (exec (.scanraw 0 .colMajor) loaded)).map (·.coder.buf) =
    some [true, true, false, true, false, false] := by decide
theorem test_scanraw_invalid : raised (exec (.scanraw 1 .rowMajor) sized) = some (5, 0x10013, 1) := by decide
theorem test_scanxor_columns : (next? (exec (.scanxor 0 1 .colMajor) loaded)).map (·.coder.buf) =
    some [false, true, true, false, false, false] := by decide
theorem test_scanxor_mismatch : raised (exec (.scanxor 0 1 .rowMajor) mismatched) = some (2, 0x1000014, 1) := by decide
-- R191's example, and R264's order of checks.
theorem test_wcsr_rlecfg : (next? (exec (.wcsr 0x01#8 0x107#32) counting)).map (·.ctl.rleConfig) =
    some { vpol := true, elide := true, lmode := true, lparam := 1 } := by decide
theorem test_wcsr_order : raised (exec (.wcsr 0x02#8 0x10000#32) (filling 0)) = some (3, 0x1000000000218, 0) := by decide
-- R31: `PARTIAL` is bit 3; R78's `RCSR CNT_BITS`.
theorem test_rcsr_status : (next? (exec (.rcsr 0x10#8) pending)).map (·.resp) = some [8] := by decide
theorem test_rcsr_undefined : raised (exec (.rcsr 0x05#8) counting) = some (3, 0x519, 0) := by decide
theorem test_nop : (next? (exec .nop pending)).map (·.emit) = some pending.emit := by decide
theorem test_reset : (next? (exec .reset faulted)).map (fun t => (t.flt.fault, t.resp, t.params.w)) =
    some (false, [], 8) := by decide
-- R267: a discarded word, and the record read back.
theorem test_fault_discards : (next? (exec (.wbit true) faulted)).map (fun t => (t.flt.cause, t.cntBits)) =
    some (1, 0) := by decide
theorem test_fault_reads : (next? (exec (.rcsr 0x13#8) faulted)).map (·.resp) = some [5] := by decide
-- A step takes the next word (R8).
theorem test_step : (next? (step (counting.withFetchWord 64 0x100000001))).map (fun t => (t.cntBits, t.cmds)) =
    some (1, []) := by decide

-- R153's runs; the incremental coder (R151) finds the same.
theorem test_runs : runsOf seq8 = [⟨false, 6⟩, ⟨true, 1⟩, ⟨false, 1⟩] := by decide
theorem test_incremental : (seq8.foldl IncrementalCoder.push IncrementalCoder.empty).runs = runsOf seq8 := by decide
-- P5's frame 0: inferred values, elision, unary lengths.
theorem test_runStream : RleConfig.runStream { vpol := true, elide := true, lmode := true, lparam := 0 }
    [true, true, false, true, false, false] = [true, true, false, false, false] := by decide
theorem test_decodeRuns : decodeRuns { vpol := true, elide := true, lmode := true, lparam := 0 } 6 4
    [true, true, false, false, false, true] = some ([true, true, false, true, false, false], [true]) := by decide
-- P5's configuration, and the decode of its frame 0; without its run count the frame cannot be decoded (R233).
def hostP5 : HostConfig :=
  { capacity := 0, useBlank := true, travs := [.rowMajor, .colMajor], selBits := 1, rcMode := .rice 1, width := 3,
    height := 2, rle := { vpol := true, elide := true, lmode := true, lparam := 0 } }
theorem test_decodeFrame : decodeFrame hostP5 [] [true, true, true, false, false, true, true, false, false, false] =
    some ([true, false, false, true, true, false], [], []) := by decide
theorem test_decodeFrame_unknown_count :
    decodeFrame { hostP5 with rcMode := .absent } [] [true, true, true, false, false, false] = none := by decide
-- Malformed streams (log entry 21): a run count of 0, and a first length of 3 in a sequence of 2.
theorem test_decodeFrame_no_runs : decodeFrame hostP5 [] [true, false, false] = none := by decide
theorem test_decodeRuns_too_long : decodeRuns hostP5.rle 2 2 [true, true, true, false] = none := by decide
-- R223: refused for the parameters of P3 (6 pixels are no multiple of 16), accepted for its own.
theorem test_startupOk : startupOk { w := 6, nslot := 2, maxpix := 16, bufcap := 16 } hostP5 = true ∧
    startupOk { w := 16, nslot := 4, maxpix := 8192, bufcap := 8192 } hostP5 = false := by decide
-- R226, on the pending word of R105.
theorem test_finish : finish pending = some { out := [5], words := 1, bits := 3 } := by decide
-- R227: the full variant with a window of two needs `SB + 2` = 3 selector bits.
theorem test_variant : (Variant.full 1).settings.2.2.2 = 3 := by decide

/-! ## Witnesses: the hypotheses of each statement that has any can be met -/

/-- The emitting sinks of the small states meet their invariant. -/
theorem witness_EmitterInv : EmitterInv 8 emitting.emit ∧ EmitterInv 8 pending.emit ∧ EmitterInv 8 nearlyFull.emit :=
  ⟨⟨by decide, by decide, by decide, by decide, by decide, by decide, List.forall_mem_nil _⟩,
    ⟨by decide, by decide, by decide, by decide, by decide, by decide, List.forall_mem_nil _⟩,
    ⟨by decide, by decide, by decide, by decide, by decide, by decide, List.forall_mem_nil _⟩⟩

/-- The counting sink selected is sound; so is the emitting sink with bits pending. -/
theorem witness_SinkSound : SinkSound counting ∧ SinkSound emitting ∧ SinkSound pending :=
  ⟨fun h => absurd h (by decide), fun _ => witness_EmitterInv.1, fun _ => witness_EmitterInv.2.1⟩

theorem counting_slot (n : SlotNo) : (counting.slot n).valid = false := by
  rw [counting, State.resetWith_slot]
  rfl

/-- A running state meets the types. -/
theorem pending_typeInv : TypeInv pending :=
  ⟨by decide, by decide, by decide, List.forall_mem_nil _, by decide, by decide, List.Pairwise.nil, by decide⟩

/-- A running state that meets the invariant, with any command words pending. -/
theorem witness_Inv (q : List Cmd) : Inv (pending.withCmds q) where
  type := { pending_typeInv with }
  run := fun _ =>
    { emitter := witness_EmitterInv.2.1
      slots := fun n h => Bool.noConfusion ((counting_slot n).symm.trans h)
      load := fun h => Bool.noConfusion h
      lparam := show pending.ctl.lparam.toNat ≤ (if pending.ctl.lmode then 31 else 32) by decide
      runcnt := show pending.coder.runcnt.toNat ≤ pending.params.bufcap by decide
      no_record := rfl }

theorem witness_EncodeOfDecodeIsTheWord : decode 0x0000000000010113#64 = .ok (.scanraw 1 .colMajor) := by decide

theorem witness_IllegalWordEntersTheFaultState :
    (counting.withCmds [0x05#64]).cmds = [0x05#64] ∧ Running (counting.withCmds [0x05#64]) ∧
      decode 0x05#64 = .error (.undefinedOpcode 5) := by decide

theorem witness_OperandOutOfRangeRaisesIllegalCmd :
    Running counting ∧ (Instr.wuint 0 33).wellFormed counting.params = false ∧
      (Instr.scanxor 0 2 .rowMajor).wellFormed counting.params = false := by decide

theorem witness_OperandsInRangeNeverRaiseIllegalCmd :
    Running counting ∧ (Instr.scanraw 0 .rowMajor).wellFormed counting.params = true ∧
      ∃ t, exec (.scanraw 0 .rowMajor) counting = .next t ∧ t.flt.fault = true :=
  ⟨rfl, by decide, _, rfl, rfl⟩

theorem witness_StepRunsTheDecodedCommand :
    (counting.withCmds [0x04#64]).cmds = [0x04#64] ∧ decode 0x04#64 = .ok .flush := by decide

theorem witness_StepWithNoCommandKeepsTheState : State.reset.cmds = [] := rfl

theorem witness_StepAlwaysGivesANextState : Inv (pending.withCmds [0x04#64]) := witness_Inv _

/-- One state for each of the five clauses. -/
theorem witness_WbitFollowsSinkWriteBit :
    (Running counting ∧ counting.ctl.sinkSel = false ∧ counting.cntBits ≠ 0xFFFFFFFFFFFFFFFF#64) ∧
    (Running countedOut ∧ countedOut.ctl.sinkSel = false ∧ countedOut.cntBits = 0xFFFFFFFFFFFFFFFF#64) ∧
    (Running pending ∧ pending.ctl.sinkSel = true ∧ pending.emit.bits ≠ 0xFFFFFFFFFFFFFFFF#64 ∧
      pending.emit.pos + 1 ≠ pending.params.w) ∧
    (Running nearlyFull ∧ nearlyFull.ctl.sinkSel = true ∧ nearlyFull.emit.bits ≠ 0xFFFFFFFFFFFFFFFF#64 ∧
      nearlyFull.emit.pos + 1 = nearlyFull.params.w) ∧
    (Running emittedOut ∧ emittedOut.ctl.sinkSel = true ∧ emittedOut.emit.bits = 0xFFFFFFFFFFFFFFFF#64) := by decide

/-- One state for each of the three clauses. -/
theorem witness_FlushFollowsSinkFlush :
    (Running counting ∧ counting.ctl.sinkSel = false) ∧
    (Running pending ∧ pending.ctl.sinkSel = true ∧ 0 < pending.emit.pos) ∧
    (Running emitting ∧ emitting.ctl.sinkSel = true ∧ emitting.emit.pos = 0) := by decide

theorem witness_SecondFlushChangesNothing : Running pending ∧ ∃ t, exec .flush pending = .next t := ⟨rfl, _, rfl⟩

theorem witness_FlushedPaddingIsZero :
    Running pending ∧ EmitterInv pending.params.w pending.emit ∧ pending.ctl.sinkSel = true ∧ 0 < pending.emit.pos :=
  ⟨rfl, witness_EmitterInv.2.1, rfl, by decide⟩

/-- A command on each sink. -/
theorem witness_SinksAreIndependent :
    (Running counting ∧ ∃ t, exec (.wbit true) counting = .next t ∧ Running t ∧ counting.ctl.sinkSel = false) ∧
    (Running pending ∧ ∃ t, exec (.wbit true) pending = .next t ∧ Running t ∧ pending.ctl.sinkSel = true) :=
  ⟨⟨rfl, _, rfl, rfl, rfl⟩, rfl, _, rfl, rfl, rfl⟩

/-- The widest field, on either sink, and the empty one. -/
theorem witness_WuintWritesItsField :
    (Running pending ∧ SinkSound pending ∧ (32#8).toNat ≤ 32 ∧ (0xFFFFFFFF#32).toNat < 2 ^ (32#8).toNat ∧
      SinkRoom (32#8).toNat pending) ∧
    (Running counting ∧ SinkSound counting ∧ (0#8).toNat ≤ 32 ∧ (0#32).toNat < 2 ^ (0#8).toNat ∧
      SinkRoom (0#8).toNat counting) :=
  ⟨⟨rfl, witness_SinkSound.2.2, by decide, by decide, by unfold SinkRoom; decide⟩,
    rfl, witness_SinkSound.1, by decide, by decide, by unfold SinkRoom; decide⟩

/-- The largest exponent and the smallest. -/
theorem witness_WriceWritesItsCode :
    (Running pending ∧ SinkSound pending ∧ (31#8).toNat ≤ 31 ∧
      SinkRoom ((0xFFFFFFFF#32).toNat / 2 ^ (31#8).toNat + 1 + (31#8).toNat) pending) ∧
    (Running counting ∧ SinkSound counting ∧ (0#8).toNat ≤ 31 ∧
      SinkRoom ((0#32).toNat / 2 ^ (0#8).toNat + 1 + (0#8).toNat) counting) :=
  ⟨⟨rfl, witness_SinkSound.2.2, by decide, by unfold SinkRoom; decide⟩,
    rfl, witness_SinkSound.1, by decide, by unfold SinkRoom; decide⟩

theorem witness_WuintOfATooWideValueRaisesUintRange :
    (Running counting ∧ (4#8).toNat ≤ 32 ∧ 2 ^ (4#8).toNat ≤ (16#32).toNat) ∧
    (Running emitting ∧ (0#8).toNat ≤ 32 ∧ 2 ^ (0#8).toNat ≤ (1#32).toNat) := by decide

/-- The shortest field and the shortest code that do not fit, on either sink. -/
theorem witness_ScalarWritePastTheCounterRaises :
    (Running countedOut ∧ (1#8).toNat ≤ 32 ∧ (1#32).toNat < 2 ^ (1#8).toNat ∧ ¬SinkRoom (1#8).toNat countedOut) ∧
    (Running emittedOut ∧ (0#8).toNat ≤ 31 ∧ ¬SinkRoom ((0#32).toNat / 2 ^ (0#8).toNat + 1 + (0#8).toNat) emittedOut) := by
  unfold SinkRoom
  decide

theorem witness_UintFieldReadsBack : (15 < 2 ^ 4) ∧ (0 < 2 ^ 0) := by decide

/-- A buffer with one place left, and a full one. -/
theorem witness_RpushAppendsOneBoolean :
    (Running (buffered (List.replicate 15 true) 0 counting) ∧
      (buffered (List.replicate 15 true) 0 counting).coder.buf.length ≠ small.bufcap) ∧
    (Running bufferFull ∧ bufferFull.coder.buf.length = bufferFull.params.bufcap) := by decide

theorem witness_RunsAreTheMaximalBlocks : seq8 ≠ [] ∧ [true] ≠ ([] : List Bool) := by decide

/-- The four combinations of the flags, and a sequence with several runs and one with one. -/
theorem witness_RunStreamOfEachFlagCombination :
    (runsOf seq8 = ⟨false, 6⟩ :: [⟨true, 1⟩, ⟨false, 1⟩]) ∧ (runsOf [true] = ⟨true, 1⟩ :: []) ∧
    ([0#32, 1#32, 2#32, 3#32].map (fun v => ((counting.ctl.setRlecfg v).rleConfig.vpol,
      (counting.ctl.setRlecfg v).rleConfig.elide))) = [(false, false), (true, false), (false, true), (true, true)] := by
  decide

theorem witness_RflushWritesTheRunStream :
    Running (buffered seq8 0x400 pending) ∧ SinkSound (buffered seq8 0x400 pending) ∧
      (buffered seq8 0x400 pending).ctl.rleConfig.fits (buffered seq8 0x400 pending).coder.buf = true ∧
      SinkRoom ((buffered seq8 0x400 pending).ctl.rleConfig.runStream seq8).length (buffered seq8 0x400 pending) :=
  ⟨rfl, fun _ => witness_EmitterInv.2.1, by decide, by unfold SinkRoom; decide⟩

theorem witness_RflushOfAnEmptyBufferWritesNothing : Running pending ∧ pending.coder.buf = [] := by decide

theorem witness_OneValueSequenceIsOneRun :
    (1 ≤ 1) ∧ ((counting.ctl.setRlecfg 2).rleConfig.elide = true) ∧ (counting.ctl.rleConfig.elide = false) := by decide

/-- The first run is too long; and the second is, after one that fits. -/
theorem witness_RflushRaisesUintRangeForTheFirstRunTooLong :
    (Running (buffered seq8 0x200 counting) ∧ (buffered seq8 0x200 counting).ctl.lmode = false ∧
      (buffered seq8 0x200 counting).ctl.rleConfig.codedRuns (runsOf seq8) = [] ++ ⟨false, 6⟩ :: [⟨true, 1⟩, ⟨false, 1⟩] ∧
      2 ^ (buffered seq8 0x200 counting).ctl.lparam.toNat ≤ 6 - 1 ∧
      SinkRoom ((buffered seq8 0x200 counting).ctl.rleConfig.cost seq8) (buffered seq8 0x200 counting)) ∧
    ((buffered [true, false, false] 0 pending).ctl.rleConfig.codedRuns (runsOf [true, false, false]) =
        [⟨true, 1⟩] ++ ⟨false, 2⟩ :: [] ∧
      (∀ x ∈ [(⟨true, 1⟩ : Run)], x.len - 1 < 2 ^ (buffered [true, false, false] 0 pending).ctl.lparam.toNat) ∧
      2 ^ (buffered [true, false, false] 0 pending).ctl.lparam.toNat ≤ 2 - 1) := by
  unfold SinkRoom
  decide

theorem witness_RflushPastTheCounterRaises :
    Running (buffered [true] 0 countedOut) ∧
      (buffered [true] 0 countedOut).ctl.rleConfig.fits (buffered [true] 0 countedOut).coder.buf = true ∧
      ¬SinkRoom ((buffered [true] 0 countedOut).ctl.rleConfig.cost [true]) (buffered [true] 0 countedOut) := by
  unfold SinkRoom
  decide

/-- An `RFLUSH` that completes, on each sink. -/
theorem witness_RflushCountsTheCost :
    (Running (buffered seq8 0x400 counting) ∧ SinkSound (buffered seq8 0x400 counting) ∧
      ∃ t, exec .rflush (buffered seq8 0x400 counting) = .next t ∧ Running t) ∧
    (Running (buffered seq8 0x400 pending) ∧ SinkSound (buffered seq8 0x400 pending) ∧
      ∃ t, exec .rflush (buffered seq8 0x400 pending) = .next t ∧ Running t) :=
  ⟨⟨rfl, fun h => absurd h (by decide), _, rfl, rfl⟩, rfl, fun _ => witness_EmitterInv.2.1, _, rfl, rfl⟩

theorem witness_RflushedBitsDecodeToTheBuffer :
    Running (buffered seq8 0x405 pending) ∧ SinkSound (buffered seq8 0x405 pending) ∧
      (buffered seq8 0x405 pending).ctl.sinkSel = true ∧ (buffered seq8 0x405 pending).coder.buf.length < 2 ^ 32 ∧
      ∃ t, exec .rflush (buffered seq8 0x405 pending) = .next t ∧ Running t :=
  ⟨rfl, fun _ => witness_EmitterInv.2.1, rfl, by decide, _, rfl, rfl⟩

theorem witness_FbeginOpensALoad :
    Running loaded ∧ (1#8).toNat < loaded.params.nslot ∧ loaded.load.isOpen = false ∧ loaded.ctl.width ≠ 0 ∧
      loaded.ctl.height ≠ 0 ∧ loaded.ctl.width.toNat * loaded.ctl.height.toNat ≤ loaded.params.maxpix := by decide

/-- The last pixel of the frame. -/
theorem witness_FpixStoresTheNextPixel :
    Running (filling 5) ∧ (filling 5).load.isOpen = true ∧ (filling 5).load.slot.toNat < (filling 5).params.nslot ∧
      (filling 5).load.fill.toNat < (filling 5).ctl.width.toNat * (filling 5).ctl.height.toNat ∧
      (filling 5).ctl.width.toNat * (filling 5).ctl.height.toNat ≤ (filling 5).params.maxpix := by decide

theorem witness_FendMakesTheSlotValid :
    Running (filling 6) ∧ (filling 6).load.isOpen = true ∧
      (filling 6).load.fill.toNat = (filling 6).ctl.width.toNat * (filling 6).ctl.height.toNat := by decide

/-- A width of 17 and a height of 1: one pixel more than a slot holds. -/
def tooLarge : State := counting.withCtl { counting.ctl with width := 17, height := 1 }

/-- One state for each clause; for the second, one for each way dimensions are illegal. -/
theorem witness_LoadCommandFaults :
    (Running (filling 0) ∧ (1#8).toNat < (filling 0).params.nslot ∧ (filling 0).load.isOpen = true) ∧
    (Running counting ∧ (1#8).toNat < counting.params.nslot ∧ counting.load.isOpen = false ∧ counting.ctl.width = 0 ∧
      counting.ctl.height = 0) ∧
    (Running tooLarge ∧ tooLarge.load.isOpen = false ∧
      tooLarge.params.maxpix < tooLarge.ctl.width.toNat * tooLarge.ctl.height.toNat) ∧
    (Running sized ∧ sized.load.isOpen = false) ∧
    (Running (filling 6) ∧ (filling 6).load.isOpen = true ∧
      (filling 6).load.fill.toNat = (filling 6).ctl.width.toNat * (filling 6).ctl.height.toNat) ∧
    (Running (filling 5) ∧ (filling 5).load.isOpen = true ∧
      (filling 5).load.fill.toNat ≠ (filling 5).ctl.width.toNat * (filling 5).ctl.height.toNat) := by decide

theorem witness_ScanrawAppendsThePixels :
    Running loaded ∧ (1#8).toNat < loaded.params.nslot ∧ loaded.ctl.width ≠ 0 ∧ loaded.ctl.height ≠ 0 ∧
      loaded.ctl.width.toNat * loaded.ctl.height.toNat ≤ loaded.params.maxpix ∧
      loaded.slot 1 = { valid := true, w := loaded.ctl.width, h := loaded.ctl.height } ∧
      loaded.coder.buf.length + loaded.ctl.width.toNat * loaded.ctl.height.toNat ≤ loaded.params.bufcap := by decide

theorem witness_ScanxorAppendsTheDifference :
    Running loaded ∧ (0#8).toNat < loaded.params.nslot ∧ (1#8).toNat < loaded.params.nslot ∧ loaded.ctl.width ≠ 0 ∧
      loaded.ctl.height ≠ 0 ∧ loaded.ctl.width.toNat * loaded.ctl.height.toNat ≤ loaded.params.maxpix ∧
      loaded.slot 0 = { valid := true, w := loaded.ctl.width, h := loaded.ctl.height } ∧
      loaded.slot 1 = { valid := true, w := loaded.ctl.width, h := loaded.ctl.height } ∧
      loaded.coder.buf.length + loaded.ctl.width.toNat * loaded.ctl.height.toNat ≤ loaded.params.bufcap := by decide

/-- The two slots loaded, and a buffer one place too full for six more booleans. -/
def crowded : State := loaded.withCoder { loaded.coder with buf := List.replicate 11 true }

/-- One state for each of the seven clauses. -/
theorem witness_ScanTestsInOrder :
    (Running counting ∧ counting.ctl.width = 0) ∧
    (Running sized ∧ dimsValid sized.params sized.ctl = true ∧ (sized.slot 0).valid = false) ∧
    (Running mismatched ∧ (mismatched.slot 1).valid = true ∧ (mismatched.slot 1).w ≠ mismatched.ctl.width) ∧
    (Running crowded ∧ (crowded.slot 0).valid = true ∧ (crowded.slot 0).w = crowded.ctl.width ∧
      (crowded.slot 0).h = crowded.ctl.height ∧
      crowded.params.bufcap < crowded.coder.buf.length + crowded.ctl.width.toNat * crowded.ctl.height.toNat) ∧
    (Running (sized.withStore (sized.store.setSlot 0 slot3x2)) ∧
      ((sized.withStore (sized.store.setSlot 0 slot3x2)).slot 0) = slot3x2 ∧
      ((sized.withStore (sized.store.setSlot 0 slot3x2)).slot 1).valid = false) ∧
    (mismatched.slot 0 = slot3x2 ∧ (mismatched.slot 1).valid = true ∧ (mismatched.slot 1).w ≠ mismatched.ctl.width) ∧
    (crowded.slot 0 = slot3x2 ∧ crowded.slot 1 = slot3x2) := by decide

theorem witness_TraversalVisitsEveryPixelOnce : (1 ≤ 3) ∧ (1 ≤ 2) ∧ (5 < 3 * 2) := by decide

theorem witness_ScanxorIsSymmetric :
    Running loaded ∧ (∃ t, exec (.scanxor 0 1 .colMajor) loaded = .next t ∧ Running t) ∧
      (∃ u, exec (.scanxor 1 0 .colMajor) loaded = .next u) ∧
      ∃ v, exec (.scanxor 0 0 .colMajor) loaded = .next v ∧ Running v :=
  ⟨rfl, ⟨_, rfl, rfl⟩, ⟨_, rfl⟩, _, rfl, rfl⟩

theorem witness_ColumnMajorDifferenceIsAPermutation :
    loaded.ctl.width ≠ 0 ∧ loaded.ctl.height ≠ 0 ∧ 5 < frameSize loaded.ctl := by decide

theorem witness_LoadedFrameScansBack :
    Running sized ∧ (0#8).toNat < sized.params.nslot ∧ sized.load.isOpen = false ∧ sized.ctl.width ≠ 0 ∧
      sized.ctl.height ≠ 0 ∧
      [true, false, false, true, true, false].length = sized.ctl.width.toNat * sized.ctl.height.toNat ∧
      [true, false, false, true, true, false].length ≤ sized.params.maxpix ∧
      sized.coder.buf.length + [true, false, false, true, true, false].length ≤ sized.params.bufcap := by decide

/-- The largest legal value of each register. -/
theorem witness_WcsrWritesTheRegister :
    Running counting ∧ (1#32).toNat ≤ 1 ∧ (Instr.wcsr 0x01#8 0x2003#32).wellFormed counting.params = true ∧
      (Instr.wcsr 0x01#8 0x1F07#32).wellFormed counting.params = true ∧ (0xFFFF#32).toNat < 65536 ∧
      counting.load.isOpen = false := by decide

theorem witness_DimensionsAreLockedDuringALoad :
    Running (filling 0) ∧ (0xFFFF#32).toNat < 65536 ∧ (filling 0).load.isOpen = true := by decide

theorem witness_RcsrAppendsTheRegister : Running pending := rfl

theorem witness_RlecfgReadsBackAsWritten :
    Running counting ∧ (Instr.wcsr 0x01#8 0x1F07#32).wellFormed counting.params = true ∧
      ∃ t u, exec (.wcsr 0x01#8 0x1F07#32) counting = .next t ∧ exec (.rcsr 0x01#8) t = .next u :=
  ⟨rfl, by decide, _, _, rfl, rfl⟩

/-- A word that is no command and a command that faults. -/
theorem witness_FaultRecordsTheWordIssued :
    (Running (counting.withCmds [0x05#64]) ∧ ∃ t, step (counting.withCmds [0x05#64]) = .next t ∧ t.flt.fault = true) ∧
    (Running (counting.withCmds [0x10#64]) ∧ ∃ t, step (counting.withCmds [0x10#64]) = .next t ∧ t.flt.fault = true) :=
  ⟨⟨rfl, _, rfl, rfl⟩, rfl, _, rfl, rfl⟩

/-- `RCSR` of an undefined address and a malformed `RESET` are among the words discarded. -/
theorem witness_FaultStateDiscardsEveryOtherWord :
    faulted.flt.fault = true ∧ (0x0000000000000519#64 : Cmd) ≠ 0x000000000000001F#64 ∧
      (∀ addr ∈ definedCsrAddrs, (0x0000000000000519#64 : Cmd) ≠ encode (.rcsr addr)) ∧
      (0x000000000000011F#64 : Cmd) ≠ 0x000000000000001F#64 ∧
      (∀ addr ∈ definedCsrAddrs, (0x000000000000011F#64 : Cmd) ≠ encode (.rcsr addr)) := by decide

theorem witness_FaultStateReadsOneValue : faulted.flt.fault = true ∧ 0x10#8 ∈ definedCsrAddrs := by decide

/-- A discarded word, and the way out. -/
theorem witness_OnlyResetLeavesTheFaultState :
    (faulted.withCmds [0x01#64]).flt.fault = true ∧ (∃ t, step (faulted.withCmds [0x01#64]) = .next t) ∧
      ∃ t, step (faulted.withCmds [0x1F#64]) = .next t :=
  ⟨rfl, ⟨_, rfl⟩, _, rfl⟩

theorem witness_StepKeepsTheInvariant :
    Inv (pending.withCmds [0x04#64]) ∧ ∃ t, step (pending.withCmds [0x04#64]) = .next t := ⟨witness_Inv _, _, rfl⟩

theorem witness_CountersAndStreamsOnlyGrow :
    Inv (pending.withCmds [0x04#64]) ∧ Running (pending.withCmds [0x04#64]) ∧
      (∃ t, step (pending.withCmds [0x04#64]) = .next t ∧ Running t) ∧
      (pending.withCmds [0x04#64]).cmds.head? ≠ some 0x000000000000001F#64 :=
  ⟨witness_Inv _, rfl, ⟨_, rfl, rfl⟩, by decide⟩

theorem witness_UnpaddedStreamStaysUnpadded :
    Inv (pending.withCmds [0x01#64]) ∧ Running (pending.withCmds [0x01#64]) ∧
      (∃ t, step (pending.withCmds [0x01#64]) = .next t ∧ Running t) ∧ Unpadded (pending.withCmds [0x01#64]) ∧
      ¬((pending.withCmds [0x01#64]).cmds.head? = some (encode .flush) ∧
        (pending.withCmds [0x01#64]).ctl.sinkSel = true ∧ 0 < (pending.withCmds [0x01#64]).emit.pos) :=
  ⟨witness_Inv _, rfl, ⟨_, rfl, rfl⟩, by unfold Unpadded; decide, by decide⟩

theorem witness_ParametersNeverChange : ∃ t, step (pending.withCmds [0x1F#64]) = .next t := ⟨_, rfl⟩

theorem witness_ResetStateMeetsTheInvariant : small.Legal := by decide

/-- Two candidates of equal cost after a dearer one. -/
theorem witness_SelectionTakesTheFirstOfLeastCost :
    [(⟨0, (.blank, .rowMajor), 6, 4⟩ : Measured), ⟨1, (.blank, .colMajor), 5, 4⟩, ⟨2, (.slot 0, .rowMajor), 5, 4⟩].Pairwise
      (fun a b => a.index < b.index) := by decide

end Sys2Proof.Tests
end

/-! The step (spec/00_scope.md R8): what is proved of it. -/

namespace Sys2Proof.Proofs.Step

open Sys2Proof.Machine

/-- What `step_cons` says of a word that is a command (spec/30_encoding.md R73). -/
theorem step_of_decode_ok {s : State} {w : Cmd} {rest : List Cmd} {i : Instr} (hcmds : s.cmds = w :: rest)
    (hdecode : decode w = .ok i) : step s = exec i (s.withCmds rest) := by
  rw [step_cons hcmds, hdecode]

/-- Settles O9: the case of `step_cons` where the word decodes, with `withCmds` written out as the record update. -/
theorem stepRunsTheDecodedCommand : Obligations.StepRunsTheDecodedCommand := by
  intro s w rest i hcmds hdecode
  exact step_of_decode_ok hcmds hdecode

end Sys2Proof.Proofs.Step

/-! The step inverted: all that a step which gives a next state can have done (spec/00_scope.md R8). What every step
keeps is then proved by the cases of `StepTo` and `Effect`. -/

namespace Sys2Proof.Proofs.StepEffect

open Sys2Proof.Machine Sys2Proof.Safety

/-- `LPARAM` is in the range of spec/10_state.md R28. -/
def LparamLegal (c : Control) : Prop := c.lparam.toNat ≤ (if c.lmode then 31 else 32)

/-- `s` with a load of `slot`, made invalid, open and no pixel in it (spec/43_frame_pipeline.md R161). -/
def loadOpened (slot : SlotNo) (s : State) : State :=
  (s.withStore (s.store.setSlot slot { s.slot slot with valid := false })).withLoad
    { isOpen := true, slot := slot, fill := 0 }

/-- `s` with the next pixel of the open load stored (spec/43_frame_pipeline.md R162). -/
def pixelStored (bit : Bool) (s : State) : State :=
  (s.withStore { s.store with pix := s.store.pix.write (cellKey s.load.slot s.load.fill.toNat) bit }).withLoad
    { s.load with fill := s.load.fill + 1 }

/-- `s` with the slot of the load valid, under the current dimensions, and the load closed (spec/43_frame_pipeline.md
R163). -/
def loadClosed (s : State) : State :=
  (s.withStore (s.store.setSlot s.load.slot { valid := true, w := s.ctl.width, h := s.ctl.height })).withLoad
    { s.load with isOpen := false }

/-- What a command that completes outside the fault state can do: the state that `i` leaves when it starts from `s`.
`RESET`, which completes in any state, stands apart in `Ends`. That a buffer stays within `BUFCAP` is said of one that
was within it: `RPUSH` tests for equality (spec/42_run_length_coder.md R140). -/
inductive Effect (i : Instr) (s : State) : State → Prop where
  | idles : Effect i s s
  | writes {bits : List Bool} {t : State} (written : writeBits bits s = .ok t) : Effect i s t
  | flushes (isFlush : i = .flush) : Effect i s (sinkFlush s)
  | appends (seq : List Bool) (room : s.coder.buf.length ≤ s.params.bufcap →
      s.coder.buf.length + seq.length ≤ s.params.bufcap) :
      Effect i s (s.withCoder { s.coder with buf := s.coder.buf ++ seq })
  | drains {bits : List Bool} {u : State} (written : writeBits bits s = .ok u) :
      Effect i s (u.withCoder { buf := [], runcnt := BitVec.ofNat 32 (runsOf s.coder.buf).length })
  | opensLoad {slot : SlotNo} (exists_ : slot.toNat < s.params.nslot) (dims : dimsValid s.params s.ctl = true) :
      Effect i s (loadOpened slot s)
  | storesPixel (bit : Bool) (isOpen : s.load.isOpen = true) (notFull : s.load.fill.toNat ≠ frameSize s.ctl) :
      Effect i s (pixelStored bit s)
  | closesLoad (isOpen : s.load.isOpen = true) (full : s.load.fill.toNat = frameSize s.ctl) : Effect i s (loadClosed s)
  | configures {c : Control} (lparam : LparamLegal s.ctl → LparamLegal c)
      (locked : s.load.isOpen = true → c.width = s.ctl.width ∧ c.height = s.ctl.height) : Effect i s (s.withCtl c)
  | responds (v : Word) : Effect i s (respond v s)

/-- All a scan does when it completes: it appends a sequence that fits (spec/43_frame_pipeline.md R165). -/
theorem effect_of_scan {i : Instr} {cur : SlotNo} {ref : Option SlotNo} {tr : Traversal} {s t : State}
    (h : scan cur ref tr s = .ok t) : Effect i s t := by
  obtain ⟨-, -, -, room, rfl⟩ := scan_ok h
  exact .appends _ fun _ => by simpa using room

/-- All a register write does when it completes: it configures (spec/44_control.md R191). -/
theorem effect_of_writeCsr {i : Instr} {addr : BitVec 8} {value : BitVec 32} {s t : State}
    (h : writeCsr addr value s = .ok t) : Effect i s t := by
  rcases writeCsr_ok h with ⟨-, -, rfl⟩ | ⟨-, legal, rfl⟩ | ⟨-, -, closed, rfl⟩ | ⟨-, -, closed, rfl⟩
  · exact .configures id fun _ => ⟨rfl, rfl⟩
  · exact .configures (fun _ => ((rlecfgLegal_iff value).1 legal).2) fun _ => ⟨rfl, rfl⟩
  · exact .configures id fun isOpen => by simp [closed] at isOpen
  · exact .configures id fun isOpen => by simp [closed] at isOpen

/-- `write_uint` writes bits when it completes. -/
theorem effect_of_writeUint {i : Instr} {v n : Nat} {s t : State} (h : writeUint v n s = .ok t) : Effect i s t := by
  unfold writeUint at h
  split_ifs at h
  · simp at h
  · exact .writes h

/-- How a command can end that starts from a running state: it completes, it faults with its own word in the record, or
it is `RESET`. -/
def Ends (i : Instr) (s t : State) : Prop :=
  Effect i s t ∨ (∃ c x, t = enterFault c (encode i) x s) ∨ (i = .reset ∧ t = resetState s)

/-- A command that runs an operation ends as the operation does. -/
theorem ends_of_operation {i : Instr} {body : State → Result} {s t : State} (hx : exec i s = runCommand i body s)
    (hr : Running s) (h : exec i s = .next t) (effect : body s = .ok t → Effect i s t) : Ends i s t := by
  rcases exec_inversion hx hr h with ok | ⟨c, x, -, rfl⟩
  · exact .inl (effect ok)
  · exact .inr (.inl ⟨c, x, rfl⟩)

/-- All a command can do from a running state. -/
theorem exec_ends {i : Instr} {s t : State} (hr : Running s) (h : exec i s = .next t) : Ends i s t := by
  cases i with
  | nop =>
    cases h
    exact .inl .idles
  | wbit bit =>
    refine ends_of_operation (exec_wbit bit s) hr h fun ok => .writes (bits := [bit]) ?_
    rw [writeBits_cons, ok]
    rfl
  | wuint value n =>
    refine ends_of_operation (exec_wuint value n s) hr h fun ok => ?_
    obtain ⟨-, -, ok⟩ := bind_eq_ok.1 ok
    exact effect_of_writeUint ok
  | wrice value k =>
    refine ends_of_operation (exec_wrice value k s) hr h fun ok => ?_
    obtain ⟨-, -, ok⟩ := bind_eq_ok.1 ok
    exact .writes ((writeRice_eq _ _ s).symm.trans ok)
  | flush =>
    refine ends_of_operation (exec_flush s) hr h fun ok => ?_
    cases ok
    exact .flushes rfl
  | rpush bit =>
    refine ends_of_operation (exec_rpush bit s) hr h fun ok => ?_
    split_ifs at ok with full
    · simp at ok
    · cases ok
      exact .appends [bit] fun fits => Nat.lt_of_le_of_ne fits full
  | rflush =>
    refine ends_of_operation (exec_rflush s) hr h fun ok => ?_
    obtain ⟨-, u, written, rfl⟩ := rleDrain_eq_ok.1 ok
    exact .drains written
  | fbegin slot =>
    refine ends_of_operation (exec_fbegin slot s) hr h fun ok => ?_
    simp only [bind_eq_ok, require_eq_ok, slotExists_iff] at ok
    obtain ⟨-, hslot, -, -, -, dims, ok⟩ := ok
    cases ok
    exact .opensLoad hslot dims
  | fpix bit =>
    refine ends_of_operation (exec_fpix bit s) hr h fun ok => ?_
    simp only [bind_eq_ok, require_eq_ok, decide_eq_true_eq] at ok
    obtain ⟨-, isOpen, -, notFull, u, written, ok⟩ := ok
    obtain ⟨-, -, rfl⟩ := pixWrite_ok written
    cases ok
    exact .storesPixel bit isOpen notFull
  | fend =>
    refine ends_of_operation (exec_fend s) hr h fun ok => ?_
    simp only [bind_eq_ok, require_eq_ok, decide_eq_true_eq] at ok
    obtain ⟨-, isOpen, -, full, ok⟩ := ok
    cases ok
    exact .closesLoad isOpen full
  | scanraw cur trav =>
    refine ends_of_operation (exec_scanraw cur trav s) hr h fun ok => ?_
    obtain ⟨-, -, ok⟩ := bind_eq_ok.1 ok
    exact effect_of_scan ok
  | scanxor cur ref trav =>
    refine ends_of_operation (exec_scanxor cur ref trav s) hr h fun ok => ?_
    obtain ⟨-, -, ok⟩ := bind_eq_ok.1 ok
    exact effect_of_scan ok
  | wcsr addr value => exact ends_of_operation (exec_wcsr addr value s) hr h effect_of_writeCsr
  | rcsr addr =>
    cases ha : csrAt addr with
    | none => exact ends_of_operation (exec_rcsr_undefined ha s) hr h fun ok => by simp at ok
    | some c =>
      rw [exec_rcsr_running hr ha] at h
      cases h
      exact .inl (.responds _)
  | reset =>
    cases h
    exact .inr (.inr ⟨rfl, rfl⟩)

/-- All a command can do in the fault state (spec/60_exceptions.md R267, R270). -/
theorem exec_in_fault {i : Instr} {s t : State} (hf : s.flt.fault = true) (h : exec i s = .next t) :
    t = s ∨ (∃ c, t = readInFault c s) ∨ (i = .reset ∧ t = resetState s) := by
  have discarded {body : State → Result} (hx : exec i s = runCommand i body s) : t = s := by
    simpa [hx, runCommand_fault hf, eq_comm] using h
  cases i with
  | nop =>
    cases h
    exact .inl rfl
  | wbit bit => exact .inl (discarded (exec_wbit ..))
  | wuint value n => exact .inl (discarded (exec_wuint ..))
  | wrice value k => exact .inl (discarded (exec_wrice ..))
  | flush => exact .inl (discarded (exec_flush ..))
  | rpush bit => exact .inl (discarded (exec_rpush ..))
  | rflush => exact .inl (discarded (exec_rflush ..))
  | fbegin slot => exact .inl (discarded (exec_fbegin ..))
  | fpix bit => exact .inl (discarded (exec_fpix ..))
  | fend => exact .inl (discarded (exec_fend ..))
  | scanraw cur trav => exact .inl (discarded (exec_scanraw ..))
  | scanxor cur ref trav => exact .inl (discarded (exec_scanxor ..))
  | wcsr addr value => exact .inl (discarded (exec_wcsr ..))
  | rcsr addr =>
    cases ha : csrAt addr with
    | none => exact .inl (discarded (exec_rcsr_undefined ha s))
    | some c =>
      rw [exec_rcsr_defined ha, if_pos hf] at h
      cases h
      exact .inr (.inl ⟨c, rfl⟩)
  | reset =>
    cases h
    exact .inr (.inr ⟨rfl, rfl⟩)

/-- All a step can do. -/
inductive StepTo (s : State) : State → Prop where
  | waits (none : s.cmds = []) : StepTo s s
  | completes {w : Cmd} (rest : List Cmd) {i : Instr} {t : State} (next : s.cmds = w :: rest)
      (decoded : decode w = .ok i) (running : Running s) (effect : Effect i (s.withCmds rest) t) : StepTo s t
  | faults (c : Cause) (w : Cmd) (x : Word) (rest : List Cmd) (running : Running s) :
      StepTo s (enterFault c w x (s.withCmds rest))
  | resets {w : Cmd} (rest : List Cmd) (next : s.cmds = w :: rest) (decoded : decode w = .ok .reset) :
      StepTo s (resetState (s.withCmds rest))
  | discards (rest : List Cmd) (faulted : s.flt.fault = true) : StepTo s (s.withCmds rest)
  | reads (c : Csr) (rest : List Cmd) (faulted : s.flt.fault = true) : StepTo s (readInFault c (s.withCmds rest))

/-- A step that gives a next state is one of `StepTo`. -/
theorem step_next {s t : State} (h : step s = .next t) : StepTo s t := by
  cases hq : s.cmds with
  | nil =>
    rw [step_nil hq] at h
    cases h
    exact .waits hq
  | cons w rest =>
    rw [step_cons hq] at h
    cases hd : decode w with
    | error e =>
      rw [hd] at h
      rcases illegalWord_next h with ⟨hf, rfl⟩ | ⟨hr, rfl⟩
      · exact .discards rest hf
      · exact .faults _ _ _ rest hr
    | ok i =>
      rw [hd] at h
      cases hf : s.flt.fault with
      | false =>
        rcases exec_ends (s := s.withCmds rest) hf h with effect | ⟨c, x, rfl⟩ | ⟨rfl, rfl⟩
        · exact .completes rest hq hd hf effect
        · exact .faults _ _ _ rest hf
        · exact .resets rest hq hd
      | true =>
        rcases exec_in_fault (s := s.withCmds rest) hf h with rfl | ⟨c, rfl⟩ | ⟨rfl, rfl⟩
        · exact .discards rest hf
        · exact .reads c rest hf
        · exact .resets rest hq hd

end Sys2Proof.Proofs.StepEffect

/-! The invariant of the machine (spec/10_state.md R44): reset establishes it, each update a step makes keeps it, and so
does every step. -/

namespace Sys2Proof.Proofs.Invariant

open Sys2Proof.Machine Sys2Proof.Safety Sys2Proof.Proofs.StepEffect

/-! ## Reset and fault entry -/

/-- Reset establishes the invariant (spec/10_state.md R45). -/
theorem inv_resetWith {p : Params} (legal : p.Legal) : Inv (State.resetWith p) := by
  have hw : 0 < p.w := legal.1
  have hnslot : 0 < p.nslot := legal.2.2.1
  exact
    { type :=
        { params := legal
          pos_lt := hw
          cur_lt := by simp [Emitter.reset]
          out_lt := List.forall_mem_nil _
          buf_le := Nat.zero_le _
          load_slot := hnslot
          pix_wf := Memory.wf_nil
          cause := fun faulted => Bool.noConfusion faulted }
      run := fun _ =>
        { emitter := ⟨legal.2.1, hw, Nat.one_pos, rfl, Nat.zero_le _, Nat.zero_le _, List.forall_mem_nil _⟩
          slots := fun n valid => by simp at valid
          load := fun isOpen => Bool.noConfusion isOpen
          lparam := Nat.zero_le _
          runcnt := Nat.zero_le _
          no_record := rfl } }

theorem truncWord_toNat_lt {w : Nat} (hw : w ≤ 64) (x : Word) : (truncWord w x).toNat < 2 ^ w := by
  have small : x.toNat % 2 ^ w < 2 ^ w := Nat.mod_lt _ (by positivity)
  rw [truncWord, BitVec.toNat_ofNat, Nat.mod_eq_of_lt (small.trans_le (Nat.pow_le_pow_right (by decide) hw))]
  exact small

/-- Fault entry establishes the invariant: every free value is of its element's type (spec/60_exceptions.md R266). -/
theorem inv_enterFault {s : State} (legal : s.params.Legal) (c : Cause) (w : Cmd) (x : Word) :
    Inv (enterFault c w x s) := by
  obtain ⟨hw, hw64, hnslot, -⟩ := id legal
  exact
    { type :=
        { params := legal
          pos_lt := Nat.mod_lt _ hw
          cur_lt := truncWord_toNat_lt hw64 _
          out_lt := by
            intro y hy
            obtain ⟨z, -, rfl⟩ := List.mem_map.1 hy
            exact truncWord_toNat_lt hw64 z
          buf_le := List.length_take_le _ _
          load_slot := by
            show (BitVec.ofNat 8 _).toNat < s.params.nslot
            rw [BitVec.toNat_ofNat]
            exact (Nat.mod_le _ _).trans_lt (Nat.mod_lt _ hnslot)
          pix_wf := Memory.wf_nil
          cause := fun _ => c.code_range }
      run := fun running => Bool.noConfusion running }

/-! ## Updates of one group -/

/-- The host's stream, the responses and the count of draws are not in the invariant. -/
theorem inv_host {s : State} (h : Inv s) (r : List Word) (q : List Cmd) (d : Nat) :
    Inv { s with resp := r, cmds := q, draws := d } where
  type := { h.type with }
  run := fun running =>
    have hr := h.run running
    { hr with
      slots := fun n valid => { hr.slots n valid with }
      load := fun isOpen => { hr.load isOpen with } }

theorem inv_withCmds {s : State} (h : Inv s) (q : List Cmd) : Inv (s.withCmds q) := inv_host h _ q _

/-- New contents of the two sinks, the emitting one meeting its own invariant. -/
theorem inv_withSinks {s : State} (h : Inv s) (n : BitVec 64) {e : Emitter} (he : EmitterInv s.params.w e) :
    Inv ((s.withCnt n).withEmit e) where
  type :=
    { h.type with
      pos_lt := he.pos_lt
      cur_lt := he.cur_lt.trans (Nat.pow_lt_pow_right (by decide) he.pos_lt)
      out_lt := he.out_lt }
  run := fun running =>
    have hr := h.run running
    { hr with
      emitter := he
      slots := fun n valid => { hr.slots n valid with }
      load := fun isOpen => { hr.load isOpen with } }

/-- A new coder of the right size. -/
theorem inv_withCoder {s : State} (h : Inv s) {c : Coder} (hbuf : c.buf.length ≤ s.params.bufcap)
    (hcnt : Running s → c.runcnt.toNat ≤ s.params.bufcap) : Inv (s.withCoder c) where
  type := { h.type with buf_le := hbuf }
  run := fun running =>
    have hr := h.run running
    { hr with
      runcnt := hcnt running
      slots := fun n valid => { hr.slots n valid with }
      load := fun isOpen => { hr.load isOpen with } }

/-- A new control group that keeps the dimensions while a load is open (spec/10_state.md R29). -/
theorem inv_withCtl {s : State} (h : Inv s) {c : Control} (lparam : LparamLegal s.ctl → LparamLegal c)
    (locked : s.load.isOpen = true → c.width = s.ctl.width ∧ c.height = s.ctl.height) : Inv (s.withCtl c) where
  type := { h.type with }
  run := fun running =>
    have hr := h.run running
    { hr with
      lparam := lparam hr.lparam
      slots := fun n valid => { hr.slots n valid with }
      load := fun isOpen => by
        obtain ⟨invalid, dims, fill_le, written⟩ := hr.load isOpen
        obtain ⟨hwidth, hheight⟩ := locked isOpen
        have same : frameSize c = frameSize s.ctl := by rw [frameSize, frameSize, hwidth, hheight]
        refine ⟨invalid, ?_, fill_le.trans_eq same.symm, written⟩
        rw [← dims]
        show dimsValid s.params c = dimsValid s.params s.ctl
        rw [dimsValid, dimsValid, same, hwidth, hheight] }

/-! ## The load commands -/

/-- A slot keeps its invariant while its entry is kept and no written cell becomes unwritten. -/
theorem slotInv_mono {s t : State} {n : SlotNo} (h : SlotInv s n) (hp : t.params = s.params)
    (hslot : t.slot n = s.slot n) (hw : ∀ a, pixWritten s n a = true → pixWritten t n a = true) : SlotInv t n := by
  obtain ⟨hn, hwidth, hheight, hsize, hwritten⟩ := h
  rw [← hp] at hn hsize
  rw [← hslot] at hwidth hheight hsize hwritten
  exact ⟨hn, hwidth, hheight, hsize, fun a ha => hw a (hwritten a ha)⟩

theorem loadOpened_slot_self (n : SlotNo) (s : State) : (loadOpened n s).slot n = { s.slot n with valid := false } :=
  State.slot_setSlot_self s n _

theorem loadOpened_slot_ne {n m : SlotNo} (s : State) (h : m ≠ n) : (loadOpened n s).slot m = s.slot m :=
  State.slot_setSlot_ne s _ h

theorem loadClosed_slot_self (s : State) :
    (loadClosed s).slot s.load.slot = { valid := true, w := s.ctl.width, h := s.ctl.height } :=
  State.slot_setSlot_self s _ _

theorem loadClosed_slot_ne {m : SlotNo} (s : State) (h : m ≠ s.load.slot) : (loadClosed s).slot m = s.slot m :=
  State.slot_setSlot_ne s _ h

theorem pixelStored_pixWritten (bit : Bool) (s : State) (n : SlotNo) (a : Nat) :
    pixWritten (pixelStored bit s) n a = (decide (n = s.load.slot ∧ a = s.load.fill.toNat) || pixWritten s n a) :=
  pixWritten_write s _ _ n _ a bit rfl

/-- `FBEGIN` keeps the invariant: the slot it loads becomes invalid, and no pixel has been asked for yet. -/
theorem inv_loadOpened {s : State} {slot : SlotNo} (h : Inv s) (hslot : slot.toNat < s.params.nslot)
    (dims : dimsValid s.params s.ctl = true) : Inv (loadOpened slot s) where
  type := { h.type with load_slot := hslot }
  run := fun running =>
    have hr := h.run running
    { hr with
      slots := fun n valid => by
        have hne : n ≠ slot := by
          rintro rfl
          simp [loadOpened_slot_self] at valid
        have same := loadOpened_slot_ne s hne
        exact slotInv_mono (hr.slots n (same ▸ valid)) rfl same fun _ => id
      load := fun _ =>
        { invalid := congrArg SlotInfo.valid (loadOpened_slot_self slot s)
          dims := dims
          fill_le := Nat.zero_le _
          written := fun a ha => absurd ha (Nat.not_lt_zero a) } }

/-- The slot that `FEND` makes valid meets the invariant, because the load has filled all its cells. -/
theorem slotInv_loadClosed {s : State} (ht : TypeInv s) (hload : LoadInv s)
    (full : s.load.fill.toNat = frameSize s.ctl) : SlotInv (loadClosed s) s.load.slot := by
  obtain ⟨hwidth, hheight, hsize⟩ := (dimsValid_iff _ _).1 hload.dims
  have pos {x : BitVec 16} (hx : x ≠ 0) : 1 ≤ x.toNat :=
    Nat.one_le_iff_ne_zero.2 fun zero => hx (BitVec.eq_of_toNat_eq zero)
  exact
    { exists_ := ht.load_slot
      w_pos := by simpa only [loadClosed_slot_self] using pos hwidth
      h_pos := by simpa only [loadClosed_slot_self] using pos hheight
      size_le := by
        simp only [loadClosed_slot_self]
        exact hsize
      written := by
        simp only [loadClosed_slot_self]
        exact fun a ha => hload.written a (ha.trans_eq full.symm) }

/-- `FEND` keeps the invariant. -/
theorem inv_loadClosed {s : State} (h : Inv s) (isOpen : s.load.isOpen = true)
    (full : s.load.fill.toNat = frameSize s.ctl) : Inv (loadClosed s) where
  type := { h.type with }
  run := fun running =>
    have hr := h.run running
    { hr with
      slots := fun n valid => by
        by_cases hn : n = s.load.slot
        · rw [hn]
          exact slotInv_loadClosed h.type (hr.load isOpen) full
        · have same := loadClosed_slot_ne s hn
          exact slotInv_mono (hr.slots n (same ▸ valid)) rfl same fun _ => id
      load := fun closed => Bool.noConfusion closed }

/-- The fill of an open load that is not full does not wrap round: `MAXPIX` is below 2^32 (spec/00_scope.md R6). -/
theorem fill_add_one {s : State} (ht : TypeInv s) (hload : LoadInv s)
    (notFull : s.load.fill.toNat ≠ frameSize s.ctl) : (s.load.fill + 1).toNat = s.load.fill.toNat + 1 := by
  obtain ⟨-, -, -, -, -, hmaxpix, hbufcap⟩ := ht.params
  obtain ⟨-, -, hsize⟩ := (dimsValid_iff _ _).1 hload.dims
  have hfill : s.load.fill.toNat < frameSize s.ctl := Nat.lt_of_le_of_ne hload.fill_le notFull
  have hframe : frameSize s.ctl ≤ s.params.maxpix := hsize
  rw [BitVec.toNat_add]
  exact Nat.mod_eq_of_lt (by show _ + 1 < 2 ^ 32; omega)

/-- What holds of the open load after `FPIX`: one more of its cells has been written. -/
theorem loadInv_pixelStored {s : State} (ht : TypeInv s) (hload : LoadInv s) (bit : Bool)
    (notFull : s.load.fill.toNat ≠ frameSize s.ctl) : LoadInv (pixelStored bit s) where
  invalid := hload.invalid
  dims := hload.dims
  fill_le := (fill_add_one ht hload notFull).trans_le (Nat.lt_of_le_of_ne hload.fill_le notFull)
  written := fun a ha => by
    have ha : a < s.load.fill.toNat + 1 := ha.trans_eq (fill_add_one ht hload notFull)
    show pixWritten (pixelStored bit s) s.load.slot a = true
    rw [pixelStored_pixWritten]
    rcases Nat.lt_succ_iff_lt_or_eq.1 ha with ha | rfl
    · simp [hload.written a ha]
    · simp

/-- `FPIX` keeps the invariant. -/
theorem inv_pixelStored {s : State} (h : Inv s) (bit : Bool) (isOpen : s.load.isOpen = true)
    (notFull : s.load.fill.toNat ≠ frameSize s.ctl) : Inv (pixelStored bit s) where
  type := { h.type with pix_wf := Memory.wf_write h.type.pix_wf _ _ }
  run := fun running =>
    have hr := h.run running
    { hr with
      slots := fun n valid => slotInv_mono (hr.slots n valid) rfl rfl fun a ha => by
        rw [pixelStored_pixWritten, ha, Bool.or_true]
      load := fun _ => loadInv_pixelStored h.type (hr.load isOpen) bit notFull }

/-! ## The sinks -/

/-- All a write of bits does to the state: the two sinks change, the emitting one keeping its invariant. -/
theorem writesBits_sinks {bits : List Bool} {s t : State} (he : EmitterInv s.params.w s.emit)
    (h : WritesBits bits s t) : ∃ n e, EmitterInv s.params.w e ∧ t = (s.withCnt n).withEmit e := by
  unfold WritesBits at h
  split_ifs at h
  · obtain ⟨ht, he', -⟩ := h
    exact ⟨s.cntBits, t.emit, by rw [ht] at he'; exact he', ht⟩
  · exact ⟨t.cntBits, s.emit, he, h.1⟩

/-- A write of bits keeps the invariant. -/
theorem inv_writeBits {bits : List Bool} {s t : State} (h : Inv s) (hr : Running s) (ht : writeBits bits s = .ok t) :
    Inv t := by
  have he := (h.run hr).emitter
  obtain ⟨n, e, he', rfl⟩ := writesBits_sinks he (writeBits_writes (fun _ => he) ht)
  exact inv_withSinks h n he'

/-- A flush keeps the invariant. -/
theorem inv_sinkFlush {s : State} (h : Inv s) (hr : Running s) : Inv (sinkFlush s) := by
  rcases sinkFlush_cases s with ⟨-, ht⟩ | ⟨-, hpos, ht⟩ <;> rw [ht]
  · exact h
  · exact inv_withSinks h s.cntBits (Emitter.finalize_spec (h.run hr).emitter hpos).1

theorem length_consRun_le (b : Bool) (runs : List Run) : (consRun b runs).length ≤ runs.length + 1 := by
  unfold consRun
  split
  · simp
  · split_ifs <;> simp

/-- A sequence has no more runs than elements. -/
theorem length_runsOf_le (bs : List Bool) : (runsOf bs).length ≤ bs.length := by
  induction bs with
  | nil => rfl
  | cons b bs ih =>
    rw [runsOf_cons]
    exact (length_consRun_le b _).trans (Nat.succ_le_succ ih)

/-! ## Every step -/

/-- A command that completes keeps the invariant. -/
theorem inv_effect {i : Instr} {s t : State} (h : Inv s) (hr : Running s) (effect : Effect i s t) : Inv t := by
  cases effect with
  | idles => exact h
  | writes written => exact inv_writeBits h hr written
  | flushes => exact inv_sinkFlush h hr
  | appends seq room => exact inv_withCoder h (by simpa using room h.type.buf_le) fun _ => (h.run hr).runcnt
  | drains written =>
    have he := (h.run hr).emitter
    obtain ⟨n, e, he', rfl⟩ := writesBits_sinks he (writeBits_writes (fun _ => he) written)
    refine inv_withCoder (inv_withSinks h n he') (Nat.zero_le _) fun _ => ?_
    exact ((Nat.mod_le _ _).trans (length_runsOf_le _)).trans h.type.buf_le
  | opensLoad hslot dims => exact inv_loadOpened h hslot dims
  | storesPixel bit isOpen notFull => exact inv_pixelStored h bit isOpen notFull
  | closesLoad isOpen full => exact inv_loadClosed h isOpen full
  | configures lparam locked => exact inv_withCtl h lparam locked
  | responds v => exact inv_host h _ _ _

/-- Settles O54: `inv_resetWith`, the default parameters being legal. -/
theorem resetStateMeetsTheInvariant : Obligations.ResetStateMeetsTheInvariant :=
  ⟨inv_resetWith (by decide), fun _ => inv_resetWith⟩

/-- Settles O55: by `step_next`, one lemma for each thing a step can do. -/
theorem stepKeepsTheInvariant : Obligations.StepKeepsTheInvariant := by
  intro s t h hstep
  cases step_next hstep with
  | waits => exact h
  | completes rest _ _ running effect => exact inv_effect (inv_withCmds h rest) running effect
  | faults c w x rest => exact inv_enterFault (s := s.withCmds rest) h.type.params c w x
  | resets => exact inv_host (inv_resetWith h.type.params) _ _ _
  | discards rest => exact inv_withCmds h rest
  | reads c rest =>
    obtain ⟨v, -, ht⟩ := readInFault_frame c (s.withCmds rest)
    rw [ht]
    exact inv_host h _ rest _

end Sys2Proof.Proofs.Invariant

/-! What the steps of a run without `RESET` and without a fault keep: counters and streams only grow
(spec/10_state.md R44 item 5), and an emitting sink without padding stays without it (item 4). -/

namespace Sys2Proof.Proofs.Growth

open Sys2Proof.Machine Sys2Proof.Safety Sys2Proof.Proofs.StepEffect Sys2Proof.Proofs.Invariant

/-! ## The words of `RESET` and `FLUSH` -/

/-- A word that decodes is matched by the row of the opcode map that builds its command (spec/30_encoding.md R73). -/
theorem exists_row_of_decode {w : Cmd} {i : Instr} (h : decode w = .ok i) :
    ∃ r ∈ opcodeMap, r.matches w = true ∧ r.build w = i := by
  unfold decode at h
  split at h
  · rename_i r hr
    exact ⟨r, List.mem_of_find?_eq_some hr, by simpa using List.find?_some hr, by simpa using h⟩
  · split_ifs at h

/-- A row of format `Z`, whose mask has every bit, matches its pattern alone (spec/30_encoding.md R71). -/
theorem eq_pattern_of_matches {r : OpRow} {w : Cmd} (hz : r.format = .z) (h : r.matches w = true) :
    w = r.pattern := by
  have all : Format.mask .z = BitVec.allOnes 64 := by decide
  rw [OpRow.matches, hz, all, BitVec.and_allOnes] at h
  exact eq_of_beq h

/-- The row of the opcode map that builds `RESET` (spec/30_encoding.md R74). -/
theorem reset_row : ∀ r ∈ opcodeMap, ∀ w, r.build w = .reset → r.format = .z ∧ r.pattern = 0x1F#64 := by
  simp [opcodeMap]

/-- The row of the opcode map that builds `FLUSH` (spec/30_encoding.md R74). -/
theorem flush_row : ∀ r ∈ opcodeMap, ∀ w, r.build w = .flush → r.format = .z ∧ r.pattern = encode .flush := by
  simp [opcodeMap, encode, Cmd.ofFields]

/-- One word decodes to `RESET`. -/
theorem eq_of_decode_reset {w : Cmd} (h : decode w = .ok .reset) : w = 0x1F#64 := by
  obtain ⟨r, hr, hm, hb⟩ := exists_row_of_decode h
  obtain ⟨hz, hp⟩ := reset_row r hr w hb
  exact (eq_pattern_of_matches hz hm).trans hp

/-- One word decodes to `FLUSH`. -/
theorem eq_of_decode_flush {w : Cmd} (h : decode w = .ok .flush) : w = encode .flush := by
  obtain ⟨r, hr, hm, hb⟩ := exists_row_of_decode h
  obtain ⟨hz, hp⟩ := flush_row r hr w hb
  exact (eq_pattern_of_matches hz hm).trans hp

/-! ## Growth -/

/-- No counter of `t` is below that of `s`, and the streams of `t` go on from those of `s`. -/
structure Grows (s t : State) : Prop where
  cnt : s.cntBits.toNat ≤ t.cntBits.toNat
  bits : s.emit.bits.toNat ≤ t.emit.bits.toNat
  words : s.emit.words.toNat ≤ t.emit.words.toNat
  out : s.emit.out <+: t.emit.out
  resp : s.resp <+: t.resp

theorem Grows.refl (s : State) : Grows s s :=
  ⟨le_rfl, le_rfl, le_rfl, ⟨[], List.append_nil _⟩, ⟨[], List.append_nil _⟩⟩

/-- A write of bits makes the selected sink grow. `EMIT_WORDS` grows because it is the length of `OUT`. -/
theorem grows_of_writesBits {bits : List Bool} {s t : State} (he : EmitterInv s.params.w s.emit)
    (h : WritesBits bits s t) : Grows s t := by
  unfold WritesBits at h
  split_ifs at h
  · obtain ⟨ht, he', -, hout, hbits⟩ := h
    rw [ht]
    exact
      { Grows.refl s with
        bits := hbits ▸ Nat.le_add_right _ _
        words := by
          show s.emit.words.toNat ≤ t.emit.words.toNat
          rw [he.words_eq, he'.words_eq]
          exact hout.length_le
        out := hout }
  · obtain ⟨ht, hcnt⟩ := h
    rw [ht]
    exact { Grows.refl s with cnt := hcnt ▸ Nat.le_add_right _ _ }

/-- A flush appends at most one word to `OUT`. -/
theorem grows_sinkFlush {s : State} (he : EmitterInv s.params.w s.emit) : Grows s (sinkFlush s) := by
  rcases sinkFlush_cases s with ⟨-, ht⟩ | ⟨-, hpos, ht⟩ <;> rw [ht]
  · exact Grows.refl s
  · obtain ⟨-, hwords, hbits, hout⟩ := Emitter.finalize_spec he hpos
    exact
      { Grows.refl s with
        bits := (congrArg BitVec.toNat hbits).ge
        words := (Nat.le_succ _).trans_eq hwords.symm
        out := ⟨_, hout.symm⟩ }

/-- A command that completes, other than `RESET`, makes counters and streams grow. -/
theorem grows_effect {i : Instr} {s t : State} (he : EmitterInv s.params.w s.emit) (effect : Effect i s t) :
    Grows s t := by
  cases effect with
  | writes written => exact grows_of_writesBits he (writeBits_writes (fun _ => he) written)
  | flushes => exact grows_sinkFlush he
  | drains written => exact { grows_of_writesBits he (writeBits_writes (fun _ => he) written) with }
  | responds v => exact { Grows.refl s with resp := ⟨[v], rfl⟩ }
  | idles | appends | opensLoad | storesPixel | closesLoad | configures => exact { Grows.refl s with }

/-- Settles O56: of the things a step can do, only the completion of a command other than `RESET` is left. -/
theorem countersAndStreamsOnlyGrow : Obligations.CountersAndStreamsOnlyGrow := by
  intro s t h hr hstep ht noReset
  have grows : Grows s t := by
    cases step_next hstep with
    | waits => exact Grows.refl s
    | completes rest _ _ _ effect => exact { grows_effect (s := s.withCmds rest) (h.run hr).emitter effect with }
    | faults => exact absurd ht (by simp [Running])
    | resets rest next decoded => exact absurd (by rw [next, eq_of_decode_reset decoded]; rfl) noReset
    | discards _ faulted => exact absurd (hr.symm.trans faulted) Bool.false_ne_true
    | reads _ _ faulted => exact absurd (hr.symm.trans faulted) Bool.false_ne_true
  obtain ⟨cnt, bits, words, out, resp⟩ := grows
  exact ⟨cnt, bits, words, out, resp⟩

/-! ## No padding -/

/-- The emitting sink holds `W` bits for each word of `OUT`, padding included, and `POS` more. -/
theorem length_emitStream {s : State} (he : EmitterInv s.params.w s.emit) :
    (emitStream s).length = s.params.w * s.emit.words.toNat + s.emit.pos := by
  simp [emitStream, List.length_flatMap, he.words_eq, Nat.mul_comm]

/-- The sink is unpadded when each bit it holds has been counted. -/
theorem unpadded_iff {s : State} (he : EmitterInv s.params.w s.emit) :
    Unpadded s ↔ s.emit.bits.toNat = (emitStream s).length := by
  rw [Unpadded, length_emitStream he]

/-- A write of bits pads nothing: it counts each bit it adds to the stream. -/
theorem unpadded_of_writesBits {bits : List Bool} {s t : State} (he : EmitterInv s.params.w s.emit)
    (h : WritesBits bits s t) (unpadded : Unpadded s) : Unpadded t := by
  have hparams := h.frame.2
  unfold WritesBits at h
  split_ifs at h
  · obtain ⟨-, he', hstream, -, hbits⟩ := h
    rw [unpadded_iff he] at unpadded
    rw [unpadded_iff (hparams ▸ he'), hstream, hbits, List.length_append, unpadded]
  · rw [h.1]
    exact unpadded

/-- A command that completes, other than a `FLUSH` of a partial word of the emitting sink, pads nothing. -/
theorem unpadded_effect {i : Instr} {s t : State} (he : EmitterInv s.params.w s.emit) (effect : Effect i s t)
    (unpadded : Unpadded s) (noPadding : ¬(i = .flush ∧ s.ctl.sinkSel = true ∧ 0 < s.emit.pos)) : Unpadded t := by
  cases effect with
  | writes written => exact unpadded_of_writesBits he (writeBits_writes (fun _ => he) written) unpadded
  | @drains bits u written =>
    have drained : Unpadded u := unpadded_of_writesBits he (writeBits_writes (fun _ => he) written) unpadded
    exact drained
  | flushes isFlush =>
    rcases sinkFlush_cases s with ⟨-, ht⟩ | ⟨hsel, hpos, -⟩
    · rw [ht]
      exact unpadded
    · exact absurd ⟨isFlush, hsel, hpos⟩ noPadding
  | idles | appends | opensLoad | storesPixel | closesLoad | configures | responds => exact unpadded

/-- Settles O57: a `RESET` empties the sink, and a command that completes pads nothing. -/
theorem unpaddedStreamStaysUnpadded : Obligations.UnpaddedStreamStaysUnpadded := by
  intro s t h hr hstep ht unpadded noPadding
  cases step_next hstep with
  | waits => exact unpadded
  | completes rest next decoded _ effect =>
    refine unpadded_effect (s := s.withCmds rest) (h.run hr).emitter effect unpadded ?_
    rintro ⟨rfl, padding⟩
    exact noPadding ⟨by rw [next, eq_of_decode_flush decoded]; rfl, padding⟩
  | faults => exact absurd ht (by simp [Running])
  | resets => exact rfl
  | discards _ faulted => exact absurd (hr.symm.trans faulted) Bool.false_ne_true
  | reads _ _ faulted => exact absurd (hr.symm.trans faulted) Bool.false_ne_true

end Sys2Proof.Proofs.Growth

/-! The registers and the parameters: what a step leaves alone, what `RESET` sets, what `RLECFG` reads as. -/

namespace Sys2Proof.Proofs.Registers

open Sys2Proof.Machine Sys2Proof.Safety Sys2Proof.Proofs.StepEffect

/-- A write of bits leaves the parameters alone, whatever the sink holds. -/
theorem writeBits_params {bits : List Bool} {s t : State} (h : writeBits bits s = .ok t) : t.params = s.params := by
  induction bits generalizing s with
  | nil =>
    cases h
    rfl
  | cons b bits ih =>
    obtain ⟨u, hu, ht⟩ := bind_eq_ok.1 h
    rw [ih ht]
    rcases sinkWriteBit_ok hu with ⟨-, -, rfl⟩ | ⟨-, -, rfl⟩ <;> rfl

/-- A command that completes leaves the parameters alone. -/
theorem effect_params {i : Instr} {s t : State} (effect : Effect i s t) : t.params = s.params := by
  cases effect with
  | writes written => exact writeBits_params written
  | @drains bits u written =>
    have drained : u.params = s.params := writeBits_params written
    exact drained
  | flushes =>
    rcases sinkFlush_cases s with ⟨-, ht⟩ | ⟨-, -, ht⟩ <;> rw [ht]
    rfl
  | idles | appends | opensLoad | storesPixel | closesLoad | configures | responds => rfl

/-- Settles O58: by `step_next`, no thing a step can do touches the parameters. -/
theorem parametersNeverChange : Obligations.ParametersNeverChange := by
  intro s t h
  cases step_next h with
  | completes rest _ _ _ effect => exact effect_params (s := s.withCmds rest) effect
  | reads c rest =>
    obtain ⟨v, -, ht⟩ := readInFault_frame c (s.withCmds rest)
    rw [ht]
    rfl
  | waits | faults | resets | discards => rfl

/-- Settles O10: `step_nil`. -/
theorem stepWithNoCommandKeepsTheState : Obligations.StepWithNoCommandKeepsTheState :=
  fun _ => step_nil

/-- Settles O49: `RESET` leaves `resetState`, and each of its elements is the reset one. -/
theorem resetGivesTheResetValues : Obligations.ResetGivesTheResetValues := by
  intro s
  have slots (n : SlotNo) : (resetState s).slot n = SlotInfo.reset :=
    (State.slot_congr rfl n).trans (State.resetWith_slot s.params n)
  exact ⟨resetState s, rfl, rfl, rfl, rfl, rfl, slots, fun _ _ => rfl, rfl, rfl, rfl, rfl, rfl⟩

/-! ## `RLECFG` -/

/-- The bits of `RLECFG` as it reads (spec/10_state.md R27). -/
theorem getLsbD_rlecfgWord (c : Control) (i : Nat) :
    (rlecfgWord c).getLsbD i =
      if i = 0 then c.vpol else if i = 1 then c.elide else if i = 2 then c.lmode else if i < 8 then false
      else c.lparam.getLsbD (i - 8) := by
  simp only [rlecfgWord, BitVec.getLsbD_setWidth, BitVec.getLsbD_append]
  match i with
  | 0 | 1 | 2 => simp
  | i + 3 =>
    by_cases reserved : i < 5
    · simp [reserved, show i + 3 < 8 by omega]
    · have inRange (h : c.lparam.getLsbD (i - 5) = true) : i + 3 < 64 := by
        have := BitVec.lt_of_getLsbD h
        omega
      simpa [reserved, show ¬i + 3 < 8 by omega] using inRange

/-- The reserved bits of a legal value are zero (spec/10_state.md R28). -/
theorem getLsbD_of_rlecfgLegal {v : BitVec 32} (legal : rlecfgLegal v = true) {i : Nat}
    (reserved : 3 ≤ i ∧ i < 8 ∨ 14 ≤ i) : v.getLsbD i = false := by
  obtain ⟨⟨low, high⟩, -⟩ := (rlecfgLegal_iff v).1 legal
  rcases reserved with ⟨h3, h8⟩ | h14
  · have := congrArg (fun x => x.getLsbD (i - 3)) low
    simpa [show i - 3 < 5 by omega, show 3 + (i - 3) = i by omega] using this
  · by_cases h32 : i < 32
    · have := congrArg (fun x => x.getLsbD (i - 14)) high
      simpa [show i - 14 < 18 by omega, show 14 + (i - 14) = i by omega] using this
    · exact BitVec.getLsbD_of_ge _ _ (by omega)

/-- A legal value is read back from the fields it was written to, bit for bit: its other bits are zero. -/
theorem rlecfgWord_setRlecfg (c : Control) {v : BitVec 32} (legal : rlecfgLegal v = true) :
    rlecfgWord (c.setRlecfg v) = v.setWidth 64 := by
  apply BitVec.eq_of_getLsbD_eq
  intro i hi
  rw [getLsbD_rlecfgWord, BitVec.getLsbD_setWidth, decide_eq_true hi, Bool.true_and]
  split_ifs with h0 h1 h2 h8
  · rw [h0]; rfl
  · rw [h1]; rfl
  · rw [h2]; rfl
  · exact (getLsbD_of_rlecfgLegal legal (.inl ⟨by omega, h8⟩)).symm
  · show (v.extractLsb' 8 6).getLsbD (i - 8) = v.getLsbD i
    rw [BitVec.getLsbD_extractLsb', show 8 + (i - 8) = i by omega]
    by_cases h14 : i - 8 < 6
    · rw [decide_eq_true h14, Bool.true_and]
    · rw [getLsbD_of_rlecfgLegal legal (.inr (by omega)), Bool.and_false]

/-- Settles O48: both commands complete, and the register reads as `rlecfgWord_setRlecfg` says. -/
theorem rlecfgReadsBackAsWritten : Obligations.RlecfgReadsBackAsWritten := by
  intro v s t u hr wellFormed hw hread
  have legal : rlecfgLegal v = true := by
    rw [rlecfgLegal_iff]
    simpa [Instr.wellFormed, wcsrWellFormed, and_assoc] using wellFormed
  have written : writeCsr 0x01#8 v s = .ok (s.withCtl (s.ctl.setRlecfg v)) := by
    show (require (rlecfgLegal v) .illegalCmd 0 >>= fun _ => _) = _
    rw [require_true legal]
    rfl
  rw [exec_completes (exec_wcsr _ v s) hr written] at hw
  cases hw
  have running : Running (s.withCtl (s.ctl.setRlecfg v)) := hr
  rw [exec_rcsr_running running (c := .rlecfg) (by decide)] at hread
  cases hread
  exact congrArg (fun word => s.resp ++ [word]) (rlecfgWord_setRlecfg s.ctl legal)

end Sys2Proof.Proofs.Registers

/-! The command word (spec/30_encoding.md R70 to R78): a word is a command exactly when it is that command's own
word. -/

namespace Sys2Proof.Proofs.Encoding

open Sys2Proof.Proofs.Growth

/-! ## At most one row of the opcode map matches (spec/30_encoding.md R73) -/

/-- Every mask fixes the whole `OP` field (spec/30_encoding.md R71). -/
theorem op_mask (f : Format) : Cmd.op f.mask = 0xFF#8 := by cases f <;> decide

/-- A word that matches a row has the row's opcode. -/
theorem op_eq_of_matches {r : OpRow} {w : Cmd} (h : r.matches w = true) : w.op = Cmd.op r.pattern := by
  obtain ⟨-, -, -, -, hop⟩ := (Cmd.and_eq_iff _ _ _).1 (eq_of_beq h)
  rwa [op_mask, and_ff] at hop

/-- No two rows have the same opcode (spec/30_encoding.md R74). -/
theorem opcodeMap_opcodes_ne : opcodeMap.Pairwise (fun r r' => Cmd.op r.pattern ≠ Cmd.op r'.pattern) := by decide

/-- Settles O4: a word has one `OP` field, and two rows have two opcodes. -/
theorem noWordMatchesTwoRows : Obligations.NoWordMatchesTwoRows :=
  opcodeMap_opcodes_ne.imp fun opcodes_ne _ both =>
    opcodes_ne ((op_eq_of_matches both.1).symm.trans (op_eq_of_matches both.2))

/-- Where no two elements of a list satisfy a test, a search finds each element that does. -/
theorem find?_eq_some_of_pairwise {α : Type} {p : α → Bool} {l : List α} {a : α}
    (alone : l.Pairwise (fun x y => ¬(p x = true ∧ p y = true))) (mem : a ∈ l) (holds : p a = true) :
    l.find? p = some a := by
  obtain ⟨before, after, rfl⟩ := List.append_of_mem mem
  obtain ⟨-, -, apart⟩ := List.pairwise_append.1 alone
  refine List.find?_eq_some_iff_append.2 ⟨holds, before, after, rfl, fun x hx => ?_⟩
  simpa [holds] using apart x hx a List.mem_cons_self

/-- A word decodes to what the row it matches builds from it, whichever row that is (spec/30_encoding.md R73). -/
theorem decode_eq_ok_iff_row {w : Cmd} {i : Instr} :
    decode w = .ok i ↔ ∃ r ∈ opcodeMap, r.matches w = true ∧ r.build w = i := by
  refine ⟨exists_row_of_decode, ?_⟩
  rintro ⟨r, mem, matched, rfl⟩
  have found : opcodeMap.find? (fun r => r.matches w) = some r :=
    find?_eq_some_of_pairwise (noWordMatchesTwoRows.imp fun alone => alone w) mem matched
  rw [decode, found]

/-! ## The rows of the opcode map against the encoder -/

/-- A word is made of given fields when it has each of them. -/
theorem ofFields_eq_iff {a : BitVec 32} {c1 c0 b op : BitVec 8} {w : Cmd} :
    Cmd.ofFields a c1 c0 b op = w ↔ w.op = op ∧ w.b = b ∧ w.c0 = c0 ∧ w.c1 = c1 ∧ w.a = a := by
  constructor
  · rintro rfl
    simp
  · rintro ⟨rfl, rfl, rfl, rfl, rfl⟩
    exact Cmd.ofFields_fields w

theorem toNat_bitField_getLsbD_zero (a : BitVec 32) : (bitField (a.getLsbD 0)).toNat = a.toNat % 2 := by
  rw [BitVec.getLsbD, Nat.testBit_zero]
  rcases Nat.mod_two_eq_zero_or_one a.toNat with h | h <;> simp [h, bitField]

/-- Bits 31 to 1 of `A` are zero when `A` is the one bit operand of format `BIT`. -/
theorem extract_a_eq_zero_iff (w : Cmd) : w.a.extractLsb' 1 31 = 0#31 ↔ w.a = bitField w.bit := by
  have bit_a : w.bit = w.a.getLsbD 0 := by simp [Cmd.bit, Cmd.a]
  have lt := w.a.isLt
  rw [bit_a, ← BitVec.toNat_inj, ← BitVec.toNat_inj, toNat_bitField_getLsbD_zero, BitVec.extractLsb'_toNat]
  simp only [BitVec.toNat_ofNat]
  omega

/-- Bits 7 to 1 of `B` are zero when `B` is the traversal operand of formats `SR` and `SX`. -/
theorem extract_b_eq_zero_iff (w : Cmd) : w.b.extractLsb' 1 7 = 0#7 ↔ w.b = travField w.trav := by
  have trav_b : w.trav = if w.b.getLsbD 0 then .colMajor else .rowMajor := by simp [Cmd.trav, Cmd.b]
  rw [trav_b]
  generalize w.b = b
  revert b
  decide

/-- The word with opcode `op` whose operands, where format `f` puts them, are those of `w`, and whose other bits are
zero (spec/30_encoding.md R71, R72). -/
def operandWord (f : Format) (op : BitVec 8) (w : Cmd) : Cmd :=
  match f with
  | .z => Cmd.ofFields 0 0 0 0 op
  | .bit => Cmd.ofFields (bitField w.bit) 0 0 0 op
  | .vn => Cmd.ofFields w.a 0 0 w.b op
  | .s => Cmd.ofFields 0 0 w.c0 0 op
  | .sr => Cmd.ofFields 0 0 w.c0 (travField w.trav) op
  | .sx => Cmd.ofFields 0 w.c1 w.c0 (travField w.trav) op
  | .cw => Cmd.ofFields w.a 0 0 w.b op
  | .cr => Cmd.ofFields 0 0 0 w.b op

/-- A word matches a row when it has nothing but the row's opcode and the operands of the row's format. -/
theorem matches_iff_operandWord (op : BitVec 8) (f : Format) (build : Cmd → Instr) (w : Cmd) :
    OpRow.matches ⟨Cmd.ofFields 0#32 0#8 0#8 0#8 op, f, build⟩ w = true ↔ operandWord f op w = w := by
  rw [OpRow.matches_eq]
  cases f <;>
    simp [Format.zeroFields, operandWord, ofFields_eq_iff, extract_a_eq_zero_iff, extract_b_eq_zero_iff] <;> tauto

/-- A word matches a row when it is the word of the command the row builds from it. -/
theorem matches_iff_encode_build : ∀ r ∈ opcodeMap, ∀ w, r.matches w = true ↔ encode (r.build w) = w := by
  simp [opcodeMap_eq, matches_iff_operandWord, operandWord, encode]

/-- The traversal is read back from its field. -/
theorem ite_travField_getLsbD_zero (t : Traversal) :
    (if (travField t).getLsbD 0 then .colMajor else .rowMajor) = t := by
  cases t <;> rfl

/-- Every command has a row that reads its operands back from its word. -/
theorem exists_row_build_encode (i : Instr) : ∃ r ∈ opcodeMap, r.build (encode i) = i := by
  cases i <;> simp [opcodeMap, encode, ite_travField_getLsbD_zero, -BitVec.getLsbD_eq_getElem]

/-- Settles O1: the row that reads the operands of `i` back matches the word of `i`. -/
theorem decodeOfEncodeIsTheCommand : Obligations.DecodeOfEncodeIsTheCommand := by
  intro i
  obtain ⟨r, mem, built⟩ := exists_row_build_encode i
  have matched : r.matches (encode i) = true := (matches_iff_encode_build r mem _).2 (by rw [built])
  exact decode_eq_ok_iff_row.2 ⟨r, mem, matched, built⟩

/-- Settles O2: the word matches the row that built the command from it. -/
theorem encodeOfDecodeIsTheWord : Obligations.EncodeOfDecodeIsTheWord := by
  intro w i h
  obtain ⟨r, mem, matched, rfl⟩ := decode_eq_ok_iff_row.1 h
  exact (matches_iff_encode_build r mem w).1 matched

/-- A word decodes to a command exactly when it is the command's word. -/
theorem decode_eq_ok_iff {w : Cmd} {i : Instr} : decode w = .ok i ↔ encode i = w := by
  refine ⟨encodeOfDecodeIsTheWord w i, ?_⟩
  rintro rfl
  exact decodeOfEncodeIsTheCommand i

/-- A word decodes to a command exactly when its fields are those of the command's word. -/
theorem decode_eq_ok_iff_fields {w : Cmd} {i : Instr} {a : BitVec 32} {c1 c0 b op : BitVec 8}
    (word : encode i = Cmd.ofFields a c1 c0 b op) :
    decode w = .ok i ↔ w.op = op ∧ w.b = b ∧ w.c0 = c0 ∧ w.c1 = c1 ∧ w.a = a := by
  rw [decode_eq_ok_iff, word, ofFields_eq_iff]

/-- Settles O3: the word of each command is written in fields. -/
theorem fieldsDecideTheCommand : Obligations.FieldsDecideTheCommand := fun _ =>
  ⟨decode_eq_ok_iff_fields rfl, fun _ => decode_eq_ok_iff_fields rfl, fun _ _ => decode_eq_ok_iff_fields rfl,
    fun _ _ => decode_eq_ok_iff_fields rfl, decode_eq_ok_iff_fields rfl, fun _ => decode_eq_ok_iff_fields rfl,
    decode_eq_ok_iff_fields rfl, fun _ => decode_eq_ok_iff_fields rfl, fun _ => decode_eq_ok_iff_fields rfl,
    decode_eq_ok_iff_fields rfl, fun _ => ⟨decode_eq_ok_iff_fields rfl, decode_eq_ok_iff_fields rfl⟩,
    fun _ _ => ⟨decode_eq_ok_iff_fields rfl, decode_eq_ok_iff_fields rfl⟩, fun _ _ => decode_eq_ok_iff_fields rfl,
    fun _ => decode_eq_ok_iff_fields rfl, decode_eq_ok_iff_fields rfl⟩

/-- Settles O5: each of the five words is the word of its command. -/
theorem specWordsDecodeToTheirCommands : Obligations.SpecWordsDecodeToTheirCommands :=
  ⟨decode_eq_ok_iff.2 rfl, decode_eq_ok_iff.2 rfl, decode_eq_ok_iff.2 rfl, decode_eq_ok_iff.2 rfl,
    decode_eq_ok_iff.2 rfl⟩

end Sys2Proof.Proofs.Encoding

/-! The operand-range checks (spec/30_encoding.md R76): every command that has one makes it before anything else, and
what is left of the command never raises `ILLEGAL_CMD`. -/

namespace Sys2Proof.Proofs.RangeChecks

open Sys2Proof.Machine Sys2Proof.Safety Sys2Proof.Proofs.Invariant

/-! ## What is left of a command after its range check -/

/-- The result of what is left of a command that is run from `s`: it completes and leaves the fault registers alone, it
raises a fault other than `ILLEGAL_CMD`, or it stops the model, which takes `stops`. -/
def ChecksPassed (stops : Prop) (s : State) : Result → Prop
  | .ok t => t.flt = s.flt
  | .error (.raise c _) => c ≠ .illegalCmd
  | .error (.stop _) => stops

theorem checksPassed_raise {stops : Prop} {s : State} {c : Cause} (hc : c ≠ .illegalCmd) (x : Nat) :
    ChecksPassed stops s (raise c x) := hc

/-- A test with a cause other than `ILLEGAL_CMD`, and then the rest. -/
theorem checksPassed_require {stops : Prop} {s : State} {cond : Bool} {c : Cause} {x : Nat} {f : Unit → Result}
    (hc : c ≠ .illegalCmd) (rest : cond = true → ChecksPassed stops s (f ())) :
    ChecksPassed stops s (require cond c x >>= f) := by
  cases hcond : cond with
  | false =>
    rw [require_false rfl]
    exact hc
  | true =>
    rw [require_true rfl]
    exact rest hcond

/-- Two operations in sequence. -/
theorem checksPassed_bind {stops : Prop} {s : State} {r : Result} {f : State → Result}
    (first : ChecksPassed stops s r) (rest : ∀ t, ChecksPassed stops t (f t)) : ChecksPassed stops s (r >>= f) := by
  match r, first with
  | .error (.raise _ _), first => exact first
  | .error (.stop _), first => exact first
  | .ok t, (first : t.flt = s.flt) =>
    have second := rest t
    unfold ChecksPassed at second ⊢
    rwa [first] at second

theorem checksPassed_sinkWriteBit (stops : Prop) (b : Bool) (s : State) :
    ChecksPassed stops s (sinkWriteBit b s) := by
  cases h : sinkWriteBit b s with
  | error e =>
    rw [sinkWriteBit_error h]
    exact Cause.noConfusion
  | ok t => rcases sinkWriteBit_ok h with ⟨-, -, rfl⟩ | ⟨-, -, rfl⟩ <;> rfl

theorem checksPassed_writeBits (stops : Prop) (bits : List Bool) (s : State) :
    ChecksPassed stops s (writeBits bits s) := by
  induction bits generalizing s with
  | nil => rfl
  | cons b bits ih => exact checksPassed_bind (checksPassed_sinkWriteBit stops b s) ih

theorem checksPassed_writeUint (stops : Prop) (v n : Nat) (s : State) : ChecksPassed stops s (writeUint v n s) := by
  unfold writeUint
  split_ifs
  · exact checksPassed_raise Cause.noConfusion v
  · exact checksPassed_writeBits ..

theorem checksPassed_writeRice (stops : Prop) (v k : Nat) (s : State) : ChecksPassed stops s (writeRice v k s) := by
  rw [writeRice_eq]
  exact checksPassed_writeBits ..

theorem checksPassed_writeLengthField (stops : Prop) (c : RleConfig) (atEnd : Bool) (r : Run) (s : State) :
    ChecksPassed stops s (writeLengthField c atEnd r s) := by
  unfold writeLengthField writeLength
  split_ifs
  · exact checksPassed_writeRice ..
  · exact checksPassed_writeUint ..
  · rfl

theorem checksPassed_drainRuns (stops : Prop) (c : RleConfig) (isFirst : Bool) (runs : List Run) (s : State) :
    ChecksPassed stops s (drainRuns c isFirst runs s) := by
  induction runs generalizing isFirst s with
  | nil => rfl
  | cons r rest ih =>
    have valueBit : ChecksPassed stops s (writeValueBit c isFirst r s) := by
      rw [writeValueBit_eq]
      exact checksPassed_writeBits ..
    exact checksPassed_bind valueBit fun t => checksPassed_bind (checksPassed_writeLengthField ..) (ih false)

theorem checksPassed_rleDrain (stops : Prop) (s : State) : ChecksPassed stops s (rleDrain s) :=
  checksPassed_bind (checksPassed_drainRuns ..) fun _ => rfl

/-- The tests of one slot, and then the rest of a scan. -/
theorem checksPassed_checkSlot {stops : Prop} {s : State} {n : SlotNo} {f : Unit → Result}
    (rest : ChecksPassed stops s (f ())) : ChecksPassed stops s (checkSlot s n >>= f) := by
  rw [checkSlot, bind_assoc]
  exact checksPassed_require Cause.noConfusion fun _ => checksPassed_require Cause.noConfusion fun _ => rest

theorem checksPassed_scan (stops : Prop) (cur : SlotNo) (ref : Option SlotNo) (t : Traversal) (s : State) :
    ChecksPassed stops s (scan cur ref t s) := by
  refine checksPassed_require Cause.noConfusion fun _ => checksPassed_checkSlot ?_
  cases ref with
  | none => exact checksPassed_require Cause.noConfusion fun _ => rfl
  | some r => exact checksPassed_checkSlot (checksPassed_require Cause.noConfusion fun _ => rfl)

/-! ## The check comes first -/

/-- A result that is a range check, and what is left of the command after it. -/
def ChecksFirst (stops : Prop) (s : State) (inRange : Bool) (r : Result) : Prop :=
  ∃ rest, r = (require inRange .illegalCmd 0 >>= rest) ∧ ChecksPassed stops s (rest ())

/-- A command without a range check. -/
theorem checksFirst_of_checksPassed {stops : Prop} {s : State} {r : Result} (h : ChecksPassed stops s r) :
    ChecksFirst stops s true r :=
  ⟨fun _ => r, rfl, h⟩

/-- A command whose range check always fails. -/
theorem checksFirst_raise (stops : Prop) (s : State) : ChecksFirst stops s false (raise .illegalCmd 0) :=
  ⟨fun _ => .ok s, rfl, rfl⟩

/-- The values legal for `RLECFG`, in the words of spec/30_encoding.md R76. -/
theorem wcsrWellFormed_rlecfg (value : BitVec 32) : wcsrWellFormed 0x01#8 value = rlecfgLegal value := by
  rw [Bool.eq_iff_iff, rlecfgLegal_iff]
  simp [wcsrWellFormed]

/-- The addresses that are not those of the four read-write registers (spec/10_state.md R25). -/
theorem csrAt_not_writable : ∀ addr, addr ≠ 0x00#8 → addr ≠ 0x01#8 → addr ≠ 0x02#8 → addr ≠ 0x03#8 →
    csrAt addr ≠ some .sinksel ∧ csrAt addr ≠ some .rlecfg ∧ csrAt addr ≠ some .width ∧
      csrAt addr ≠ some .height := by
  decide

/-- A write of `WIDTH` or `HEIGHT` tests the value, and then that no load is open. -/
theorem checksFirst_checkDimWrite {stops : Prop} {s : State} {value : BitVec 32} {f : Unit → Result}
    (rest : ChecksPassed stops s (f ())) :
    ChecksFirst stops s (decide (value.toNat < 65536)) (checkDimWrite value s >>= f) := by
  rw [checkDimWrite, bind_assoc, decide_eq_decide.2 Nat.lt_succ_iff]
  exact ⟨_, rfl, checksPassed_require Cause.noConfusion fun _ => rest⟩

/-- A register write tests first that the address is writable and the value legal (spec/44_control.md R191). -/
theorem checksFirst_writeCsr (stops : Prop) (addr : BitVec 8) (value : BitVec 32) (s : State) :
    ChecksFirst stops s (wcsrWellFormed addr value) (writeCsr addr value s) := by
  by_cases h0 : addr = 0x00#8
  · subst h0
    exact ⟨_, rfl, rfl⟩
  by_cases h1 : addr = 0x01#8
  · subst h1
    rw [wcsrWellFormed_rlecfg]
    exact ⟨_, rfl, rfl⟩
  by_cases h2 : addr = 0x02#8
  · subst h2
    exact checksFirst_checkDimWrite rfl
  by_cases h3 : addr = 0x03#8
  · subst h3
    exact checksFirst_checkDimWrite rfl
  have outOfRange : wcsrWellFormed addr value = false := by simp [wcsrWellFormed, h0, h1, h2, h3]
  obtain ⟨hsinksel, hrlecfg, hwidth, hheight⟩ := csrAt_not_writable addr h0 h1 h2 h3
  rw [outOfRange]
  unfold writeCsr
  split
  · exact absurd ‹_› hsinksel
  · exact absurd ‹_› hrlecfg
  · exact absurd ‹_› hwidth
  · exact absurd ‹_› hheight
  · exact checksFirst_raise stops s

/-- An open load is about to store a pixel in a cell that does not exist (spec/20_memory.md R52). -/
def StoresOutside (s : State) : Prop :=
  s.load.isOpen = true ∧ s.load.fill.toNat ≠ frameSize s.ctl ∧
    ¬(s.load.slot.toNat < s.params.nslot ∧ s.load.fill.toNat < s.params.maxpix)

/-- What a command is: an operation that begins with its range check, or, where there is nothing to check, a next state
that is running if `s` is. -/
inductive Meaning (i : Instr) (s : State) : Prop where
  | operation {body : State → Result} (hx : exec i s = runCommand i body s)
      (checksFirst : ChecksFirst (StoresOutside s) s (i.wellFormed s.params) (body s))
  | completes {t : State} (next : exec i s = .next t) (inRange : i.wellFormed s.params = true)
      (running : Running s → Running t)

/-- Every command makes its range check first (spec/30_encoding.md R76, spec/60_exceptions.md R263). -/
theorem exec_meaning (i : Instr) (s : State) : Meaning i s := by
  cases i with
  | nop => exact .completes rfl rfl id
  | wbit bit => exact .operation (exec_wbit ..) (checksFirst_of_checksPassed (checksPassed_sinkWriteBit ..))
  | wuint value n => exact .operation (exec_wuint ..) ⟨_, rfl, checksPassed_writeUint ..⟩
  | wrice value k => exact .operation (exec_wrice ..) ⟨_, rfl, checksPassed_writeRice ..⟩
  | flush =>
    refine .operation (exec_flush s) (checksFirst_of_checksPassed ?_)
    rcases sinkFlush_cases s with ⟨-, ht⟩ | ⟨-, -, ht⟩ <;> rw [ht] <;> rfl
  | rpush bit =>
    refine .operation (exec_rpush ..) (checksFirst_of_checksPassed ?_)
    split_ifs
    · exact checksPassed_raise Cause.noConfusion _
    · rfl
  | rflush => exact .operation (exec_rflush s) (checksFirst_of_checksPassed (checksPassed_rleDrain ..))
  | fbegin slot =>
    exact .operation (exec_fbegin ..) ⟨_, rfl,
      checksPassed_require Cause.noConfusion fun _ => checksPassed_require Cause.noConfusion fun _ => rfl⟩
  | fpix bit =>
    refine .operation (exec_fpix ..) (checksFirst_of_checksPassed ?_)
    refine checksPassed_require Cause.noConfusion fun isOpen => ?_
    refine checksPassed_require Cause.noConfusion fun notFull => ?_
    refine checksPassed_bind ?_ fun _ => rfl
    unfold pixWrite
    split_ifs with inside
    · rfl
    · exact ⟨isOpen, of_decide_eq_true notFull, inside⟩
  | fend =>
    exact .operation (exec_fend s) (checksFirst_of_checksPassed
      (checksPassed_require Cause.noConfusion fun _ => checksPassed_require Cause.noConfusion fun _ => rfl))
  | scanraw cur trav => exact .operation (exec_scanraw ..) ⟨_, rfl, checksPassed_scan ..⟩
  | scanxor cur ref trav => exact .operation (exec_scanxor ..) ⟨_, rfl, checksPassed_scan ..⟩
  | wcsr addr value => exact .operation (exec_wcsr ..) (checksFirst_writeCsr ..)
  | rcsr addr =>
    have inRange : (Instr.rcsr addr).wellFormed s.params = (csrAt addr).isSome := (csrAt_isSome addr).symm
    cases ha : csrAt addr with
    | none =>
      rw [ha] at inRange
      refine .operation (exec_rcsr_undefined ha s) ?_
      rw [inRange]
      exact checksFirst_raise _ s
    | some c =>
      rw [ha] at inRange
      cases hf : s.flt.fault with
      | false => exact .completes (exec_rcsr_running hf ha) inRange id
      | true =>
        refine .completes ((exec_rcsr_defined ha s).trans (if_pos hf)) inRange fun running => ?_
        exact absurd (running.symm.trans hf) Bool.false_ne_true
  | reset => exact .completes rfl rfl fun _ => rfl

/-! ## `ILLEGAL_CMD` -/

/-- Settles O7: the range check comes first, so whatever else would end the command does not. -/
theorem operandOutOfRangeRaisesIllegalCmd : Obligations.OperandOutOfRangeRaisesIllegalCmd := by
  intro i s hr outOfRange
  cases exec_meaning i s with
  | operation hx checksFirst =>
    obtain ⟨rest, checked, -⟩ := checksFirst
    rw [require_false outOfRange] at checked
    exact exec_raises hx hr checked
  | completes _ inRange => exact absurd (outOfRange.symm.trans inRange) Bool.false_ne_true

/-- Settles O8: the check passed, what is left of the command raises no `ILLEGAL_CMD`, and completing is no fault. -/
theorem operandsInRangeNeverRaiseIllegalCmd : Obligations.OperandsInRangeNeverRaiseIllegalCmd := by
  intro i s t hr inRange hexec faulted
  have notRunning : ¬Running t := fun running => Bool.false_ne_true (running.symm.trans faulted)
  cases exec_meaning i s with
  | operation hx checksFirst =>
    obtain ⟨rest, checked, passed⟩ := checksFirst
    rw [require_true inRange, bind_ok] at checked
    rw [← checked] at passed
    rcases exec_inversion hx hr hexec with ok | ⟨c, x, raised, rfl⟩
    · rw [ok] at passed
      exact absurd ((congrArg FaultRecord.fault passed).trans hr) notRunning
    · rw [raised] at passed
      exact fun illegal => passed (Cause.code_inj.1 illegal)
  | completes next _ running =>
    cases next.symm.trans hexec
    exact absurd (running hr) notRunning

/-- Settles O6: a word that does not decode is handled by `illegalWord`, which enters the fault state. -/
theorem illegalWordEntersTheFaultState : Obligations.IllegalWordEntersTheFaultState := by
  intro s w rest e hcmds hr undecoded
  have entered : step s = .next (enterFault .illegalCmd w 0 (s.withCmds rest)) := by
    rw [step_cons hcmds, undecoded]
    exact if_neg (by simp [hr])
  exact ⟨_, entered, rfl, rfl, rfl⟩

/-! ## The machine never stops -/

/-- The load engine of an invariant state points inside the frame store (spec/10_state.md R44 items 6 and 7). -/
theorem not_storesOutside {s : State} (h : Inv s) (hr : Running s) : ¬StoresOutside s := by
  rintro ⟨isOpen, notFull, outside⟩
  obtain ⟨-, dims, fill_le, -⟩ := (h.run hr).load isOpen
  obtain ⟨-, -, size_le⟩ := (dimsValid_iff _ _).1 dims
  have below : s.load.fill.toNat < s.params.maxpix := (Nat.lt_of_le_of_ne fill_le notFull).trans_le size_le
  exact outside ⟨h.type.load_slot, below⟩

/-- A command's operation ends, whatever its range check says, in a state or in a raised fault, unless a pixel is stored
outside the frame store. -/
theorem ok_or_raise_of_checksFirst {stops : Prop} {inRange : Bool} {s : State} {r : Result}
    (h : ChecksFirst stops s inRange r) (noStop : ¬stops) :
    (∃ t, r = .ok t) ∨ ∃ c x, r = .error (.raise c x) := by
  obtain ⟨rest, rfl, passed⟩ := h
  cases inRange with
  | false => exact .inr ⟨_, _, rfl⟩
  | true =>
    rw [require_true rfl, bind_ok]
    match rest (), passed with
    | .ok t, _ => exact .inl ⟨t, rfl⟩
    | .error (.raise c x), _ => exact .inr ⟨c, x, rfl⟩
    | .error (.stop _), stopped => exact absurd stopped noStop

/-- From an invariant state every command gives a next state. -/
theorem exec_next {s : State} (h : Inv s) (i : Instr) : ∃ t, exec i s = .next t := by
  cases exec_meaning i s with
  | completes next => exact ⟨_, next⟩
  | operation hx checksFirst =>
    cases hf : s.flt.fault with
    | true => exact ⟨s, hx.trans (runCommand_fault hf)⟩
    | false =>
      rcases ok_or_raise_of_checksFirst checksFirst (not_storesOutside h hf) with ⟨t, ok⟩ | ⟨c, x, raised⟩
      · exact ⟨t, exec_completes hx hf ok⟩
      · exact ⟨_, hx.trans (runCommand_raise hf raised)⟩

/-- A word that is no command gives a next state. -/
theorem illegalWord_gives_next (w : Cmd) (s : State) : ∃ t, illegalWord w s = .next t := by
  unfold illegalWord
  split_ifs <;> exact ⟨_, rfl⟩

/-- Settles O11: with no word pending the state is kept, and taking a word keeps the invariant. -/
theorem stepAlwaysGivesANextState : Obligations.StepAlwaysGivesANextState := by
  intro s h
  cases hcmds : s.cmds with
  | nil => exact ⟨s, step_nil hcmds⟩
  | cons w rest =>
    rw [step_cons hcmds]
    cases decode w with
    | error e => exact illegalWord_gives_next w _
    | ok i => exact exec_next (inv_withCmds h rest) i

end Sys2Proof.Proofs.RangeChecks

/-! The bit sink (spec/40_bit_sink.md): `WBIT` and `FLUSH` case by case, and the sink that is not selected. -/

namespace Sys2Proof.Proofs.BitSink

open Sys2Proof.Machine Sys2Proof.Safety Sys2Proof.Proofs.StepEffect

/-! ## Writing one bit (spec/40_bit_sink.md R101) -/

/-- `b & 1` as the 64-bit value that is shifted to `POS`. -/
theorem setWidth_ofBool (b : Bool) : (BitVec.ofBool b).setWidth 64 = if b then 1#64 else 0#64 := by
  cases b <;> rfl

/-- A bit that does not fill the partial word is only placed. -/
theorem writeBit_of_pos_ne {w : Nat} {e : Emitter} (h : e.pos + 1 ≠ w) (b : Bool) : e.writeBit w b = e.place b :=
  if_neg h

/-- The bit that fills the partial word finalizes it. -/
theorem writeBit_of_pos_eq {w : Nat} {e : Emitter} (h : e.pos + 1 = w) (b : Bool) :
    e.writeBit w b = (e.place b).finalize := if_pos h

theorem sinkWriteBit_counting {s : State} (sel : s.ctl.sinkSel = false) (room : s.cntBits ≠ BitVec.allOnes 64)
    (b : Bool) : sinkWriteBit b s = .ok (s.withCnt (s.cntBits + 1)) := by
  rw [sinkWriteBit, if_neg (ne_true_of_eq_false sel), if_neg room]

theorem sinkWriteBit_counting_overflow {s : State} (sel : s.ctl.sinkSel = false)
    (full : s.cntBits = BitVec.allOnes 64) (b : Bool) : sinkWriteBit b s = raise .counterOverflow 0 := by
  rw [sinkWriteBit, if_neg (ne_true_of_eq_false sel), if_pos full]

theorem sinkWriteBit_emitting {s : State} (sel : s.ctl.sinkSel = true) (room : s.emit.bits ≠ BitVec.allOnes 64)
    (b : Bool) : sinkWriteBit b s = .ok (s.withEmit (s.emit.writeBit s.params.w b)) := by
  rw [sinkWriteBit, if_pos sel, if_neg room]

theorem sinkWriteBit_emitting_overflow {s : State} (sel : s.ctl.sinkSel = true)
    (full : s.emit.bits = BitVec.allOnes 64) (b : Bool) : sinkWriteBit b s = raise .counterOverflow 0 := by
  rw [sinkWriteBit, if_pos sel, if_pos full]

/-- Settles O12: `sink_write_bit` on each sink, and on the emitting one by whether the bit fills the word. -/
theorem wbitFollowsSinkWriteBit : Obligations.WbitFollowsSinkWriteBit := by
  intro b s hr
  refine ⟨fun sel room => ?counts, fun sel full => ?countOverflows, fun sel room notFilled => ?places,
    fun sel room filled => ?finalizes, fun sel full => ?emitOverflows⟩
  case counts => exact exec_completes (exec_wbit b s) hr (sinkWriteBit_counting sel room b)
  case countOverflows => exact exec_raises (exec_wbit b s) hr (sinkWriteBit_counting_overflow sel full b)
  case places =>
    rw [exec_completes (exec_wbit b s) hr (sinkWriteBit_emitting sel room b), writeBit_of_pos_ne notFilled,
      Emitter.place, setWidth_ofBool]
    rfl
  case finalizes =>
    rw [exec_completes (exec_wbit b s) hr (sinkWriteBit_emitting sel room b), writeBit_of_pos_eq filled,
      Emitter.place, setWidth_ofBool]
    rfl
  case emitOverflows => exact exec_raises (exec_wbit b s) hr (sinkWriteBit_emitting_overflow sel full b)

/-! ## The flush (spec/40_bit_sink.md R102, R103) -/

/-- On the counting sink, or with no partial word, a flush does nothing. -/
theorem sinkFlush_eq_self {s : State} (h : s.ctl.sinkSel = false ∨ s.emit.pos = 0) : sinkFlush s = s := by
  rcases sinkFlush_cases s with ⟨-, kept⟩ | ⟨sel, pos, -⟩
  · exact kept
  · rcases h with h | h
    · exact absurd (h.symm.trans sel) Bool.false_ne_true
    · exact absurd h pos.ne'

/-- On the emitting sink a flush finalizes the partial word. -/
theorem sinkFlush_eq_finalize {s : State} (sel : s.ctl.sinkSel = true) (pos : 0 < s.emit.pos) :
    sinkFlush s = s.withEmit s.emit.finalize := by
  rw [sinkFlush, if_pos sel, if_pos pos]

/-- A flush leaves no partial word to flush. -/
theorem sinkFlush_sinkFlush (s : State) : sinkFlush (sinkFlush s) = sinkFlush s := by
  rcases sinkFlush_cases s with ⟨-, kept⟩ | ⟨-, -, finalized⟩
  · rw [kept, kept]
  · rw [finalized]
    exact sinkFlush_eq_self (.inr rfl)

/-- Settles O13: the two cases of `sink_flush`. -/
theorem flushFollowsSinkFlush : Obligations.FlushFollowsSinkFlush := by
  intro s hr
  rw [exec_flush_running hr]
  refine ⟨fun sel => ?_, fun sel pos => ?_, fun _ pos => ?_⟩
  · rw [sinkFlush_eq_self (.inl sel)]
  · rw [sinkFlush_eq_finalize sel pos]
    rfl
  · rw [sinkFlush_eq_self (.inr pos)]

/-- Settles O14, by `sinkFlush_sinkFlush`: the first flush has left a running state. -/
theorem secondFlushChangesNothing : Obligations.SecondFlushChangesNothing := by
  intro s t hr h
  rw [exec_flush_running hr] at h
  cases h
  have running : Running (sinkFlush s) := (congrArg FaultRecord.fault (sinkFlush_flt s)).trans hr
  rw [exec_flush_running running, sinkFlush_sinkFlush]

/-- Settles O15: the word appended is `CUR`, which is below `2 ^ POS`. -/
theorem flushedPaddingIsZero : Obligations.FlushedPaddingIsZero := by
  intro s hr he sel pos
  refine ⟨s.withEmit s.emit.finalize, s.emit.cur, ?_, rfl, getLsbD_eq_false_of_lt he.cur_lt⟩
  rw [exec_flush_running hr, sinkFlush_eq_finalize sel pos]

/-! ## The sink that is not selected (spec/40_bit_sink.md R103 (d), spec/10_state.md R26) -/

/-- A write of bits that completes replaces the selected sink and nothing else, whatever that sink holds. -/
theorem writeBits_ok {bits : List Bool} {s t : State} (h : writeBits bits s = .ok t) :
    (s.ctl.sinkSel = true ∧ ∃ e, t = s.withEmit e) ∨ (s.ctl.sinkSel = false ∧ ∃ n, t = s.withCnt n) := by
  induction bits generalizing s with
  | nil =>
    cases h
    cases sel : t.ctl.sinkSel with
    | true => exact .inl ⟨rfl, t.emit, rfl⟩
    | false => exact .inr ⟨rfl, t.cntBits, rfl⟩
  | cons b bits ih =>
    obtain ⟨u, hu, ht⟩ := bind_eq_ok.1 h
    rcases sinkWriteBit_ok hu with ⟨sel, -, rfl⟩ | ⟨sel, -, rfl⟩
    · rcases ih ht with ⟨-, e, rfl⟩ | ⟨sel', -⟩
      · exact .inl ⟨sel, e, rfl⟩
      · exact absurd (sel'.symm.trans sel) Bool.false_ne_true
    · rcases ih ht with ⟨sel', -⟩ | ⟨-, n, rfl⟩
      · exact absurd (sel.symm.trans sel') Bool.false_ne_true
      · exact .inr ⟨sel, n, rfl⟩

/-- The sink that `s` does not select is the same in `t`. -/
structure KeepsUnselected (s t : State) : Prop where
  emit : s.ctl.sinkSel = false → t.emit = s.emit
  cnt : s.ctl.sinkSel = true → t.cntBits = s.cntBits

theorem keepsUnselected_self (s : State) : KeepsUnselected s s := ⟨fun _ => rfl, fun _ => rfl⟩

theorem keepsUnselected_withEmit {s : State} (sel : s.ctl.sinkSel = true) (e : Emitter) :
    KeepsUnselected s (s.withEmit e) :=
  ⟨fun unsel => absurd (unsel.symm.trans sel) Bool.false_ne_true, fun _ => rfl⟩

theorem keepsUnselected_withCnt {s : State} (sel : s.ctl.sinkSel = false) (n : BitVec 64) :
    KeepsUnselected s (s.withCnt n) :=
  ⟨fun _ => rfl, fun unsel => absurd (sel.symm.trans unsel) Bool.false_ne_true⟩

theorem keepsUnselected_of_writeBits {bits : List Bool} {s t : State} (h : writeBits bits s = .ok t) :
    KeepsUnselected s t := by
  rcases writeBits_ok h with ⟨sel, e, rfl⟩ | ⟨sel, n, rfl⟩
  · exact keepsUnselected_withEmit sel e
  · exact keepsUnselected_withCnt sel n

theorem keepsUnselected_sinkFlush (s : State) : KeepsUnselected s (sinkFlush s) := by
  rcases sinkFlush_cases s with ⟨-, kept⟩ | ⟨sel, -, finalized⟩
  · rw [kept]
    exact keepsUnselected_self s
  · rw [finalized]
    exact keepsUnselected_withEmit sel _

/-- A command that completes, other than `RESET`, keeps the sink that is not selected: only the writes and the flush
reach a sink at all. -/
theorem keepsUnselected_of_effect {i : Instr} {s t : State} (effect : Effect i s t) : KeepsUnselected s t := by
  cases effect with
  | writes written => exact keepsUnselected_of_writeBits written
  | flushes => exact keepsUnselected_sinkFlush s
  | drains written => exact { keepsUnselected_of_writeBits written with }
  | idles | appends | opensLoad | storesPixel | closesLoad | configures | responds =>
    exact { keepsUnselected_self s with }

/-- Settles O16: of the ways a command can end, a fault does not leave a running state, and `RESET` is excluded. -/
theorem sinksAreIndependent : Obligations.SinksAreIndependent := by
  intro i s t hr h ht noReset
  rcases exec_ends hr h with effect | ⟨c, x, rfl⟩ | ⟨isReset, -⟩
  · obtain ⟨emit, cnt⟩ := keepsUnselected_of_effect effect
    exact ⟨emit, cnt⟩
  · exact absurd ht (by simp [Running])
  · exact absurd isReset noReset

end Sys2Proof.Proofs.BitSink

/-! The scalar codecs (spec/41_scalar_codec.md): the two codes read back, and `WUINT` and `WRICE` as writes of bits to the
selected sink. -/

namespace Sys2Proof.Proofs.ScalarCodec

open Sys2Proof.Machine Sys2Proof.Safety

/-! ## The codes and their inverses (spec/45_host_procedures.md R231, R232) -/

/-- A field begins with bit 0 of its value; its rest is the field of half the value. -/
theorem uintBits_succ (v n : Nat) : uintBits v (n + 1) = v.testBit 0 :: uintBits (v / 2) n := by
  simp [uintBits, List.range_succ_eq_map, Nat.testBit_succ]

/-- A field of `n` bits sees only the low `n` bits of its value. -/
theorem uintBits_mod_two_pow (v n : Nat) : uintBits (v % 2 ^ n) n = uintBits v n := by
  refine List.map_congr_left fun i hi => ?_
  have below : i < n := List.mem_range.1 hi
  simp [Nat.testBit_mod_two_pow, below]

theorem toNat_testBit_zero_add (v : Nat) : (v.testBit 0).toNat + 2 * (v / 2) = v := by
  rw [Nat.toNat_testBit, Nat.pow_zero, Nat.div_one]
  exact Nat.mod_add_div v 2

theorem readUint_uintBits {v n : Nat} (fits : v < 2 ^ n) (rest : List Bool) :
    readUint n (uintBits v n ++ rest) = some (v, rest) := by
  induction n generalizing v with
  | zero =>
    obtain rfl : v = 0 := Nat.lt_one_iff.1 fits
    rfl
  | succ n ih =>
    have half : v / 2 < 2 ^ n := by
      rw [Nat.pow_succ] at fits
      omega
    rw [uintBits_succ, List.cons_append, readUint, ih half]
    simp only [toNat_testBit_zero_add]

theorem readUnary_replicate (q : Nat) (rest : List Bool) :
    readUnary (List.replicate q true ++ false :: rest) = some (q, rest) := by
  induction q with
  | zero => rfl
  | succ q ih => rw [List.replicate_succ, List.cons_append, readUnary, ih]

/-- Quotient and remainder put together again (spec/41_scalar_codec.md R125). -/
theorem shiftRight_shiftLeft_or_mod (v k : Nat) : (v >>> k) <<< k ||| v % 2 ^ k = v := by
  rw [← Nat.shiftLeft_add_eq_or_of_lt (Nat.mod_lt v (Nat.two_pow_pos k)), Nat.shiftLeft_eq,
    Nat.shiftRight_eq_div_pow, Nat.div_add_mod']

theorem readRice_riceBits (v k : Nat) (rest : List Bool) : readRice k (riceBits v k ++ rest) = some (v, rest) := by
  have remainderFits : v % 2 ^ k < 2 ^ k := Nat.mod_lt v (Nat.two_pow_pos k)
  rw [riceBits, List.append_assoc, List.cons_append, readRice, readUnary_replicate]
  simp only [readUint_uintBits remainderFits, shiftRight_shiftLeft_or_mod]

/-- The length of a Rice code with its quotient as a division (spec/41_scalar_codec.md R121). -/
theorem riceBits_length_div (v k : Nat) : (riceBits v k).length = v / 2 ^ k + 1 + k := by
  rw [riceBits_length, Nat.shiftRight_eq_div_pow]

/-- Settles O21: `readUint_uintBits`, by induction on the width of the field. -/
theorem uintFieldReadsBack : Obligations.UintFieldReadsBack := fun v n rest fits =>
  ⟨readUint_uintBits fits rest, uintBits_length v n⟩

/-- Settles O22: the unary quotient and the remainder field are read back one after the other. -/
theorem riceCodeReadsBack : Obligations.RiceCodeReadsBack := fun v k rest =>
  ⟨readRice_riceBits v k rest, riceBits_length_div v k⟩

/-! ## Writes past the counter (spec/40_bit_sink.md R101) -/

/-- A counter below its maximum counts one more bit without wrapping. -/
theorem toNat_add_one_of_ne_allOnes {x : BitVec 64} (h : x ≠ BitVec.allOnes 64) : (x + 1).toNat = x.toNat + 1 := by
  have belowMax : x.toNat ≠ 2 ^ 64 - 1 := fun e => h (BitVec.eq_of_toNat_eq (by simpa using e))
  bv_omega

theorem writeBit_bits (w : Nat) (e : Emitter) (b : Bool) : (e.writeBit w b).bits = e.bits + 1 := by
  unfold Emitter.writeBit
  split_ifs <;> rfl

theorem sinkRoom_zero (s : State) : SinkRoom 0 s := by
  unfold SinkRoom
  split_ifs
  · exact s.emit.bits.isLt
  · exact s.cntBits.isLt

/-- The bit a sink has taken had room, besides the room that is left. The emitting sink need not meet its invariant. -/
theorem sinkRoom_succ_of_sinkWriteBit {b : Bool} {s t : State} {n : Nat} (h : sinkWriteBit b s = .ok t)
    (left : SinkRoom n t) : SinkRoom (n + 1) s := by
  rcases sinkWriteBit_ok h with ⟨sel, notFull, rfl⟩ | ⟨sel, notFull, rfl⟩
  · have counted : (s.emit.writeBit s.params.w b).bits.toNat = s.emit.bits.toNat + 1 := by
      rw [writeBit_bits, toNat_add_one_of_ne_allOnes notFull]
    simp only [SinkRoom, sel, if_true, State.withEmit_ctl, State.withEmit_emit] at left ⊢
    omega
  · have counted := toNat_add_one_of_ne_allOnes notFull
    simp only [SinkRoom, sel, Bool.false_eq_true, if_false, State.withCnt_ctl, State.withCnt_cntBits] at left ⊢
    omega

/-- A write of bits that completes had room for all of them. -/
theorem sinkRoom_of_writeBits {bits : List Bool} {s t : State} (h : writeBits bits s = .ok t) :
    SinkRoom bits.length s := by
  induction bits generalizing s with
  | nil => exact sinkRoom_zero s
  | cons b bits ih =>
    obtain ⟨u, first, others⟩ := bind_eq_ok.1 h
    exact sinkRoom_succ_of_sinkWriteBit first (ih others)

/-- Without room for all of them, a write of bits raises `COUNTER_OVERFLOW(0)`. -/
theorem writeBits_overflow {bits : List Bool} {s : State} (noRoom : ¬SinkRoom bits.length s) :
    writeBits bits s = .error (.raise .counterOverflow 0) := by
  cases h : writeBits bits s with
  | ok t => exact absurd (sinkRoom_of_writeBits h) noRoom
  | error e => rw [writeBits_error h]

/-! ## A command that is a write of bits -/

/-- With room for the bits, such a command writes them and nothing else. -/
theorem exec_writesBits {i : Instr} {bits : List Bool} {s : State} (hx : exec i s = runCommand i (writeBits bits) s)
    (hr : Running s) (sound : SinkSound s) (room : SinkRoom bits.length s) :
    ∃ t, exec i s = .next t ∧ WritesBits bits s t := by
  obtain ⟨t, written⟩ := writeBits_completes bits sound room
  exact ⟨t, exec_completes hx hr written, writeBits_writes sound written⟩

/-- Without it, such a command raises `COUNTER_OVERFLOW(0)`. -/
theorem exec_raises_counterOverflow {i : Instr} {bits : List Bool} {s : State}
    (hx : exec i s = runCommand i (writeBits bits) s) (hr : Running s) (noRoom : ¬SinkRoom bits.length s) :
    Raises i s 6 0 :=
  exec_raises hx hr (writeBits_overflow noRoom)

/-- `WUINT` of a value that fits is a write of its field (spec/41_scalar_codec.md R122). -/
theorem exec_wuint_eq_writeBits {value : BitVec 32} {n : BitVec 8} (hn : n.toNat ≤ 32)
    (fits : value.toNat < 2 ^ n.toNat) (s : State) :
    exec (.wuint value n) s = runCommand (.wuint value n) (writeBits (uintBits value.toNat n.toNat)) s := by
  simp only [exec_wuint, require_true (decide_eq_true hn), bind_ok, writeUint_eq fits]

/-- `WRICE` is a write of the Rice code of its value (spec/41_scalar_codec.md R123). -/
theorem exec_wrice_eq_writeBits (value : BitVec 32) {k : BitVec 8} (hk : k.toNat ≤ 31) (s : State) :
    exec (.wrice value k) s = runCommand (.wrice value k) (writeBits (riceBits value.toNat k.toNat)) s := by
  simp only [exec_wrice, require_true (decide_eq_true hk), bind_ok, writeRice_eq]

/-- The field of a word's value lists the word's own bits. -/
theorem uintBits_toNat (value : BitVec 32) (n : Nat) :
    uintBits value.toNat n = (List.range n).map (fun i => value.getLsbD i) := rfl

/-- The Rice code with its remainder read off the value's own low bits. -/
theorem riceBits_eq (v k : Nat) : riceBits v k = List.replicate (v / 2 ^ k) true ++ [false] ++ uintBits v k := by
  rw [riceBits, uintBits_mod_two_pow, Nat.shiftRight_eq_div_pow, List.append_assoc, List.singleton_append]

/-- Settles O17: the command is a write of `uintBits`, which are as many as the width. -/
theorem wuintWritesItsField : Obligations.WuintWritesItsField := by
  intro value n s hr sound hn fits room
  rw [← uintBits_toNat]
  exact exec_writesBits (exec_wuint_eq_writeBits hn fits s) hr sound (by rwa [uintBits_length])

/-- Settles O18: the command is a write of `riceBits`, in the form of `riceBits_eq`. -/
theorem wriceWritesItsCode : Obligations.WriceWritesItsCode := by
  intro value k s hr sound hk room
  rw [← uintBits_toNat, ← riceBits_eq]
  exact exec_writesBits (exec_wrice_eq_writeBits value hk s) hr sound (by rwa [riceBits_length_div])

/-- Settles O20: the bits of the field or the code are more than there is room for, so the write of them overflows. -/
theorem scalarWritePastTheCounterRaises : Obligations.ScalarWritePastTheCounterRaises := by
  intro value n s hr
  refine ⟨fun hn fits noRoom => ?field, fun hn noRoom => ?code⟩
  case field =>
    exact exec_raises_counterOverflow (exec_wuint_eq_writeBits hn fits s) hr (by rwa [uintBits_length])
  case code =>
    exact exec_raises_counterOverflow (exec_wrice_eq_writeBits value hn s) hr (by rwa [riceBits_length_div])

/-- Settles O19: the range test of `write_uint` comes before the first bit, so the sink does not matter. -/
theorem wuintOfATooWideValueRaisesUintRange : Obligations.WuintOfATooWideValueRaisesUintRange := by
  intro value n s hr hn tooWide
  refine exec_raises (c := .uintRange) (exec_wuint value n s) hr ?_
  rw [require_true (decide_eq_true hn), bind_ok, writeUint_range tooWide, BitVec.ofNat_toNat]

end Sys2Proof.Proofs.ScalarCodec

/-! The format of the run-length coder (spec/42_run_length_coder.md R143 to R149, R152): the runs of a sequence, the run
stream they are written as, and its length. -/

namespace Sys2Proof.Proofs.RunStream

open Sys2Proof.Machine Sys2Proof.Proofs.Invariant

/-! ## The runs of a sequence (spec/42_run_length_coder.md R143) -/

/-- The block of equal values that a run stands for. -/
def expand (r : Run) : List Bool := List.replicate r.len r.value

theorem consRun_of_eq {b : Bool} {r : Run} (h : r.value = b) (rs : List Run) :
    consRun b (r :: rs) = ⟨b, r.len + 1⟩ :: rs := if_pos h

theorem consRun_of_ne {b : Bool} {r : Run} (h : r.value ≠ b) (rs : List Run) :
    consRun b (r :: rs) = ⟨b, 1⟩ :: r :: rs := if_neg h

theorem flatMap_expand_consRun (b : Bool) (runs : List Run) :
    (consRun b runs).flatMap expand = b :: runs.flatMap expand := by
  cases runs with
  | nil => rfl
  | cons r rs =>
    by_cases same : r.value = b
    · rw [consRun_of_eq same, List.flatMap_cons, List.flatMap_cons, expand, expand, same]
      rfl
    · rw [consRun_of_ne same]
      rfl

theorem one_le_len_of_mem_consRun {b : Bool} {runs : List Run} (h : ∀ r ∈ runs, 1 ≤ r.len) :
    ∀ r ∈ consRun b runs, 1 ≤ r.len := by
  cases runs with
  | nil => simp [consRun]
  | cons r rs =>
    obtain ⟨-, later⟩ := List.forall_mem_cons.1 h
    by_cases same : r.value = b
    · rw [consRun_of_eq same]
      exact List.forall_mem_cons.2 ⟨Nat.le_add_left 1 _, later⟩
    · rw [consRun_of_ne same]
      exact List.forall_mem_cons.2 ⟨Nat.le_refl 1, h⟩

/-- Two runs of which the second has the opposite value. -/
abbrev Toggles (r r' : Run) : Prop := r'.value = !r.value

/-- Whether a run toggles the value of the one before it does not depend on the lengths. -/
theorem isChain_toggles_setLen {b : Bool} {r : Run} {rs : List Run} (same : r.value = b) (n : Nat)
    (h : (r :: rs).IsChain Toggles) : ((⟨b, n⟩ : Run) :: rs).IsChain Toggles := by
  subst same
  cases rs with
  | nil => exact List.isChain_singleton _
  | cons r' rs =>
    obtain ⟨toggles, later⟩ := List.isChain_cons_cons.1 h
    exact List.isChain_cons_cons.2 ⟨toggles, later⟩

theorem isChain_toggles_consRun (b : Bool) {runs : List Run} (h : runs.IsChain Toggles) :
    (consRun b runs).IsChain Toggles := by
  cases runs with
  | nil => exact List.isChain_singleton _
  | cons r rs =>
    by_cases same : r.value = b
    · rw [consRun_of_eq same]
      exact isChain_toggles_setLen same _ h
    · rw [consRun_of_ne same]
      exact List.isChain_cons_cons.2 ⟨Bool.eq_not.2 same, h⟩

/-- The runs of a sequence, expanded, are the sequence. -/
theorem flatMap_expand_runsOf (seq : List Bool) : (runsOf seq).flatMap expand = seq := by
  induction seq with
  | nil => rfl
  | cons b bs ih => rw [runsOf_cons, flatMap_expand_consRun, ih]

theorem one_le_len_of_mem_runsOf (seq : List Bool) : ∀ r ∈ runsOf seq, 1 ≤ r.len := by
  induction seq with
  | nil => exact List.forall_mem_nil _
  | cons b bs ih => exact one_le_len_of_mem_consRun ih

theorem isChain_toggles_runsOf (seq : List Bool) : (runsOf seq).IsChain Toggles := by
  induction seq with
  | nil => exact List.isChain_nil
  | cons b bs ih => exact isChain_toggles_consRun b ih

theorem sum_len_runsOf (seq : List Bool) : ((runsOf seq).map (fun r => r.len)).sum = seq.length := by
  conv_rhs => rw [← flatMap_expand_runsOf seq, List.length_flatMap]
  simp [expand]

/-- The neighbours of a sequence at which its value changes. -/
def changes (seq : List Bool) : List (Bool × Bool) := (seq.zip seq.tail).filter (fun p => p.1 != p.2)

/-- A sequence has one run more than changes of value. -/
theorem length_runsOf_cons (b : Bool) (bs : List Bool) :
    (runsOf (b :: bs)).length = 1 + (changes (b :: bs)).length := by
  induction bs generalizing b with
  | nil => rfl
  | cons c cs ih =>
    obtain ⟨n, rs, runs⟩ := runsOf_cons_value c cs
    have rest := ih c
    rw [runs] at rest
    rw [runsOf_cons, runs]
    by_cases same : c = b
    · rw [consRun_of_eq same, List.length_cons, ← List.length_cons (a := (⟨c, n + 1⟩ : Run)), rest]
      simp [changes, same]
    · rw [consRun_of_ne same, List.length_cons, rest]
      simp [changes, Ne.symm same]
      omega

/-- Settles O24: what `consRun` does to the runs of the tail gives each part by induction on the sequence; the sum of
the lengths is the length of the sequence that the runs expand to. -/
theorem runsAreTheMaximalBlocks : Obligations.RunsAreTheMaximalBlocks := by
  intro seq
  refine ⟨flatMap_expand_runsOf seq, one_le_len_of_mem_runsOf seq, sum_len_runsOf seq, isChain_toggles_runsOf seq,
    fun nonempty => ?_⟩
  obtain ⟨b, bs, rfl⟩ := List.exists_cons_of_ne_nil nonempty
  have count := length_runsOf_cons b bs
  exact ⟨count, by omega, length_runsOf_le _⟩

/-- The runs of a one-value sequence (spec/42_run_length_coder.md R149). -/
theorem runsOf_replicate_succ (n : Nat) (v : Bool) : runsOf (List.replicate (n + 1) v) = [⟨v, n + 1⟩] := by
  induction n with
  | zero => rfl
  | succ n ih =>
    rw [List.replicate_succ, runsOf_cons, ih]
    exact consRun_of_eq rfl []

/-! ## The run stream (spec/30_encoding.md R83, R84, spec/42_run_length_coder.md R147) -/

/-- The encoding of the first run begins with its value under either `VPOL` (spec/42_run_length_coder.md R144). -/
theorem runBits_first (c : RleConfig) (atEnd : Bool) (r : Run) :
    c.runBits true atEnd r = r.value :: (if c.writesLength atEnd then c.lengthBits r.len else []) := by
  simp [RleConfig.runBits, RleConfig.writesValue]

/-- A run that is not the first has a value bit only with `VPOL` = 0 (spec/42_run_length_coder.md R144). -/
theorem runBits_later (c : RleConfig) (atEnd : Bool) (r : Run) :
    c.runBits false atEnd r =
      (if c.vpol then [] else [r.value]) ++ (if c.writesLength atEnd then c.lengthBits r.len else []) := by
  cases h : c.vpol <;> simp [RleConfig.runBits, RleConfig.writesValue, h]

/-- A run that does not reach the end has its length field (spec/42_run_length_coder.md R146). -/
theorem writesLength_notAtEnd (c : RleConfig) : c.writesLength false = true := by
  simp [RleConfig.writesLength]

/-- The run that reaches the end has it only with `ELIDE` = 0 (spec/42_run_length_coder.md R146). -/
theorem writesLength_atEnd (c : RleConfig) : c.writesLength true = !c.elide := by
  simp [RleConfig.writesLength]

/-- Under `VPOL` = 0 the first run is written as any other. -/
theorem runListBits_first_of_vpol_false {c : RleConfig} (h : c.vpol = false) (runs : List Run) :
    c.runListBits true runs = c.runListBits false runs := by
  cases runs with
  | nil => rfl
  | cons r rs => simp [RleConfig.runListBits, runBits_first, runBits_later, h]

/-- Under `VPOL` = 1 the first run's value is all that is written besides the length fields. -/
theorem runListBits_first_of_vpol_true {c : RleConfig} (h : c.vpol = true) (r : Run) (rs : List Run) :
    c.runListBits true (r :: rs) = r.value :: c.runListBits false (r :: rs) := by
  simp [RleConfig.runListBits, runBits_first, runBits_later, h]

/-- All runs but the last are written the same way; the last is the one at the end. -/
theorem runListBits_later (c : RleConfig) (r : Run) (rs : List Run) :
    c.runListBits false (r :: rs) = (r :: rs).dropLast.flatMap (c.runBits false false) ++
      c.runBits false true ((r :: rs).getLast (List.cons_ne_nil r rs)) := by
  induction rs generalizing r with
  | nil => simp [RleConfig.runListBits]
  | cons r' rs ih =>
    have unfolded : c.runListBits false (r :: r' :: rs) =
        c.runBits false false r ++ c.runListBits false (r' :: rs) := rfl
    rw [unfolded, ih, List.dropLast_cons_cons, List.flatMap_cons, List.append_assoc, List.getLast_cons_cons]

/-- With `ELIDE` = 0 the last run is written as any other. -/
theorem runListBits_later_of_elide_false {c : RleConfig} (h : c.elide = false) (r : Run) (rs : List Run) :
    c.runListBits false (r :: rs) = (r :: rs).flatMap (c.runBits false false) := by
  have sameAtEnd : c.runBits false true = c.runBits false false := by
    funext x
    rw [RleConfig.runBits, RleConfig.runBits, writesLength_atEnd, writesLength_notAtEnd, h]
    rfl
  conv_rhs => rw [← List.dropLast_append_getLast (List.cons_ne_nil r rs)]
  rw [runListBits_later, sameAtEnd, List.flatMap_append, List.flatMap_singleton]

/-- Settles O25: `VPOL` decides about the first value bit, and `runListBits_later` splits off the run at the end. -/
theorem runStreamOfEachFlagCombination : Obligations.RunStreamOfEachFlagCombination := by
  rintro c seq _ r rs runs rfl
  have notAtEnd : c.runBits false false = fun x => (if c.vpol then [] else [x.value]) ++ c.lengthBits x.len := by
    funext x
    rw [runBits_later, writesLength_notAtEnd, if_pos rfl]
  have elided (he : c.elide = true) : c.runBits false true = fun x => if c.vpol then [] else [x.value] := by
    funext x
    simp [runBits_later, writesLength_atEnd, he]
  rw [RleConfig.runStream, runs]
  refine ⟨fun hv he => ?_, fun hv he => ?_, fun hv he => ?_, fun hv he => ?_⟩
  · rw [runListBits_first_of_vpol_false hv, runListBits_later_of_elide_false he]
    simp [notAtEnd, hv]
  · rw [runListBits_first_of_vpol_false hv, runListBits_later, elided he]
    simp [notAtEnd, hv]
  · rw [runListBits_first_of_vpol_true hv, runListBits_later_of_elide_false he]
    simp [notAtEnd, hv]
  · rw [runListBits_first_of_vpol_true hv, runListBits_later, elided he]
    simp [notAtEnd, hv]

/-- The run stream of a single run: its value, and its length unless it is elided. -/
theorem runListBits_singleton (c : RleConfig) (r : Run) :
    c.runListBits true [r] = r.value :: (if c.elide then [] else c.lengthBits r.len) := by
  have unfolded : c.runListBits true [r] = c.runBits true true r ++ [] := rfl
  rw [unfolded, List.append_nil, runBits_first, writesLength_atEnd]
  cases c.elide <;> rfl

/-- Settles O28: the only run is both the first and the one at the end. -/
theorem oneValueSequenceIsOneRun : Obligations.OneValueSequenceIsOneRun := by
  intro c n v positive
  obtain ⟨m, rfl⟩ := Nat.exists_eq_add_of_le' positive
  have run := runsOf_replicate_succ m v
  have stream : c.runStream (List.replicate (m + 1) v) = v :: (if c.elide then [] else c.lengthBits (m + 1)) := by
    rw [RleConfig.runStream, run, runListBits_singleton]
  refine ⟨run, fun elided => ?_, fun written => ?_⟩
  · rw [stream, elided]
    rfl
  · rw [stream, written]
    rfl

/-! ## Its length (spec/42_run_length_coder.md R152) -/

theorem length_lengthBits (c : RleConfig) (len : Nat) : (c.lengthBits len).length = c.lengthCost len := by
  unfold RleConfig.lengthBits RleConfig.lengthCost
  split_ifs
  · exact riceBits_length ..
  · exact uintBits_length ..

/-- The bits of the length fields that are written for a list of runs. -/
def lengthsCost (c : RleConfig) (runs : List Run) : Nat := ((c.codedRuns runs).map (fun r => c.lengthCost r.len)).sum

theorem lengthsCost_nil (c : RleConfig) : lengthsCost c [] = 0 := by
  simp [lengthsCost, RleConfig.codedRuns]

theorem lengthsCost_cons (c : RleConfig) (r : Run) (rs : List Run) :
    lengthsCost c (r :: rs) = (if c.writesLength rs.isEmpty then c.lengthCost r.len else 0) + lengthsCost c rs := by
  unfold lengthsCost
  rw [RleConfig.codedRuns_cons]
  split_ifs <;> simp

/-- Runs after the first: a value bit each with `VPOL` = 0, and the length fields. -/
theorem length_runListBits_later (c : RleConfig) (runs : List Run) :
    (c.runListBits false runs).length = (if c.vpol then 0 else runs.length) + lengthsCost c runs := by
  induction runs with
  | nil => simp [RleConfig.runListBits, lengthsCost_nil]
  | cons r rs ih =>
    have one : (c.runBits false rs.isEmpty r).length =
        (if c.vpol then 0 else 1) + (if c.writesLength rs.isEmpty then c.lengthCost r.len else 0) := by
      rw [runBits_later, List.length_append, apply_ite List.length, apply_ite List.length, length_lengthBits]
      rfl
    rw [RleConfig.runListBits, List.length_append, one, ih, lengthsCost_cons, List.length_cons]
    split_ifs <;> omega

/-- The run stream of a sequence is as long as the sequence's cost, whether its length fields fit or not. -/
theorem length_runStream (c : RleConfig) (seq : List Bool) : (c.runStream seq).length = c.cost seq := by
  cases seq with
  | nil => exact (lengthsCost_nil c).symm.trans (Nat.zero_add _).symm
  | cons b bs =>
    obtain ⟨n, rs, runs⟩ := runsOf_cons_value b bs
    have cost : c.cost (b :: bs) =
        (if c.vpol then 1 else (runsOf (b :: bs)).length) + lengthsCost c (runsOf (b :: bs)) := rfl
    rw [cost, RleConfig.runStream, runs]
    cases hv : c.vpol with
    | false =>
      rw [runListBits_first_of_vpol_false hv, length_runListBits_later, hv]
      rfl
    | true =>
      rw [runListBits_first_of_vpol_true hv, List.length_cons, length_runListBits_later, hv, Nat.add_comm]
      simp

end Sys2Proof.Proofs.RunStream

/-! The run-length coder's commands (spec/42_run_length_coder.md R140 to R142, R148, R150, R152): `RPUSH`, and `RFLUSH`
completing or raising one of its two faults. -/

namespace Sys2Proof.Proofs.RunLengthCoder

open Sys2Proof.Machine Sys2Proof.Safety Sys2Proof.Proofs.BitSink Sys2Proof.Proofs.ScalarCodec
open Sys2Proof.Proofs.RunStream

/-! ## `RPUSH` (spec/42_run_length_coder.md R140) -/

/-- Settles O23: the two branches of the test that the buffer is full. -/
theorem rpushAppendsOneBoolean : Obligations.RpushAppendsOneBoolean := by
  intro b s hr
  refine ⟨fun notFull => ?_, fun full => ?_⟩
  · exact exec_completes (exec_rpush b s) hr (if_neg notFull)
  · rw [← full]
    exact exec_raises (exec_rpush b s) hr (if_pos full)

/-! ## The selected sink's counter, whatever that sink holds (spec/40_bit_sink.md R101) -/

/-- `EMIT_BITS` or `CNT_BITS`, the counter of the selected sink. -/
def selectedCount (s : State) : Nat := if s.ctl.sinkSel then s.emit.bits.toNat else s.cntBits.toNat

theorem sinkRoom_iff {n : Nat} {s : State} : SinkRoom n s ↔ selectedCount s + n < 2 ^ 64 := by
  unfold SinkRoom selectedCount
  split_ifs <;> rfl

theorem sinkWriteBit_counts {b : Bool} {s t : State} (h : sinkWriteBit b s = .ok t) :
    selectedCount t = selectedCount s + 1 := by
  rcases sinkWriteBit_ok h with ⟨sel, notFull, rfl⟩ | ⟨sel, notFull, rfl⟩
  · simp only [selectedCount, State.withEmit_ctl, State.withEmit_emit, sel, if_true]
    rw [writeBit_bits, toNat_add_one_of_ne_allOnes notFull]
  · simp only [selectedCount, State.withCnt_ctl, State.withCnt_cntBits, sel, Bool.false_eq_true, if_false]
    exact toNat_add_one_of_ne_allOnes notFull

theorem writeBits_counts {bits : List Bool} {s t : State} (h : writeBits bits s = .ok t) :
    selectedCount t = selectedCount s + bits.length := by
  induction bits generalizing s with
  | nil =>
    cases h
    rfl
  | cons b bits ih =>
    obtain ⟨u, first, others⟩ := bind_eq_ok.1 h
    rw [ih others, sinkWriteBit_counts first, List.length_cons]
    omega

/-- `writeBits_completes` without its premise that the sink is sound. -/
theorem writeBits_ok_of_room (bits : List Bool) {s : State} (room : SinkRoom bits.length s) :
    ∃ t, writeBits bits s = .ok t := by
  induction bits generalizing s with
  | nil => exact ⟨s, rfl⟩
  | cons b bits ih =>
    obtain ⟨u, first⟩ := sinkWriteBit_completes b (room.mono (Nat.le_add_left 1 _))
    have left : SinkRoom bits.length u := by
      rw [sinkRoom_iff, List.length_cons] at room
      rw [sinkRoom_iff, sinkWriteBit_counts first]
      omega
    obtain ⟨t, others⟩ := ih left
    exact ⟨t, bind_eq_ok.2 ⟨u, first, others⟩⟩

/-! ## The drain that completes (spec/42_run_length_coder.md R141, R142, R148, R152) -/

/-- The coder after an `RFLUSH` of `seq`. -/
def drained (seq : List Bool) : Coder := { buf := [], runcnt := BitVec.ofNat 32 (runsOf seq).length }

/-- Where every length field fits, the drain is a write of the run stream, after which the coder is emptied. -/
theorem rleDrain_eq_of_fits {s : State} (fits : s.ctl.rleConfig.fits s.coder.buf = true) :
    rleDrain s = writeBits (s.ctl.rleConfig.runStream s.coder.buf) s >>= fun t =>
      .ok (t.withCoder (drained s.coder.buf)) := by
  rw [rleDrain, drainRuns_eq ((RleConfig.fits_iff _ _).1 fits)]
  rfl

/-- A write of bits does not touch the coder, so putting the coder back undoes any change of it. -/
theorem withCoder_withCoder_of_writeBits {bits : List Bool} {s t : State} (h : writeBits bits s = .ok t) (c : Coder) :
    (t.withCoder c).withCoder s.coder = t := by
  rcases writeBits_ok h with ⟨-, e, rfl⟩ | ⟨-, n, rfl⟩ <;> rfl

/-- Settles O26: by `rleDrain_eq_of_fits`, the write of the run stream having room. -/
theorem rflushWritesTheRunStream : Obligations.RflushWritesTheRunStream := by
  intro s hr sound fits room
  obtain ⟨u, written⟩ := writeBits_completes _ sound room
  have completes : rleDrain s = .ok (u.withCoder (drained s.coder.buf)) := by
    rw [rleDrain_eq_of_fits fits, written, bind_ok]
  refine ⟨_, exec_completes (exec_rflush s) hr completes, ?_, rfl⟩
  rw [withCoder_withCoder_of_writeBits written]
  exact writeBits_writes sound written

/-- Settles O27: an empty buffer has no runs, so the loop of the drain ends at once. -/
theorem rflushOfAnEmptyBufferWritesNothing : Obligations.RflushOfAnEmptyBufferWritesNothing := by
  intro s hr empty
  have completes : rleDrain s = .ok (s.withCoder { buf := [], runcnt := 0 }) := by
    rw [rleDrain, empty, runsOf_nil, drainRuns, bind_ok]
    rfl
  exact exec_completes (exec_rflush s) hr completes

/-- Settles O31: a drain that completes has written the run stream to the selected sink, whose counter it advances by
`length_runStream`, and left the other sink alone. -/
theorem rflushCountsTheCost : Obligations.RflushCountsTheCost := by
  intro s t hr _ h ht
  obtain ⟨-, u, written, rfl⟩ := rleDrain_eq_ok.1 (exec_inversion_running (exec_rflush s) hr h ht)
  have counted := writeBits_counts written
  rw [length_runStream] at counted
  rcases writeBits_ok written with ⟨sel, e, rfl⟩ | ⟨sel, n, rfl⟩
  · simp only [selectedCount, State.withEmit_ctl, sel, if_true] at counted
    exact ⟨fun unsel => absurd (unsel.symm.trans sel) Bool.false_ne_true, fun _ => ⟨counted, rfl⟩⟩
  · simp only [selectedCount, State.withCnt_ctl, sel, Bool.false_eq_true, if_false] at counted
    exact ⟨fun _ => ⟨counted, rfl⟩, fun unsel => absurd (sel.symm.trans unsel) Bool.false_ne_true⟩

/-! ## The drain that raises a fault (spec/42_run_length_coder.md R141, R150) -/

/-- Settles O30: the fields fit, so the drain is a write of the run stream, which is as long as the cost. -/
theorem rflushPastTheCounterRaises : Obligations.RflushPastTheCounterRaises := by
  intro s hr fits noRoom
  rw [← length_runStream] at noRoom
  refine exec_raises (c := .counterOverflow) (exec_rflush s) hr ?_
  rw [rleDrain_eq_of_fits fits, writeBits_overflow noRoom, bind_error]

theorem writeLength_of_fits {c : RleConfig} {len : Nat} (h : c.lengthFits len) (s : State) :
    writeLength c len s = writeBits (c.lengthBits len) s := by
  unfold writeLength RleConfig.lengthBits
  split_ifs with rice
  · exact writeRice_eq _ _ s
  · exact writeUint_eq (Or.resolve_left h rice) s

/-- A run whose length field, if it has one, fits: its encoding is written, and the drain goes on. -/
theorem drainRuns_cons_of_fits {c : RleConfig} {isFirst : Bool} {r : Run} {rs : List Run}
    (h : c.writesLength rs.isEmpty = true → c.lengthFits r.len) (s : State) :
    drainRuns c isFirst (r :: rs) s = writeBits (c.runBits isFirst rs.isEmpty r) s >>= drainRuns c false rs := by
  have lengthField (u : State) : writeLengthField c rs.isEmpty r u =
      writeBits (if c.writesLength rs.isEmpty then c.lengthBits r.len else []) u := by
    unfold writeLengthField
    split_ifs with written
    · exact writeLength_of_fits (h written) u
    · rfl
  rw [drainRuns, RleConfig.runBits, writeBits_append, bind_assoc, writeValueBit_eq]
  simp only [lengthField]

/-- A run whose length field does not fit: its value bit, if it has one, is written, and the fault is raised. -/
theorem drainRuns_cons_of_not_fits {c : RleConfig} {isFirst : Bool} {r : Run} {rs : List Run}
    (written : c.writesLength rs.isEmpty = true) (tooLong : ¬c.lengthFits r.len) (s : State) :
    drainRuns c isFirst (r :: rs) s = writeBits (if c.writesValue isFirst then [r.value] else []) s >>= fun _ =>
      .error (.raise .uintRange (BitVec.ofNat 64 (r.len - 1))) := by
  rw [drainRuns, writeValueBit_eq]
  simp only [writeLengthField, if_pos written, writeLength_range tooLong, bind_error]

/-- The drain of `runs` writes a part of their encodings and then raises `UINT_RANGE(len - 1)` for the run `r`. -/
def DrainRaises (c : RleConfig) (isFirst : Bool) (runs : List Run) (r : Run) : Prop :=
  ∃ bits, bits <+: c.runListBits isFirst runs ∧ ∀ s, drainRuns c isFirst runs s = writeBits bits s >>= fun _ =>
    .error (.raise .uintRange (BitVec.ofNat 64 (r.len - 1)))

theorem drainRaises_head {c : RleConfig} (isFirst : Bool) {r : Run} {rs : List Run}
    (written : c.writesLength rs.isEmpty = true) (tooLong : ¬c.lengthFits r.len) :
    DrainRaises c isFirst (r :: rs) r :=
  ⟨_, ⟨_, (List.append_assoc ..).symm⟩, drainRuns_cons_of_not_fits written tooLong⟩

theorem drainRaises_cons {c : RleConfig} (isFirst : Bool) {r x : Run} {rs : List Run}
    (h : c.writesLength rs.isEmpty = true → c.lengthFits x.len) (later : DrainRaises c false rs r) :
    DrainRaises c isFirst (x :: rs) r := by
  obtain ⟨bits, ⟨unwritten, stream⟩, raised⟩ := later
  refine ⟨c.runBits isFirst rs.isEmpty x ++ bits, ⟨unwritten, ?_⟩, fun s => ?_⟩
  · rw [RleConfig.runListBits, ← stream, List.append_assoc]
  · rw [drainRuns_cons_of_fits h, funext raised, writeBits_append, bind_assoc]

/-- The drain raises the fault for the first run whose length is written and does not fit. -/
theorem drainRaises_of_codedRuns {c : RleConfig} (isFirst : Bool) {runs fit rest : List Run} {r : Run}
    (coded : c.codedRuns runs = fit ++ r :: rest) (fits : ∀ x ∈ fit, c.lengthFits x.len)
    (tooLong : ¬c.lengthFits r.len) : DrainRaises c isFirst runs r := by
  induction runs generalizing isFirst fit with
  | nil => simp [RleConfig.codedRuns] at coded
  | cons x rs ih =>
    rw [RleConfig.codedRuns_cons] at coded
    by_cases written : c.writesLength rs.isEmpty = true
    · rw [if_pos written, List.singleton_append] at coded
      cases fit with
      | nil =>
        obtain ⟨rfl, -⟩ := List.cons.inj coded
        exact drainRaises_head isFirst written tooLong
      | cons y fit =>
        obtain ⟨rfl, codedLater⟩ := List.cons.inj coded
        obtain ⟨xFits, laterFit⟩ := List.forall_mem_cons.1 fits
        exact drainRaises_cons isFirst (fun _ => xFits) (ih false codedLater laterFit)
    · rw [if_neg written, List.nil_append] at coded
      exact drainRaises_cons isFirst (fun h => absurd h written) (ih false coded fits)

/-- Settles O29: by `drainRaises_of_codedRuns`, the bits written before the fault being no more than the cost. -/
theorem rflushRaisesUintRangeForTheFirstRunTooLong : Obligations.RflushRaisesUintRangeForTheFirstRunTooLong := by
  intro s fit r rest hr fixedWidth coded fits tooLong room
  have notFits : ¬s.ctl.rleConfig.lengthFits r.len := by
    rintro (rice | short)
    · exact Bool.false_ne_true (fixedWidth.symm.trans rice)
    · exact Nat.not_lt.2 tooLong short
  obtain ⟨bits, before, raised⟩ := drainRaises_of_codedRuns true coded (fun x hx => .inr (fits x hx)) notFits
  have roomBefore : SinkRoom bits.length s := room.mono (before.length_le.trans_eq (length_runStream _ _))
  obtain ⟨u, written⟩ := writeBits_ok_of_room bits roomBefore
  refine exec_raises (c := .uintRange) (exec_rflush s) hr ?_
  rw [rleDrain, raised, written, bind_ok, bind_error]

end Sys2Proof.Proofs.RunLengthCoder

/-! The traversals (spec/43_frame_pipeline.md R164) and the boolean sequence of a scan (R165, R168). The column-major
addresses of a frame transpose it, so those of the transposed frame undo them: that makes them a bijection. -/

namespace Sys2Proof.Proofs.Traversal

open Sys2Proof.Machine

/-! ## The addresses of a traversal (spec/43_frame_pipeline.md R164) -/

theorem traversalAddr_colMajor_eq (w h i : Nat) : traversalAddr .colMajor w h i = i % h * w + i / h := rfl

theorem div_lt_width {w h i : Nat} (hi : i < w * h) : i / h < w := Nat.div_lt_of_lt_mul (by rwa [Nat.mul_comm])

theorem height_pos {w h i : Nat} (hi : i < w * h) : 0 < h := Nat.pos_of_mul_pos_left (Nat.zero_lt_of_lt hi)

/-- The pixel of position `(x, y)` lies below `N`. -/
theorem pixelAddr_lt {w h x y : Nat} (hx : x < w) (hy : y < h) : y * w + x < w * h := by
  calc y * w + x < (y + 1) * w := by rw [Nat.succ_mul]; omega
    _ ≤ h * w := Nat.mul_le_mul_right w hy
    _ = w * h := Nat.mul_comm h w

theorem traversalAddr_lt (t : Traversal) {w h i : Nat} (hi : i < w * h) : traversalAddr t w h i < w * h := by
  cases t with
  | rowMajor => rwa [traversalAddr_rowMajor]
  | colMajor => exact pixelAddr_lt (div_lt_width hi) (Nat.mod_lt i (height_pos hi))

/-- Transposing the transposed frame gives the frame back. -/
theorem traversalAddr_colMajor_transpose {w h i : Nat} (hi : i < w * h) :
    traversalAddr .colMajor h w (traversalAddr .colMajor w h i) = i := by
  rw [traversalAddr_colMajor_eq w h, traversalAddr_colMajor h _ (div_lt_width hi)]
  exact Nat.div_add_mod' i h

theorem traversalAddr_injOn (t : Traversal) {w h i j : Nat} (hi : i < w * h) (hj : j < w * h)
    (same : traversalAddr t w h i = traversalAddr t w h j) : i = j := by
  cases t with
  | rowMajor => simpa only [traversalAddr_rowMajor] using same
  | colMajor => rw [← traversalAddr_colMajor_transpose hi, same, traversalAddr_colMajor_transpose hj]

theorem traversalAddr_surjOn (t : Traversal) {w h a : Nat} (ha : a < w * h) :
    ∃ i, i < w * h ∧ traversalAddr t w h i = a := by
  cases t with
  | rowMajor => exact ⟨a, ha, traversalAddr_rowMajor w h a⟩
  | colMajor =>
    have ha' : a < h * w := ha.trans_eq (Nat.mul_comm w h)
    exact ⟨traversalAddr .colMajor h w a, (traversalAddr_lt .colMajor ha').trans_eq (Nat.mul_comm h w),
      traversalAddr_colMajor_transpose ha'⟩

/-- Settles O40: the column-major addresses have an inverse, `traversalAddr_colMajor_transpose`. -/
theorem traversalVisitsEveryPixelOnce : Obligations.TraversalVisitsEveryPixelOnce := by
  intro t w h _ _
  exact ⟨fun _ => traversalAddr_lt t, fun _ _ => traversalAddr_injOn t, fun _ => traversalAddr_surjOn t,
    fun _ => ⟨rfl, rfl⟩, fun _ => rfl, fun i _ => traversalAddr_rowMajor w h i,
    fun x _ _ hy => traversalAddr_colMajor w x hy⟩

/-- The addresses a traversal visits are those below `N`, in another order. -/
theorem map_traversalAddr_perm (t : Traversal) (w h : Nat) :
    ((List.range (w * h)).map (traversalAddr t w h)).Perm (List.range (w * h)) := by
  have nodup : ((List.range (w * h)).map (traversalAddr t w h)).Nodup :=
    List.nodup_range.map_on fun i hi j hj => traversalAddr_injOn t (List.mem_range.1 hi) (List.mem_range.1 hj)
  refine (List.perm_ext_iff_of_nodup nodup List.nodup_range).2 fun a => ?_
  simp only [List.mem_map, List.mem_range]
  constructor
  · rintro ⟨i, hi, rfl⟩
    exact traversalAddr_lt t hi
  · exact traversalAddr_surjOn t

/-- The steps of a column-major traversal, column by column. -/
theorem range_mul_eq_flatMap (w h : Nat) :
    List.range (w * h) = (List.range w).flatMap (fun x => (List.range h).map (x * h + ·)) := by
  induction w with
  | zero => simp
  | succ w ih => rw [Nat.succ_mul, List.range_add, ih, List.range_succ, List.flatMap_append, List.flatMap_singleton]

/-! ## The sequence of a scan (spec/43_frame_pipeline.md R165, R168) -/

theorem scanPixel_none (s : State) (cur : SlotNo) : scanPixel s cur none = pixRead s cur := rfl

theorem scanPixel_some (s : State) (cur ref : SlotNo) :
    scanPixel s cur (some ref) = fun a => pixRead s cur a != pixRead s ref a := rfl

/-- Row-major, a scan takes the pixels in address order. -/
theorem scanSeq_rowMajor (s : State) (cur : SlotNo) (ref : Option SlotNo) :
    scanSeq s cur ref .rowMajor = (List.range (frameSize s.ctl)).map (scanPixel s cur ref) := by
  simp only [scanSeq, traversalAddr_rowMajor]

/-- Column-major, a scan takes the pixels column by column. -/
theorem scanSeq_colMajor (s : State) (cur : SlotNo) (ref : Option SlotNo) :
    scanSeq s cur ref .colMajor = (List.range s.ctl.width.toNat).flatMap (fun x =>
      (List.range s.ctl.height.toNat).map (fun y => scanPixel s cur ref (y * s.ctl.width.toNat + x))) := by
  rw [scanSeq, frameSize, range_mul_eq_flatMap, List.map_flatMap]
  refine congrArg₂ List.flatMap (funext fun x => ?_) rfl
  rw [List.map_map]
  refine List.map_congr_left fun y hy => ?_
  rw [Function.comp_apply, traversalAddr_colMajor _ x (List.mem_range.1 hy)]

theorem scanSeq_getElem? {s : State} {i : Nat} (hi : i < frameSize s.ctl) (cur : SlotNo) (ref : Option SlotNo)
    (tr : Traversal) : (scanSeq s cur ref tr)[i]? =
      some (scanPixel s cur ref (traversalAddr tr s.ctl.width.toNat s.ctl.height.toNat i)) := by
  rw [scanSeq, List.getElem?_map, List.getElem?_range hi, Option.map_some]

/-- The sequence of a scan is the row-major one, in another order. -/
theorem scanSeq_perm_rowMajor (s : State) (cur : SlotNo) (ref : Option SlotNo) (tr : Traversal) :
    (scanSeq s cur ref tr).Perm (scanSeq s cur ref .rowMajor) := by
  rw [scanSeq_rowMajor, scanSeq, ← Function.comp_def, ← List.map_map]
  exact (map_traversalAddr_perm tr _ _).map _

theorem scanSeq_comm (s : State) (a b : SlotNo) (tr : Traversal) :
    scanSeq s a (some b) tr = scanSeq s b (some a) tr := by
  simp only [scanSeq, scanPixel, Bool.xor_comm]

theorem scanSeq_self (s : State) (a : SlotNo) (tr : Traversal) :
    scanSeq s a (some a) tr = List.replicate (frameSize s.ctl) false := by
  simp only [scanSeq, scanPixel, Bool.xor_self, List.map_const', List.length_range]

/-- Settles O42, by `scanSeq_perm_rowMajor`. -/
theorem columnMajorDifferenceIsAPermutation : Obligations.ColumnMajorDifferenceIsAPermutation := by
  intro s cur ref _ _
  have perm := scanSeq_perm_rowMajor s cur (some ref) .colMajor
  refine ⟨fun i hi => ?_, perm, perm.count_eq true, fun tr i hi => ?_⟩
  · rw [scanSeq_getElem? hi, scanSeq_getElem? (traversalAddr_lt .colMajor hi), traversalAddr_rowMajor]
  · rw [scanSeq_getElem? hi, scanPixel_some]

end Sys2Proof.Proofs.Traversal

/-! The scan commands (spec/43_frame_pipeline.md R165 to R167): the tests of a scan in their order, each with the fault
it raises, and the sequence appended when all of them pass. -/

namespace Sys2Proof.Proofs.Scan

open Sys2Proof.Machine Sys2Proof.Safety Sys2Proof.Proofs.Traversal

/-! ## The tests, one after the other (spec/43_frame_pipeline.md R165) -/

theorem checkSlot_of_valid {s : State} {n : SlotNo}
    (h : s.slot n = { valid := true, w := s.ctl.width, h := s.ctl.height }) : checkSlot s n = .ok () :=
  checkSlot_ok.2 (by simp [h])

theorem checkSlot_invalid {s : State} {n : SlotNo} (h : (s.slot n).valid = false) :
    checkSlot s n = .error (.raise .slotInvalid (n.setWidth 64)) := by
  rw [checkSlot, require_false h, bind_error, BitVec.ofNat_toNat]

theorem checkSlot_mismatch {s : State} {n : SlotNo} (valid : (s.slot n).valid = true)
    (h : ¬((s.slot n).w = s.ctl.width ∧ (s.slot n).h = s.ctl.height)) :
    checkSlot s n = .error (.raise .dimMismatch (n.setWidth 64)) := by
  rw [checkSlot, require_true valid, bind_ok, require_false (decide_eq_false h), BitVec.ofNat_toNat]

theorem dimsValid_eq_false {p : Params} {c : Control}
    (h : ¬(c.width ≠ 0 ∧ c.height ≠ 0 ∧ c.width.toNat * c.height.toNat ≤ p.maxpix)) : dimsValid p c = false := by
  rwa [← Bool.not_eq_true, dimsValid_iff]

/-- The reference slot, if there is one, passes its tests. -/
def RefOk (s : State) (ref : Option SlotNo) : Prop := ∀ r, ref = some r → checkSlot s r = .ok ()

theorem refOk_none (s : State) : RefOk s none := fun _ => nofun

theorem refOk_some {s : State} {ref : SlotNo} (h : checkSlot s ref = .ok ()) : RefOk s (some ref) :=
  fun _ same => Option.some.inj same ▸ h

section Tests

variable {s : State} {cur : SlotNo}

theorem scan_cfgInvalid (dims : dimsValid s.params s.ctl = false) (cur : SlotNo) (ref : Option SlotNo)
    (tr : Traversal) :
    scan cur ref tr s = .error (.raise .cfgInvalid (BitVec.ofNat 64 (frameSize s.ctl))) := by
  unfold scan
  rw [require_false dims, bind_error]

theorem scan_of_cur_error (dims : dimsValid s.params s.ctl = true) {e : Trap} (h : checkSlot s cur = .error e)
    (ref : Option SlotNo) (tr : Traversal) : scan cur ref tr s = .error e := by
  unfold scan
  rw [require_true dims, bind_ok, h, bind_error]

theorem scan_of_ref_error (dims : dimsValid s.params s.ctl = true) (curOk : checkSlot s cur = .ok ()) {ref : SlotNo}
    {e : Trap} (h : checkSlot s ref = .error e) (tr : Traversal) : scan cur (some ref) tr s = .error e := by
  rw [scan, require_true dims, bind_ok, curOk, bind_ok]
  show checkSlot s ref >>= _ = _
  rw [h, bind_error]

/-- Once the dimensions and the slots have passed, a scan tests for room and appends. -/
theorem scan_of_slots_ok (dims : dimsValid s.params s.ctl = true) (curOk : checkSlot s cur = .ok ())
    {ref : Option SlotNo} (refOk : RefOk s ref) (tr : Traversal) :
    scan cur ref tr s =
      require (decide (s.coder.buf.length + frameSize s.ctl ≤ s.params.bufcap)) .bufOverflow
        (s.coder.buf.length + frameSize s.ctl) >>= fun _ =>
      .ok (s.withCoder { s.coder with buf := s.coder.buf ++ scanSeq s cur ref tr }) := by
  unfold scan
  rw [require_true dims, bind_ok, curOk, bind_ok]
  cases ref with
  | none => rfl
  | some r =>
    show checkSlot s r >>= _ = _
    rw [refOk r rfl, bind_ok]

theorem scan_bufOverflow (dims : dimsValid s.params s.ctl = true) (curOk : checkSlot s cur = .ok ())
    {ref : Option SlotNo} (refOk : RefOk s ref)
    (noRoom : s.params.bufcap < s.coder.buf.length + frameSize s.ctl) (tr : Traversal) :
    scan cur ref tr s = .error (.raise .bufOverflow (BitVec.ofNat 64 (s.coder.buf.length + frameSize s.ctl))) := by
  rw [scan_of_slots_ok dims curOk refOk, require_false (decide_eq_false (Nat.not_le.2 noRoom)), bind_error]

/-- The converse of `scan_ok`. -/
theorem scan_completes (dims : dimsValid s.params s.ctl = true) (curOk : checkSlot s cur = .ok ())
    {ref : Option SlotNo} (refOk : RefOk s ref)
    (room : s.coder.buf.length + frameSize s.ctl ≤ s.params.bufcap) (tr : Traversal) :
    scan cur ref tr s = .ok (s.withCoder { s.coder with buf := s.coder.buf ++ scanSeq s cur ref tr }) := by
  rw [scan_of_slots_ok dims curOk refOk, require_true (decide_eq_true room), bind_ok]

end Tests

/-! ## The two commands as scans (spec/43_frame_pipeline.md R166, R167) -/

theorem require_slotExists {p : Params} {n : SlotNo} (h : n.toNat < p.nslot) (c : Cause) (x : Nat) :
    require (slotExists p n) c x = .ok () :=
  require_true ((slotExists_iff p n).2 h) c x

section Commands

variable {cur ref : SlotNo} {tr : Traversal} {s : State}

theorem exec_scanraw_eq_scan (hcur : cur.toNat < s.params.nslot) :
    exec (.scanraw cur tr) s = runCommand (.scanraw cur tr) (fun _ => scan cur none tr s) s := by
  rw [exec_scanraw]
  simp only [runCommand, require_slotExists hcur, bind_ok]

theorem exec_scanxor_eq_scan (hcur : cur.toNat < s.params.nslot) (href : ref.toNat < s.params.nslot) :
    exec (.scanxor cur ref tr) s = runCommand (.scanxor cur ref tr) (fun _ => scan cur (some ref) tr s) s := by
  have both : (slotExists s.params cur && slotExists s.params ref) = true := by
    rw [Bool.and_eq_true, slotExists_iff, slotExists_iff]
    exact ⟨hcur, href⟩
  rw [exec_scanxor]
  simp only [runCommand, require_true both, bind_ok]

/-- A `SCANXOR` that leaves a running state has passed the tests of its slot numbers, and its scan has completed. -/
theorem scan_of_exec_scanxor {t : State} (hr : Running s) (h : exec (.scanxor cur ref tr) s = .next t)
    (ht : Running t) : cur.toNat < s.params.nslot ∧ ref.toNat < s.params.nslot ∧ scan cur (some ref) tr s = .ok t := by
  obtain ⟨_, existing, ok⟩ := bind_eq_ok.1 (exec_inversion_running (exec_scanxor cur ref tr s) hr h ht)
  rw [require_eq_ok, Bool.and_eq_true, slotExists_iff, slotExists_iff] at existing
  exact ⟨existing.1, existing.2, ok⟩

end Commands

/-- Settles O37, by `scan_completes` and the order of each traversal. -/
theorem scanrawAppendsThePixels : Obligations.ScanrawAppendsThePixels := by
  intro cur s hr hcur hwidth hheight hsize hslot room
  have completes (tr : Traversal) : exec (.scanraw cur tr) s =
      .next (s.withCoder { s.coder with buf := s.coder.buf ++ scanSeq s cur none tr }) :=
    exec_completes (exec_scanraw_eq_scan hcur) hr
      (scan_completes ((dimsValid_iff _ _).2 ⟨hwidth, hheight, hsize⟩) (checkSlot_of_valid hslot) (refOk_none s) room
        tr)
  constructor
  · rw [completes, scanSeq_rowMajor, scanPixel_none]
    rfl
  · rw [completes, scanSeq_colMajor, scanPixel_none]
    rfl

/-- Settles O38, as O37, with the slot of the reference tested too. -/
theorem scanxorAppendsTheDifference : Obligations.ScanxorAppendsTheDifference := by
  intro cur ref s hr hcur href hwidth hheight hsize hslot hslotRef room
  have completes (tr : Traversal) : exec (.scanxor cur ref tr) s =
      .next (s.withCoder { s.coder with buf := s.coder.buf ++ scanSeq s cur (some ref) tr }) :=
    exec_completes (exec_scanxor_eq_scan hcur href) hr
      (scan_completes ((dimsValid_iff _ _).2 ⟨hwidth, hheight, hsize⟩) (checkSlot_of_valid hslot)
        (refOk_some (checkSlot_of_valid hslotRef)) room tr)
  constructor
  · rw [completes, scanSeq_rowMajor, scanPixel_some]
    rfl
  · rw [completes, scanSeq_colMajor, scanPixel_some]
    rfl

/-- Settles O39: each clause is the lemma of its test. -/
theorem scanTestsInOrder : Obligations.ScanTestsInOrder := by
  intro cur ref tr s hr hcur href n dims fits
  have raw {c : Cause} {x : Word} (h : scan cur none tr s = .error (.raise c x)) :
      Raises (.scanraw cur tr) s c.code x :=
    exec_raises (exec_scanraw_eq_scan hcur) hr h
  have xor {c : Cause} {x : Word} (h : scan cur (some ref) tr s = .error (.raise c x)) :
      Raises (.scanxor cur ref tr) s c.code x :=
    exec_raises (exec_scanxor_eq_scan hcur href) hr h
  have legal (hd : dims) : dimsValid s.params s.ctl = true := (dimsValid_iff _ _).2 hd
  have slotOk {m : SlotNo} (valid : (s.slot m).valid = true) (hm : fits m) : checkSlot s m = .ok () :=
    checkSlot_ok.2 ⟨valid, hm⟩
  refine ⟨fun hd => ?cfgInvalid, fun hd invalid => ?curInvalid, fun hd valid mismatch => ?curMismatch,
    fun hd valid hcurFits noRoom => ?rawOverflow, fun hd valid hcurFits invalid => ?refInvalid,
    fun hd valid hcurFits refValid mismatch => ?refMismatch,
    fun hd valid hcurFits refValid hrefFits noRoom => ?xorOverflow⟩
  case cfgInvalid =>
    have illegal := dimsValid_eq_false hd
    exact ⟨raw (scan_cfgInvalid illegal ..), xor (scan_cfgInvalid illegal ..)⟩
  case curInvalid =>
    have e := checkSlot_invalid invalid
    exact ⟨raw (scan_of_cur_error (legal hd) e ..), xor (scan_of_cur_error (legal hd) e ..)⟩
  case curMismatch =>
    have e := checkSlot_mismatch valid mismatch
    exact ⟨raw (scan_of_cur_error (legal hd) e ..), xor (scan_of_cur_error (legal hd) e ..)⟩
  case rawOverflow => exact raw (scan_bufOverflow (legal hd) (slotOk valid hcurFits) (refOk_none s) noRoom tr)
  case refInvalid =>
    exact xor (scan_of_ref_error (legal hd) (slotOk valid hcurFits) (checkSlot_invalid invalid) tr)
  case refMismatch =>
    exact xor (scan_of_ref_error (legal hd) (slotOk valid hcurFits) (checkSlot_mismatch refValid mismatch) tr)
  case xorOverflow =>
    exact xor (scan_bufOverflow (legal hd) (slotOk valid hcurFits) (refOk_some (slotOk refValid hrefFits)) noRoom tr)

/-- Settles O41: the scan with the slots exchanged passes the same tests and appends the same sequence. -/
theorem scanxorIsSymmetric : Obligations.ScanxorIsSymmetric := by
  intro a b tr s t u v hr ht running hu hv runningV
  obtain ⟨ha, hb, scanned⟩ := scan_of_exec_scanxor hr ht running
  obtain ⟨-, -, scannedSelf⟩ := scan_of_exec_scanxor hr hv runningV
  obtain ⟨dims, aOk, bOk, room, rfl⟩ := scan_ok scanned
  obtain ⟨-, -, -, -, rfl⟩ := scan_ok scannedSelf
  have exchanged := scan_completes dims (bOk b rfl) (refOk_some aOk) room tr
  rw [exec_completes (exec_scanxor_eq_scan hb ha) hr exchanged, scanSeq_comm] at hu
  refine ⟨by cases hu; rfl, ?_⟩
  rw [scanSeq_self]
  rfl

end Sys2Proof.Proofs.Scan

/-! The load commands (spec/43_frame_pipeline.md R160 to R163): what each leaves when it completes, its faults, and a
whole frame loaded and scanned back. -/

namespace Sys2Proof.Proofs.FrameLoad

open Sys2Proof.Machine Sys2Proof.Safety Sys2Proof.Proofs.StepEffect Sys2Proof.Proofs.Invariant Sys2Proof.Proofs.Scan
open Sys2Proof.Proofs.Traversal

/-! ## The three commands when they complete -/

theorem exec_fbegin_completes {n : SlotNo} {s : State} (hr : Running s) (hn : n.toNat < s.params.nslot)
    (closed : s.load.isOpen = false) (dims : dimsValid s.params s.ctl = true) :
    exec (.fbegin n) s = .next (loadOpened n s) := by
  refine exec_completes (exec_fbegin n s) hr ?_
  rw [require_slotExists hn, bind_ok, require_true (by rw [closed]; rfl), bind_ok, require_true dims, bind_ok]
  rfl

/-- A load is open into a slot that exists, under dimensions that a slot can hold. -/
structure Loading (s : State) : Prop where
  running : Running s
  isOpen : s.load.isOpen = true
  slot_lt : s.load.slot.toNat < s.params.nslot
  size_le : frameSize s.ctl ≤ s.params.maxpix

theorem exec_fpix_completes {s : State} (h : Loading s) (notFull : s.load.fill.toNat < frameSize s.ctl) (b : Bool) :
    exec (.fpix b) s = .next (pixelStored b s) := by
  have written : pixWrite s.load.slot s.load.fill.toNat b s =
      .ok (s.withStore { s.store with pix := s.store.pix.write (cellKey s.load.slot s.load.fill.toNat) b }) :=
    if_pos ⟨h.slot_lt, notFull.trans_le h.size_le⟩
  refine exec_completes (exec_fpix b s) h.running ?_
  rw [require_true h.isOpen, bind_ok, require_true (decide_eq_true notFull.ne), bind_ok, written, bind_ok]
  rfl

theorem exec_fend_completes {s : State} (hr : Running s) (isOpen : s.load.isOpen = true)
    (full : s.load.fill.toNat = frameSize s.ctl) : exec .fend s = .next (loadClosed s) := by
  refine exec_completes (exec_fend s) hr ?_
  rw [require_true isOpen, bind_ok, require_true (decide_eq_true full), bind_ok]
  rfl

/-- `WIDTH × HEIGHT` fits the 32 bits of `LOAD_FILL`, whatever `MAXPIX` is. -/
theorem frameSize_lt (c : Control) : frameSize c < 2 ^ 32 := by
  have : frameSize c < 2 ^ 16 * 2 ^ 16 := Nat.mul_lt_mul'' c.width.isLt c.height.isLt
  exact this

/-- `LOAD_FILL` does not wrap round, in any state: `fill_add_one` says it of those that meet the invariant. -/
theorem pixelStored_fill {b : Bool} {s : State} (notFull : s.load.fill.toNat < frameSize s.ctl) :
    (pixelStored b s).load.fill.toNat = s.load.fill.toNat + 1 := by
  have small := frameSize_lt s.ctl
  show (s.load.fill + 1).toNat = _
  rw [BitVec.toNat_add]
  exact Nat.mod_eq_of_lt (by show _ + 1 < 2 ^ 32; omega)

theorem pixRead_pixelStored_self (b : Bool) (s : State) :
    pixRead (pixelStored b s) s.load.slot s.load.fill.toNat = b :=
  pixRead_write_self s _ _ _ b rfl

theorem pixRead_pixelStored_ne (b : Bool) (s : State) {n : SlotNo} {a : Nat}
    (h : ¬(n = s.load.slot ∧ a = s.load.fill.toNat)) : pixRead (pixelStored b s) n a = pixRead s n a :=
  pixRead_write_ne s _ b rfl rfl h

/-- Settles O33: the next state is `loadOpened`. -/
theorem fbeginOpensALoad : Obligations.FbeginOpensALoad := by
  intro n s hr hn closed hwidth hheight hsize
  exact ⟨loadOpened n s, exec_fbegin_completes hr hn closed ((dimsValid_iff _ _).2 ⟨hwidth, hheight, hsize⟩), rfl,
    loadOpened_slot_self n s, fun _ => loadOpened_slot_ne s⟩

/-- Settles O34: the next state is `pixelStored`. -/
theorem fpixStoresTheNextPixel : Obligations.FpixStoresTheNextPixel := by
  intro b s hr isOpen hslot notFull hsize
  refine ⟨pixelStored b s, exec_fpix_completes ⟨hr, isOpen, hslot, hsize⟩ notFull b, rfl, pixelStored_fill notFull,
    pixRead_pixelStored_self b s, ?_, fun n a other => ⟨pixRead_pixelStored_ne b s other, ?_⟩⟩
  · simp [pixelStored_pixWritten]
  · rw [pixelStored_pixWritten, decide_eq_false other, Bool.false_or]

/-- Settles O35: the next state is `loadClosed`. -/
theorem fendMakesTheSlotValid : Obligations.FendMakesTheSlotValid := by
  intro s hr isOpen full
  exact ⟨loadClosed s, exec_fend_completes hr isOpen full, rfl, loadClosed_slot_self s, fun _ => loadClosed_slot_ne s⟩

/-! ## Their faults -/

/-- Settles O36: each clause fails one test of its command, after passing those before it. -/
theorem loadCommandFaults : Obligations.LoadCommandFaults := by
  intro n b s hr
  refine ⟨fun hn isOpen => ?fbeginProtocol, fun hn closed illegal => ?fbeginDims, fun closed => ?fpixProtocol,
    fun isOpen full => ?fpixTooMany, fun closed => ?fendProtocol, fun isOpen notFull => ?fendCount⟩
  case fbeginProtocol =>
    refine exec_raises (c := .protocol) (exec_fbegin n s) hr ?_
    rw [require_slotExists hn, bind_ok, require_false (by rw [isOpen]; rfl), bind_error]
    rfl
  case fbeginDims =>
    have dims : dimsValid s.params s.ctl = false := dimsValid_eq_false fun ⟨hwidth, hheight, hsize⟩ =>
      illegal.elim hwidth fun h => h.elim hheight fun tooLarge => Nat.not_le.2 tooLarge hsize
    refine exec_raises (c := .cfgInvalid) (exec_fbegin n s) hr ?_
    rw [require_slotExists hn, bind_ok, require_true (by rw [closed]; rfl), bind_ok, require_false dims, bind_error]
    rfl
  case fpixProtocol =>
    refine exec_raises (c := .protocol) (exec_fpix b s) hr ?_
    rw [require_false closed, bind_error]
    rfl
  case fpixTooMany =>
    replace full : s.load.fill.toNat = frameSize s.ctl := full
    refine exec_raises (c := .dimMismatch) (exec_fpix b s) hr ?_
    rw [require_true isOpen, bind_ok, require_false (decide_eq_false (not_not_intro full)), bind_error]
  case fendProtocol =>
    refine exec_raises (c := .protocol) (exec_fend s) hr ?_
    rw [require_false closed, bind_error]
    rfl
  case fendCount =>
    replace notFull : s.load.fill.toNat ≠ frameSize s.ctl := notFull
    refine exec_raises (c := .dimMismatch) (exec_fend s) hr ?_
    rw [require_true isOpen, bind_ok, require_false (decide_eq_false notFull), bind_error]

/-! ## A whole frame (spec/43_frame_pipeline.md R160, R166) -/

/-- `s` after one `FPIX` for each of the bits. -/
def pixelsStored : List Bool → State → State
  | [], s => s
  | b :: bs, s => pixelsStored bs (pixelStored b s)

/-- Pixels that are stored change the cells and `LOAD_FILL` only. -/
theorem pixelsStored_frame (bs : List Bool) (s : State) : ∃ pix fill, pixelsStored bs s =
    (s.withStore { s.store with pix := pix }).withLoad { s.load with fill := fill } := by
  induction bs generalizing s with
  | nil => exact ⟨s.store.pix, s.load.fill, rfl⟩
  | cons b bs ih => exact ih (pixelStored b s)

theorem loading_pixelStored {s : State} (h : Loading s) (b : Bool) : Loading (pixelStored b s) := { h with }

section Fill

variable {s : State} {bs : List Bool}

theorem pixelStored_room {b : Bool} (room : s.load.fill.toNat + (b :: bs).length ≤ frameSize s.ctl) :
    s.load.fill.toNat < frameSize s.ctl ∧
      (pixelStored b s).load.fill.toNat + bs.length ≤ frameSize (pixelStored b s).ctl := by
  rw [List.length_cons] at room
  have notFull : s.load.fill.toNat < frameSize s.ctl := by omega
  refine ⟨notFull, ?_⟩
  rw [pixelStored_fill notFull]
  show s.load.fill.toNat + 1 + bs.length ≤ frameSize s.ctl
  omega

theorem pixelsStored_fill (room : s.load.fill.toNat + bs.length ≤ frameSize s.ctl) :
    (pixelsStored bs s).load.fill.toNat = s.load.fill.toNat + bs.length := by
  induction bs generalizing s with
  | nil => rfl
  | cons b bs ih =>
    obtain ⟨notFull, roomLeft⟩ := pixelStored_room room
    rw [pixelsStored, ih roomLeft, pixelStored_fill notFull, List.length_cons]
    omega

/-- The cells that have been filled read as what was there, followed by the pixels that were stored. -/
theorem map_pixRead_pixelsStored (room : s.load.fill.toNat + bs.length ≤ frameSize s.ctl) :
    (List.range (s.load.fill.toNat + bs.length)).map (pixRead (pixelsStored bs s) s.load.slot) =
      (List.range s.load.fill.toNat).map (pixRead s s.load.slot) ++ bs := by
  induction bs generalizing s with
  | nil => rw [pixelsStored, List.length_nil, Nat.add_zero, List.append_nil]
  | cons b bs ih =>
    obtain ⟨notFull, roomLeft⟩ := pixelStored_room room
    have kept : (List.range s.load.fill.toNat).map (pixRead (pixelStored b s) s.load.slot) =
        (List.range s.load.fill.toNat).map (pixRead s s.load.slot) :=
      List.map_congr_left fun a ha => pixRead_pixelStored_ne b s fun same => (List.mem_range.1 ha).ne same.2
    have later := ih roomLeft
    rw [pixelStored_fill notFull, Nat.add_assoc, Nat.add_comm 1] at later
    rw [List.length_cons, pixelsStored]
    refine later.trans ?_
    show (List.range (s.load.fill.toNat + 1)).map (pixRead (pixelStored b s) s.load.slot) ++ bs = _
    rw [List.range_succ, List.map_append, List.map_singleton, kept, pixRead_pixelStored_self, List.append_assoc,
      List.singleton_append]

/-- `FPIX` issued for each of the bits, before other commands. -/
theorem issueAll_fpix (h : Loading s) (room : s.load.fill.toNat + bs.length ≤ frameSize s.ctl) (rest : List Instr) :
    issueAll (bs.map .fpix ++ rest) s = issueAll rest (pixelsStored bs s) := by
  induction bs generalizing s with
  | nil => rfl
  | cons b bs ih =>
    obtain ⟨notFull, roomLeft⟩ := pixelStored_room room
    rw [List.map_cons, List.cons_append,
      issueAll_cons (Encoding.decodeOfEncodeIsTheCommand _) (exec_fpix_completes h notFull b),
      ih (loading_pixelStored h b) roomLeft, pixelsStored]

end Fill

/-- `s` after `LOADFRAME n, pixels` (spec/30_encoding.md R79). -/
def frameLoaded (n : SlotNo) (pixels : List Bool) (s : State) : State :=
  loadClosed (pixelsStored pixels (loadOpened n s))

section Frame

variable {n : SlotNo} {pixels : List Bool} {s : State}

/-- A loaded frame changes the cells, the entry of its slot and the load engine only. -/
theorem frameLoaded_frame (n : SlotNo) (pixels : List Bool) (s : State) :
    ∃ store load, frameLoaded n pixels s = (s.withStore store).withLoad load := by
  obtain ⟨pix, fill, stored⟩ := pixelsStored_frame pixels (loadOpened n s)
  refine ⟨(frameLoaded n pixels s).store, (frameLoaded n pixels s).load, ?_⟩
  rw [frameLoaded, stored]
  rfl

theorem frameLoaded_slot_self (n : SlotNo) (pixels : List Bool) (s : State) :
    (frameLoaded n pixels s).slot n = { valid := true, w := s.ctl.width, h := s.ctl.height } := by
  obtain ⟨pix, fill, stored⟩ := pixelsStored_frame pixels (loadOpened n s)
  rw [frameLoaded, stored]
  exact loadClosed_slot_self _

theorem frameLoaded_slot_ne (pixels : List Bool) (s : State) {m : SlotNo} (h : m ≠ n) :
    (frameLoaded n pixels s).slot m = s.slot m := by
  obtain ⟨pix, fill, stored⟩ := pixelsStored_frame pixels (loadOpened n s)
  rw [frameLoaded, stored]
  exact (loadClosed_slot_ne _ h).trans (loadOpened_slot_ne s h)

/-- A load that has just been opened has room for the whole frame. -/
theorem loadOpened_room (size : pixels.length = frameSize s.ctl) :
    (loadOpened n s).load.fill.toNat + pixels.length ≤ frameSize (loadOpened n s).ctl := by
  show 0 + pixels.length ≤ frameSize s.ctl
  omega

/-- The cells of the slot read as the pixels loaded into it. -/
theorem map_pixRead_frameLoaded (size : pixels.length = frameSize s.ctl) :
    (List.range (frameSize s.ctl)).map (pixRead (frameLoaded n pixels s) n) = pixels := by
  have stored := map_pixRead_pixelsStored (loadOpened_room (n := n) size)
  rw [show (loadOpened n s).load.fill.toNat = 0 from rfl, Nat.zero_add, List.range_zero, List.map_nil,
    List.nil_append, size] at stored
  exact stored

theorem issueAll_loadframe (hr : Running s) (hn : n.toNat < s.params.nslot) (closed : s.load.isOpen = false)
    (dims : dimsValid s.params s.ctl = true) (size : pixels.length = frameSize s.ctl) (rest : List Instr) :
    issueAll (loadframe n pixels ++ rest) s = issueAll rest (frameLoaded n pixels s) := by
  have loading : Loading (loadOpened n s) := ⟨hr, rfl, hn, ((dimsValid_iff _ _).1 dims).2.2⟩
  have ended : exec .fend (pixelsStored pixels (loadOpened n s)) = .next (frameLoaded n pixels s) := by
    have fill := pixelsStored_fill (loadOpened_room (n := n) size)
    obtain ⟨pix, f, stored⟩ := pixelsStored_frame pixels (loadOpened n s)
    rw [frameLoaded]
    rw [stored] at fill ⊢
    exact exec_fend_completes hr rfl (fill.trans (by show 0 + pixels.length = frameSize s.ctl; omega))
  rw [loadframe, List.cons_append, List.cons_append,
    issueAll_cons (Encoding.decodeOfEncodeIsTheCommand _) (exec_fbegin_completes hr hn closed dims),
    List.append_assoc, issueAll_fpix loading (loadOpened_room size), List.singleton_append,
    issueAll_cons (Encoding.decodeOfEncodeIsTheCommand _) ended]

end Frame

/-- Settles O43: by `issueAll_loadframe` and O37, the scan of the slot reads `map_pixRead_frameLoaded`. -/
theorem loadedFrameScansBack : Obligations.LoadedFrameScansBack := by
  intro n pixels s hr hn closed hwidth hheight size hsize room
  have dims : dimsValid s.params s.ctl = true := (dimsValid_iff _ _).2 ⟨hwidth, hheight, size.symm.trans_le hsize⟩
  have slotSelf := frameLoaded_slot_self n pixels s
  have slotNe := fun m => frameLoaded_slot_ne (n := n) pixels s (m := m)
  have pixelsRead := map_pixRead_frameLoaded (n := n) size
  rw [issueAll_loadframe hr hn closed dims size]
  obtain ⟨store, load, loaded⟩ := frameLoaded_frame n pixels s
  rw [loaded] at slotSelf slotNe pixelsRead ⊢
  have roomForFrame : s.coder.buf.length + s.ctl.width.toNat * s.ctl.height.toNat ≤ s.params.bufcap := size ▸ room
  obtain ⟨scanned, -⟩ := scanrawAppendsThePixels n ((s.withStore store).withLoad load) hr hn hwidth hheight
    (size.symm.trans_le hsize) slotSelf roomForFrame
  refine ⟨_, issueAll_cons (Encoding.decodeOfEncodeIsTheCommand _) scanned, hr, ?_, rfl, rfl, slotSelf, slotNe⟩
  exact congrArg (fun read => ({ s.coder with buf := s.coder.buf ++ read } : Coder)) pixelsRead

end Sys2Proof.Proofs.FrameLoad

/-! The control commands `NOP`, `WCSR` and `RCSR` (spec/44_control.md): no change, the write of each read-write register,
the number each register reads as. -/

namespace Sys2Proof.Proofs.Control

open Sys2Proof.Machine Sys2Proof.Safety

/-- Settles O44: the outcome does not depend on `FAULT`, unlike that of a command run by `runCommand`. -/
theorem nopChangesNothing : Obligations.NopChangesNothing := fun _ => rfl

/-! ## `WCSR`: the test and the write of each read-write register (spec/44_control.md R191) -/

theorem writeCsr_sinksel (v : BitVec 32) (s : State) :
    writeCsr 0x00#8 v s = (require (decide (v.toNat ≤ 1)) .illegalCmd 0 >>= fun _ =>
      .ok (s.withCtl { s.ctl with sinkSel := v.getLsbD 0 })) := rfl

theorem writeCsr_rlecfg (v : BitVec 32) (s : State) :
    writeCsr 0x01#8 v s = (require (rlecfgLegal v) .illegalCmd 0 >>= fun _ => .ok (s.withCtl (s.ctl.setRlecfg v))) := rfl

theorem writeCsr_width (v : BitVec 32) (s : State) :
    writeCsr 0x02#8 v s = (checkDimWrite v s >>= fun _ => .ok (s.withCtl { s.ctl with width := v.setWidth 16 })) := rfl

theorem writeCsr_height (v : BitVec 32) (s : State) :
    writeCsr 0x03#8 v s = (checkDimWrite v s >>= fun _ => .ok (s.withCtl { s.ctl with height := v.setWidth 16 })) := rfl

theorem checkDimWrite_of_closed {v : BitVec 32} {s : State} (small : v.toNat < 65536) (closed : s.load.isOpen = false) :
    checkDimWrite v s = .ok () :=
  checkDimWrite_eq_ok.2 ⟨Nat.le_of_lt_succ small, closed⟩

theorem checkDimWrite_of_open {v : BitVec 32} {s : State} (small : v.toNat < 65536) (isOpen : s.load.isOpen = true) :
    checkDimWrite v s = .error (.raise .protocol 0) := by
  rw [checkDimWrite, require_true (decide_eq_true (Nat.le_of_lt_succ small)), bind_ok,
    require_false (by rw [isOpen]; rfl)]
  rfl

/-! ## The fields of a value written, as numbers (spec/10_state.md R26, R27) -/

theorem getLsbD_eq_decide (v : BitVec 32) (i : Nat) : v.getLsbD i = decide (v.toNat / 2 ^ i % 2 = 1) :=
  Nat.testBit_eq_decide_div_mod_eq

theorem getLsbD_zero_of_le_one {v : BitVec 32} (oneBit : v.toNat ≤ 1) : v.getLsbD 0 = decide (v.toNat = 1) := by
  rw [getLsbD_eq_decide, Nat.pow_zero, Nat.div_one, Nat.mod_eq_of_lt (Nat.lt_succ_of_le oneBit)]

theorem lparamField_eq_ofNat (v : BitVec 32) : lparamField v = BitVec.ofNat 6 (v.toNat / 256) := by
  rw [← Nat.shiftRight_eq_div_pow v.toNat 8]
  rfl

theorem setRlecfg_eq (c : Control) (v : BitVec 32) :
    c.setRlecfg v = { c with
      vpol := decide (v.toNat % 2 = 1), elide := decide (v.toNat / 2 % 2 = 1), lmode := decide (v.toNat / 4 % 2 = 1),
      lparam := BitVec.ofNat 6 (v.toNat / 256) } := by
  rw [Control.setRlecfg, lmodeField, lparamField_eq_ofNat, getLsbD_eq_decide, getLsbD_eq_decide, getLsbD_eq_decide,
    Nat.pow_zero, Nat.div_one]
  rfl

/-- Settles O45: each write passes its test, and its field is the number the statement names. -/
theorem wcsrWritesTheRegister : Obligations.WcsrWritesTheRegister := by
  intro v s hr
  refine ⟨fun oneBit => ?sinksel, fun wellFormed => ?rlecfg, fun small closed => ?width, fun small closed => ?height⟩
  all_goals refine exec_completes (exec_wcsr _ v s) hr ?_
  case sinksel =>
    rw [writeCsr_sinksel, require_true (decide_eq_true oneBit), bind_ok, getLsbD_zero_of_le_one oneBit]
    rfl
  case rlecfg =>
    have legal : rlecfgLegal v = true := (RangeChecks.wcsrWellFormed_rlecfg v).symm.trans wellFormed
    rw [writeCsr_rlecfg, require_true legal, bind_ok, setRlecfg_eq]
    rfl
  case width =>
    rw [writeCsr_width, checkDimWrite_of_closed small closed, bind_ok, BitVec.ofNat_toNat]
    rfl
  case height =>
    rw [writeCsr_height, checkDimWrite_of_closed small closed, bind_ok, BitVec.ofNat_toNat]
    rfl

/-- Settles O46: both registers make the test of `checkDimWrite`, which an open load fails. -/
theorem dimensionsAreLockedDuringALoad : Obligations.DimensionsAreLockedDuringALoad := by
  intro v s hr small isOpen
  have locked := checkDimWrite_of_open small isOpen
  constructor
  · refine exec_raises (c := .protocol) (exec_wcsr _ v s) hr ?_
    rw [writeCsr_width, locked, bind_error]
  · refine exec_raises (c := .protocol) (exec_wcsr _ v s) hr ?_
    rw [writeCsr_height, locked, bind_error]

/-! ## `RCSR`: the registers made of several fields, as numbers (spec/10_state.md R27, R31) -/

theorem toNat_append_ofBool {n : Nat} (x : BitVec n) (b : Bool) :
    (x ++ BitVec.ofBool b).toNat = 2 * x.toNat + b.toNat := by
  rw [BitVec.toNat_append, BitVec.toNat_ofBool, ← Nat.shiftLeft_add_eq_or_of_lt b.toNat_lt, Nat.shiftLeft_eq,
    Nat.mul_comm]

theorem toNat_append_zero {n : Nat} (x : BitVec n) (m : Nat) : (x ++ 0#m).toNat = 2 ^ m * x.toNat := by
  rw [BitVec.toNat_append, BitVec.toNat_zero, Nat.or_zero, Nat.shiftLeft_eq, Nat.mul_comm]

theorem setWidth_eq_ofNat {n : Nat} (x : BitVec n) : x.setWidth 64 = BitVec.ofNat 64 x.toNat :=
  (BitVec.ofNat_toNat 64 x).symm

theorem rlecfgWord_eq_ofNat (c : Control) :
    rlecfgWord c =
      BitVec.ofNat 64 (c.vpol.toNat + 2 * c.elide.toNat + 4 * c.lmode.toNat + 256 * c.lparam.toNat) := by
  rw [rlecfgWord, setWidth_eq_ofNat, toNat_append_ofBool, toNat_append_ofBool, toNat_append_ofBool, toNat_append_zero]
  congr 1
  omega

theorem partialWord_toNat (s : State) : (partialWord s).toNat = if s.emit.pos > 0 then 1 else 0 :=
  Bool.cond_decide ..

theorem bufNe_toNat (s : State) : (bufNe s).toNat = if s.coder.buf.length > 0 then 1 else 0 := by
  cases h : s.coder.buf <;> simp [bufNe, h]

/-- Outside the fault state bit 0 of `STATUS` is zero. -/
theorem statusWord_eq_ofNat {s : State} (hr : Running s) :
    statusWord s = BitVec.ofNat 64 (2 * s.load.isOpen.toNat + 4 * (if s.coder.buf.length > 0 then 1 else 0) +
      8 * (if s.emit.pos > 0 then 1 else 0)) := by
  rw [statusWord, setWidth_eq_ofNat, toNat_append_ofBool, toNat_append_ofBool, toNat_append_ofBool,
    BitVec.toNat_ofBool, hr, bufNe_toNat, partialWord_toNat, Bool.toNat_false]
  congr 1
  omega

/-- `exec_rcsr_running` for a register whose value is given as a number. -/
theorem exec_rcsr_ofNat {addr : BitVec 8} {s : State} {v : Nat} (hr : Running s) (c : Csr) (h : csrAt addr = some c)
    (value : csrValue s c = BitVec.ofNat 64 v) :
    exec (.rcsr addr) s = .next { s with resp := s.resp ++ [BitVec.ofNat 64 v] } := by
  rw [exec_rcsr_running hr h, value]
  rfl

/-- Settles O47: a register is narrower than a response, as wide as one, a natural number, or made of several fields. -/
theorem rcsrAppendsTheRegister : Obligations.RcsrAppendsTheRegister := by
  intro s hr
  have sinksel : csrValue s .sinksel = BitVec.ofNat 64 s.ctl.sinkSel.toNat :=
    (setWidth_eq_ofNat _).trans (congrArg (BitVec.ofNat 64) (BitVec.toNat_ofBool _))
  have whole (x : Word) : x = BitVec.ofNat 64 x.toNat := x.setWidth_eq.symm.trans (setWidth_eq_ofNat x)
  exact ⟨
    exec_rcsr_ofNat hr .sinksel rfl sinksel,
    exec_rcsr_ofNat hr .rlecfg rfl (rlecfgWord_eq_ofNat s.ctl),
    exec_rcsr_ofNat hr .width rfl (setWidth_eq_ofNat s.ctl.width),
    exec_rcsr_ofNat hr .height rfl (setWidth_eq_ofNat s.ctl.height),
    exec_rcsr_ofNat hr .status rfl (statusWord_eq_ofNat hr),
    exec_rcsr_ofNat hr .cause rfl (setWidth_eq_ofNat s.flt.cause),
    exec_rcsr_ofNat hr .fcmd rfl (whole s.flt.fcmd),
    exec_rcsr_ofNat hr .fval rfl (whole s.flt.fval),
    exec_rcsr_ofNat hr .cntBits rfl (whole s.cntBits),
    exec_rcsr_ofNat hr .emitBits rfl (whole s.emit.bits),
    exec_rcsr_ofNat hr .emitWords rfl (whole s.emit.words),
    exec_rcsr_ofNat hr .pos rfl rfl,
    exec_rcsr_ofNat hr .cur rfl (whole s.emit.cur),
    exec_rcsr_ofNat hr .runcnt rfl (setWidth_eq_ofNat s.coder.runcnt),
    exec_rcsr_ofNat hr .buflen rfl rfl,
    exec_rcsr_ofNat hr .paramW rfl rfl,
    exec_rcsr_ofNat hr .paramNslot rfl rfl,
    exec_rcsr_ofNat hr .paramMaxpix rfl rfl,
    exec_rcsr_ofNat hr .paramBufcap rfl rfl⟩

end Sys2Proof.Proofs.Control

/-! The round trip (spec/45_host_procedures.md R234): the reference decoder, given the run stream of a sequence, reads one
run of the sequence in each turn of its loop. -/

namespace Sys2Proof.Proofs.RoundTrip

open Sys2Proof.Machine Sys2Proof.Safety Sys2Proof.Proofs.ScalarCodec Sys2Proof.Proofs.RunStream
open Sys2Proof.Proofs.Invariant

/-! ## The fields of a run read back (spec/45_host_procedures.md R233) -/

theorem readLength_lengthBits {c : RleConfig} {len : Nat} (positive : 1 ≤ len) (fits : c.lengthFits len)
    (rest : List Bool) : readLength c (c.lengthBits len ++ rest) = some (len, rest) := by
  unfold readLength RleConfig.lengthBits
  cases rice : c.lmode with
  | true => simp [readRice_riceBits, positive]
  | false =>
    have short : len - 1 < 2 ^ c.lparam := fits.resolve_left (by simp [rice])
    simp [readUint_uintBits short, positive]

/-- The value of run `i`, whether it has a value bit or toggles the value `v` of the run before it. -/
theorem readValue_valueBit {c : RleConfig} {i : Nat} {v b : Bool} (follows : i ≠ 0 → b = !v) (rest : List Bool) :
    readValue c i v ((if c.writesValue (i == 0) then [b] else []) ++ rest) = some (b, rest) := by
  unfold readValue
  split_ifs with written
  · rfl
  · have later : i ≠ 0 := by
      rintro rfl
      simp [RleConfig.writesValue] at written
    rw [follows later, List.nil_append]

/-! ## The decoder's loop -/

/-- What holds between two turns of `decode_runs(n, m)`: `i` runs have been read, the last of value `v`, giving `out`,
and `runs` are the ones that the stream still holds. -/
structure Ahead (c : RleConfig) (n m i : Nat) (v : Bool) (out : List Bool) (runs : List Run) : Prop where
  length_eq : out.length + (runs.map (fun r => r.len)).sum = n
  count_eq : i + runs.length = m
  positive : ∀ r ∈ runs, 1 ≤ r.len
  toggles : runs.IsChain Toggles
  follows : i ≠ 0 → ∀ r ∈ runs.head?, r.value = !v
  fits : ∀ r ∈ c.codedRuns runs, c.lengthFits r.len

section Turn

variable {c : RleConfig} {n m i : Nat} {v : Bool} {out : List Bool} {r : Run} {rs : List Run}

/-- Before the first turn all the runs of a sequence are ahead. -/
theorem ahead_runsOf {seq : List Bool} (fits : c.fits seq = true) (v : Bool) :
    Ahead c seq.length (runsOf seq).length 0 v [] (runsOf seq) where
  length_eq := (Nat.zero_add _).trans (sum_len_runsOf seq)
  count_eq := Nat.zero_add _
  positive := one_le_len_of_mem_runsOf seq
  toggles := isChain_toggles_runsOf seq
  follows := fun first => absurd rfl first
  fits := (RleConfig.fits_iff c seq).1 fits

/-- One turn reads the first run ahead. -/
theorem Ahead.next (h : Ahead c n m i v out (r :: rs)) : Ahead c n m (i + 1) r.value (out ++ expand r) rs where
  length_eq := by
    have total := h.length_eq
    rw [List.map_cons, List.sum_cons] at total
    rw [List.length_append, expand, List.length_replicate, Nat.add_assoc, total]
  count_eq := by
    have count := h.count_eq
    rw [List.length_cons] at count
    omega
  positive := (List.forall_mem_cons.1 h.positive).2
  toggles := (List.isChain_cons.1 h.toggles).2
  follows := fun _ => (List.isChain_cons.1 h.toggles).1
  fits := by
    have coded := h.fits
    rw [RleConfig.codedRuns_cons] at coded
    exact fun x hx => coded x (List.mem_append_right _ hx)

/-- The loop goes on while a run is ahead, with elision by the count of the runs, without it by the length. -/
theorem Ahead.goes_on (h : Ahead c n m i v out (r :: rs)) : if c.elide then i < m else out.length < n := by
  have total := h.length_eq
  have count := h.count_eq
  have nonempty : 1 ≤ r.len := h.positive r List.mem_cons_self
  rw [List.map_cons, List.sum_cons] at total
  rw [List.length_cons] at count
  split_ifs <;> omega

/-- The loop stops when none is. -/
theorem Ahead.stops (h : Ahead c n m i v out []) : ¬if c.elide then i < m else out.length < n := by
  have total := h.length_eq
  have count := h.count_eq
  rw [List.map_nil, List.sum_nil] at total
  rw [List.length_nil] at count
  split_ifs <;> omega

/-- The decoder takes a length for elided exactly where the encoder has written none. -/
theorem Ahead.elided_iff (h : Ahead c n m i v out (r :: rs)) :
    (c.elide = true ∧ i + 1 = m) ↔ ¬c.writesLength rs.isEmpty = true := by
  have count := h.count_eq
  rw [List.length_cons] at count
  have last : i + 1 = m ↔ rs = [] := by
    rw [← List.length_eq_zero_iff]
    omega
  simp [RleConfig.writesLength, last]

/-- The elided length, recovered by subtraction. -/
theorem Ahead.sub_eq_len (h : Ahead c n m i v out [r]) : n - out.length = r.len := by
  have total := h.length_eq
  rw [List.map_singleton, List.sum_singleton] at total
  omega

/-- One turn of the loop: it reads the encoding of the first run ahead and appends its block. -/
theorem decodeRunsLoop_runBits (h : Ahead c n m i v out (r :: rs)) (fuel : Nat) (rest : List Bool) :
    decodeRunsLoop c n m (fuel + 1) i v out (c.runBits (i == 0) rs.isEmpty r ++ rest) =
      decodeRunsLoop c n m fuel (i + 1) r.value (out ++ expand r) rest := by
  have value := readValue_valueBit (c := c) (fun later => h.follows later r rfl)
    ((if c.writesLength rs.isEmpty then c.lengthBits r.len else []) ++ rest)
  rw [RleConfig.runBits, List.append_assoc, decodeRunsLoop, if_pos h.goes_on, value]
  by_cases written : c.writesLength rs.isEmpty = true
  · have fits : c.lengthFits r.len := h.fits r (by simp [RleConfig.codedRuns_cons, written])
    have length := readLength_lengthBits (h.positive r List.mem_cons_self) fits rest
    have notElided : ¬(c.elide = true ∧ i + 1 = m) := fun elided => h.elided_iff.1 elided written
    simp only [if_pos written, if_neg notElided, length, expand]
  · have elided := h.elided_iff.2 written
    obtain ⟨-, rfl⟩ : c.elide = true ∧ rs = [] := by simpa [RleConfig.writesLength] using written
    have notTooLong : ¬n < out.length := by
      have total := h.length_eq
      omega
    simp only [if_neg written, if_pos elided, if_neg notTooLong, h.sub_eq_len, List.nil_append, expand]

end Turn

/-- The loop reads the encodings of the runs ahead, by induction on them: a turn for each. -/
theorem decodeRunsLoop_runListBits {c : RleConfig} {n m i fuel : Nat} {v : Bool} {out : List Bool} {runs : List Run}
    (h : Ahead c n m i v out runs) (enough : runs.length ≤ fuel) (rest : List Bool) :
    decodeRunsLoop c n m fuel i v out (c.runListBits (i == 0) runs ++ rest) =
      some (out ++ runs.flatMap expand, rest) := by
  induction runs generalizing i fuel v out with
  | nil =>
    rw [RleConfig.runListBits, List.flatMap_nil, List.append_nil, List.nil_append]
    cases fuel <;> rw [decodeRunsLoop, if_neg h.stops]
  | cons r rs ih =>
    obtain ⟨fuel, rfl⟩ := Nat.exists_eq_add_of_lt enough
    rw [List.length_cons] at enough
    rw [RleConfig.runListBits, List.append_assoc, decodeRunsLoop_runBits h]
    have later := ih h.next (Nat.le_add_right rs.length fuel)
    rw [List.flatMap_cons, ← List.append_assoc, ← later]
    rfl

/-- The run stream of a sequence decodes to it, whatever comes after the stream. -/
theorem decodeRuns_runStream {c : RleConfig} {seq : List Bool} (fits : c.fits seq = true) (rest : List Bool) :
    decodeRuns c seq.length (runsOf seq).length (c.runStream seq ++ rest) = some (seq, rest) := by
  have decoded := decodeRunsLoop_runListBits (ahead_runsOf fits false)
    (Nat.le_add_left (runsOf seq).length seq.length) rest
  rwa [flatMap_expand_runsOf] at decoded

/-- `RUNCNT` counts the runs of a sequence shorter than `2 ^ 32` without wrapping. -/
theorem toNat_ofNat_length_runsOf {seq : List Bool} (short : seq.length < 2 ^ 32) :
    (BitVec.ofNat 32 (runsOf seq).length).toNat = (runsOf seq).length :=
  (BitVec.toNat_ofNat _ 32).trans (Nat.mod_eq_of_lt ((length_runsOf_le seq).trans_lt short))

/-- Settles O32: an `RFLUSH` that completes had fields that fit and has written the run stream, which
`decodeRuns_runStream` decodes. -/
theorem rflushedBitsDecodeToTheBuffer : Obligations.RflushedBitsDecodeToTheBuffer := by
  intro s t hr sound sel short h ht
  obtain ⟨fits, u, written, rfl⟩ := rleDrain_eq_ok.1 (exec_inversion_running (exec_rflush s) hr h ht)
  have writes := writeBits_writes sound written
  rw [WritesBits, if_pos sel] at writes
  obtain ⟨-, -, stream, -, -⟩ := writes
  refine ⟨s.ctl.rleConfig.runStream s.coder.buf, stream, fun rest => ?_⟩
  rw [State.withCoder_coder, toNat_ofNat_length_runsOf short]
  exact decodeRuns_runStream fits rest

end Sys2Proof.Proofs.RoundTrip

/-! The host's bookkeeping (spec/45_host_procedures.md R215, R220, R221): the history window and the selection of a
candidate. -/

namespace Sys2Proof.Proofs.HostBookkeeping

open Sys2Proof.Machine

/-! ## The history window (spec/45_host_procedures.md R220, R221) -/

/-- A push onto a window of the most recent frames gives the most recent frames again. -/
theorem pushWindow_drop (capacity : Nat) (frames : List SlotNo) (n : SlotNo) :
    pushWindow capacity (frames.drop (frames.length - capacity)) n =
      (frames ++ [n]).drop ((frames ++ [n]).length - capacity) := by
  have appended : frames.drop (frames.length - capacity) ++ [n] = (frames ++ [n]).drop (frames.length - capacity) :=
    (List.drop_append_of_le_length (Nat.sub_le _ _)).symm
  rw [pushWindow, appended, List.drop_drop, List.length_drop, List.length_append, List.length_singleton]
  congr 1
  omega

/-- The window after any number of pushes, by induction on the frames from the last one pushed. -/
theorem foldl_pushWindow (capacity : Nat) (frames : List SlotNo) :
    frames.foldl (pushWindow capacity) [] = frames.drop (frames.length - capacity) := by
  induction frames using List.reverseRecOn with
  | nil => exact List.drop_nil.symm
  | append_singleton frames n ih => rw [List.foldl_append, ih, List.foldl_cons, List.foldl_nil, pushWindow_drop]

/-- Settles O59, by `foldl_pushWindow`. -/
theorem historyHoldsTheMostRecentFrames : Obligations.HistoryHoldsTheMostRecentFrames := by
  intro capacity frames
  rw [foldl_pushWindow, List.length_drop]
  exact ⟨rfl, by omega⟩

/-! ## The selection (spec/45_host_procedures.md R215) -/

/-- `win` does not lose to `c`: it costs less, or as much with a number that is not larger. -/
def NotWorse (win c : Measured) : Prop := win.cost ≤ c.cost ∧ (c.cost = win.cost → win.index ≤ c.index)

theorem notWorse_self (m : Measured) : NotWorse m m := ⟨Nat.le_refl _, fun _ => Nat.le_refl _⟩

theorem NotWorse.trans {a b c : Measured} (h : NotWorse a b) (h' : NotWorse b c) : NotWorse a c := by
  obtain ⟨cost, index⟩ := h
  obtain ⟨cost', index'⟩ := h'
  refine ⟨cost.trans cost', fun same => ?_⟩
  exact (index (by omega)).trans (index' (by omega))

theorem notWorse_of_cost_lt {a b : Measured} (h : a.cost < b.cost) : NotWorse a b :=
  ⟨h.le, fun same => absurd same h.ne'⟩

theorem notWorse_of_index_lt {a b : Measured} (cost : ¬b.cost < a.cost) (index : a.index < b.index) : NotWorse a b :=
  ⟨Nat.not_lt.1 cost, fun _ => index.le⟩

theorem selectBest_cons_of_lt {m x : Measured} (h : x.cost < m.cost) (xs : List Measured) :
    selectBest m (x :: xs) = selectBest x xs := by
  rw [selectBest, List.foldl_cons, if_pos h, selectBest]

theorem selectBest_cons_of_not_lt {m x : Measured} (h : ¬x.cost < m.cost) (xs : List Measured) :
    selectBest m (x :: xs) = selectBest m xs := by
  rw [selectBest, List.foldl_cons, if_neg h, selectBest]

theorem selectBest_mem (m : Measured) (ms : List Measured) : selectBest m ms ∈ m :: ms := by
  induction ms generalizing m with
  | nil => exact List.mem_singleton_self m
  | cons x xs ih =>
    by_cases less : x.cost < m.cost
    · rw [selectBest_cons_of_lt less]
      exact List.mem_cons_of_mem m (ih x)
    · rw [selectBest_cons_of_not_lt less]
      exact List.cons_subset_cons m (List.subset_cons_self x xs) (ih m)

/-- The winner does not lose to the best candidate so far, nor to a later one: of that candidate and the next, the loop
goes on with the one that does not lose to the other. -/
theorem notWorse_selectBest {m : Measured} {ms : List Measured}
    (ascending : (m :: ms).Pairwise (fun a b => a.index < b.index)) : ∀ c ∈ m :: ms, NotWorse (selectBest m ms) c := by
  induction ms generalizing m with
  | nil => exact List.forall_mem_singleton.2 (notWorse_self m)
  | cons x xs ih =>
    obtain ⟨first, later⟩ := List.pairwise_cons.1 ascending
    obtain ⟨before, beforeRest⟩ := List.forall_mem_cons.1 first
    by_cases less : x.cost < m.cost
    · rw [selectBest_cons_of_lt less]
      have fromNext := ih later
      have next := (List.forall_mem_cons.1 fromNext).1
      exact List.forall_mem_cons.2 ⟨next.trans (notWorse_of_cost_lt less), fromNext⟩
    · rw [selectBest_cons_of_not_lt less]
      obtain ⟨best, rest⟩ :=
        List.forall_mem_cons.1 (ih (List.pairwise_cons.2 ⟨beforeRest, (List.pairwise_cons.1 later).2⟩))
      exact List.forall_mem_cons.2
        ⟨best, List.forall_mem_cons.2 ⟨best.trans (notWorse_of_index_lt less before), rest⟩⟩

/-- Settles O60, by `notWorse_selectBest`. -/
theorem selectionTakesTheFirstOfLeastCost : Obligations.SelectionTakesTheFirstOfLeastCost := fun m ms ascending =>
  ⟨selectBest_mem m ms, notWorse_selectBest ascending⟩

end Sys2Proof.Proofs.HostBookkeeping

/-! The fault (spec/60_exceptions.md): its entry and its record, what a command does in the fault state, the way out. -/

namespace Sys2Proof.Proofs.FaultState

open Sys2Proof.Machine Sys2Proof.Safety Sys2Proof.Proofs.StepEffect

/-! ## Fault entry (spec/60_exceptions.md R266) -/

/-- A write of bits leaves the fault registers alone. -/
theorem writeBits_flt {bits : List Bool} {s t : State} (h : writeBits bits s = .ok t) : t.flt = s.flt := by
  have passed := RangeChecks.checksPassed_writeBits False bits s
  rwa [h] at passed

/-- A command that completes leaves the fault registers alone. -/
theorem effect_flt {i : Instr} {s t : State} (effect : Effect i s t) : t.flt = s.flt := by
  cases effect with
  | writes written => exact writeBits_flt written
  | @drains bits u written =>
    have drained : u.flt = s.flt := writeBits_flt written
    exact drained
  | flushes => exact sinkFlush_flt s
  | idles | appends | opensLoad | storesPixel | closesLoad | configures | responds => rfl

/-- A command that goes from a running state to the fault state does so by fault entry, with its own word. -/
theorem eq_enterFault_of_exec {i : Instr} {s t : State} (hr : Running s) (h : exec i s = .next t)
    (faulted : t.flt.fault = true) : ∃ c x, t = enterFault c (encode i) x s := by
  rcases exec_ends hr h with effect | entered | ⟨-, rfl⟩
  · rw [effect_flt effect] at faulted
    exact absurd (hr.symm.trans faulted) Bool.false_ne_true
  · exact entered
  · exact absurd faulted Bool.false_ne_true

/-- A step that goes from a running state to the fault state does so by fault entry, with the word it takes: that of the
command it decodes to, or one that is no command. -/
theorem eq_enterFault_of_step {s t : State} {w : Cmd} {rest : List Cmd} (next : s.cmds = w :: rest) (hr : Running s)
    (h : step s = .next t) (faulted : t.flt.fault = true) : ∃ c x, t = enterFault c w x (s.withCmds rest) := by
  rw [step_cons next] at h
  cases hd : decode w with
  | error e =>
    rw [hd] at h
    rcases illegalWord_next h with ⟨already, -⟩ | ⟨-, entered⟩
    · exact absurd (hr.symm.trans already) Bool.false_ne_true
    · exact ⟨.illegalCmd, 0, entered⟩
  | ok i =>
    rw [hd] at h
    rw [← Encoding.decode_eq_ok_iff.1 hd]
    exact eq_enterFault_of_exec (s := s.withCmds rest) hr h faulted

/-- Settles O50: fault entry records the word, the code of a cause, and leaves `RESP` and the host's stream alone. -/
theorem faultRecordsTheWordIssued : Obligations.FaultRecordsTheWordIssued := by
  intro s t w rest next hr h faulted
  obtain ⟨c, x, rfl⟩ := eq_enterFault_of_step next hr h faulted
  obtain ⟨low, high⟩ := c.code_range
  exact ⟨rfl, low, high, rfl, rfl⟩

/-! ## The words discarded (spec/60_exceptions.md R267, last row) -/

theorem csrAt_eq_none {addr : BitVec 8} (undefined : addr ∉ definedCsrAddrs) : csrAt addr = none := by
  rw [← Option.isNone_iff_eq_none, ← Option.not_isSome, csrAt_isSome]
  simpa using undefined

theorem exists_csrAt_eq_some {addr : BitVec 8} (defined : addr ∈ definedCsrAddrs) : ∃ c, csrAt addr = some c := by
  rw [← Option.isSome_iff_exists, csrAt_isSome]
  simpa using defined

/-- In the fault state every command but `RESET` and a read of a register is discarded: those that run an operation do
not run it, and `NOP` does nothing in any state. -/
theorem exec_discards {i : Instr} {s : State} (hf : s.flt.fault = true) (notReset : i ≠ .reset)
    (notRead : ∀ addr ∈ definedCsrAddrs, i ≠ .rcsr addr) : exec i s = .next s := by
  cases i with
  | nop => rfl
  | wbit | wuint | wrice | flush | rpush | rflush | fbegin | fpix | fend | scanraw | scanxor | wcsr =>
    simp only [exec_wbit, exec_wuint, exec_wrice, exec_flush, exec_rpush, exec_rflush, exec_fbegin, exec_fpix,
      exec_fend, exec_scanraw, exec_scanxor, exec_wcsr, runCommand_fault hf]
  | rcsr addr =>
    have undefined : csrAt addr = none := csrAt_eq_none fun defined => notRead addr defined rfl
    exact (exec_rcsr_undefined undefined s).trans (runCommand_fault hf)
  | reset => exact absurd rfl notReset

/-- Settles O51: a word that is no command is discarded by `illegalWord`, any other by `exec_discards`. -/
theorem faultStateDiscardsEveryOtherWord : Obligations.FaultStateDiscardsEveryOtherWord := by
  intro s w rest next hf notReset notRead
  rw [step_cons next]
  cases hd : decode w with
  | error e => exact if_pos hf
  | ok i =>
    obtain rfl : encode i = w := Encoding.decode_eq_ok_iff.1 hd
    refine exec_discards (s := s.withCmds rest) hf ?_ fun addr defined isRead => ?_
    · rintro rfl
      exact notReset rfl
    · exact notRead addr defined (congrArg encode isRead)

/-! ## The way out (spec/60_exceptions.md R270) -/

/-- Settles O53: of the things a step can do from the fault state, only `RESET` touches the record. -/
theorem onlyResetLeavesTheFaultState : Obligations.OnlyResetLeavesTheFaultState := by
  intro s t hf h
  have notRunning : ¬Running s := fun running => Bool.false_ne_true (running.symm.trans hf)
  cases step_next h with
  | waits => exact .inl rfl
  | completes _ _ _ running => exact absurd running notRunning
  | faults _ _ _ _ running => exact absurd running notRunning
  | resets rest next decoded => exact .inr ⟨rest, by rw [next, Growth.eq_of_decode_reset decoded], rfl⟩
  | discards => exact .inl rfl
  | reads c rest =>
    obtain ⟨-, -, frame⟩ := readInFault_frame c (s.withCmds rest)
    rw [frame]
    exact .inl rfl

/-! ## Reads in the fault state (spec/60_exceptions.md R267) -/

theorem exec_rcsr_in_fault {addr : BitVec 8} {c : Csr} {s : State} (hf : s.flt.fault = true)
    (h : csrAt addr = some c) : exec (.rcsr addr) s = .next (readInFault c s) :=
  (exec_rcsr_defined h s).trans (if_pos hf)

theorem readInFault_status (s : State) :
    readInFault .status s = (respond (statusWordInFault (Config.freeStatusBits s.draws)) s).drawn := rfl

/-- A register whose value outlives fault entry reads as it does outside the fault state. -/
theorem exec_rcsr_of_survives {addr : BitVec 8} {s : State} (hf : s.flt.fault = true) (c : Csr)
    (h : csrAt addr = some c) (survives : csrSurvivesFault c = true) :
    exec (.rcsr addr) s = .next { s with resp := s.resp ++ [csrValue s c] } := by
  have notStatus : c ≠ .status := by
    rintro rfl
    exact Bool.false_ne_true survives
  rw [exec_rcsr_in_fault hf h, readInFault, if_neg notStatus, if_pos survives]
  rfl

/-- `STATUS` in the fault state has bit 0 set and no bit above bit 3, whatever the unspecified bits are. -/
theorem getLsbD_statusWordInFault (bits : BitVec 3) :
    (statusWordInFault bits).getLsbD 0 = true ∧ ∀ i, 4 ≤ i → (statusWordInFault bits).getLsbD i = false := by
  constructor
  · rw [statusWordInFault, BitVec.getLsbD_setWidth, BitVec.getLsbD_append]
    rfl
  · intro i above
    rw [statusWordInFault, BitVec.getLsbD_setWidth, BitVec.getLsbD_of_ge _ _ above, Bool.and_false]

/-- Settles O52: seven registers keep their values, and any read is one response, that of `STATUS` being
`statusWordInFault`. -/
theorem faultStateReadsOneValue : Obligations.FaultStateReadsOneValue := by
  intro s hf
  refine ⟨exec_rcsr_of_survives hf .cause rfl rfl, exec_rcsr_of_survives hf .fcmd rfl rfl,
    exec_rcsr_of_survives hf .fval rfl rfl, exec_rcsr_of_survives hf .paramW rfl rfl,
    exec_rcsr_of_survives hf .paramNslot rfl rfl, exec_rcsr_of_survives hf .paramMaxpix rfl rfl,
    exec_rcsr_of_survives hf .paramBufcap rfl rfl, fun addr defined => ?_⟩
  obtain ⟨c, hc⟩ := exists_csrAt_eq_some defined
  obtain ⟨v, appended, frame⟩ := readInFault_frame c s
  refine ⟨readInFault c s, v, exec_rcsr_in_fault hf hc, appended, frame, ?_⟩
  rintro rfl
  obtain rfl : Csr.status = c := Option.some.inj hc
  rw [readInFault_status] at appended
  obtain rfl : statusWordInFault _ = v := List.singleton_inj.1 (List.append_cancel_left appended)
  exact getLsbD_statusWordInFault _

end Sys2Proof.Proofs.FaultState
